-- ==== Sys2Proof/Word.lean ====
section
/-! DEFINITION. The plain types of PRE2-DEC: bytes, LZW codes, Huffman symbols, and the name of a stream format
(spec/10_state.md R21, spec/30_encoding.md R91, R99). -/

namespace Sys2Proof

/-- One byte of `IN` or `OUT` (20_memory R68). -/
abbrev Byte := BitVec 8

/-- An LZW code: the codeword value, zero-extended to 12 bits (30_encoding R91). -/
abbrev Code := BitVec 12

/-- A Huffman symbol, 15 bits (30_encoding R99). -/
abbrev Symbol := BitVec 15

/-- The register `FORMAT` (10_state R21, R23): which instruction set the rest of `IN` is executed under. `none` stands
while the container header has not been parsed. -/
inductive Format where
  | none
  | lzw
  | huff
  | diet
deriving DecidableEq, Repr, Inhabited

end Sys2Proof
end

