-- ==== Sys2Proof/Config.lean ====
section
/-! DEFINITION. The constants and parameters of 00_scope R9, as plain data, and the free values: what the spec leaves
open after an abort and at power-on. -/

namespace Sys2Proof

/-- `NBIT_MIN`: the first codeword width (00_scope R9, 10_state R28). -/
abbrev nbitMin : Nat := 9

/-- `NBIT_MAX`: the widest codeword (00_scope R9). -/
abbrev nbitMax : Nat := 12

/-- `DICT_INIT`: `dictsize` after initialisation and after a clear code (00_scope R9, 10_state R29). -/
abbrev dictInit : Nat := 0x102

/-- `DICT_CAP`: the hard cap of `dictsize` (00_scope R9, 42_lzw R202). -/
abbrev dictCap : Nat := 4096

/-- `TTF_PAYLOAD_OFFSET`: index of the first TTF payload byte (00_scope R9). -/
abbrev ttfPayloadOffset : Nat := 4

/-- A code read one bit at a time: at each `bit` the next bit chooses `zero` or `one`, a leaf ends it. It is how a
parameter that is "a function on the `R16` reader state" (00_scope R9) is held as plain data (log 13, log 14). -/
inductive BitTree (α : Type) where
  | leaf (a : α)
  | bit (zero one : BitTree α)
deriving DecidableEq, Repr, Inhabited

/-- The leaves of a code, in bit order. -/
def BitTree.leaves {α : Type} : BitTree α → List α
  | .leaf a => [a]
  | .bit zero one => zero.leaves ++ one.leaves

/-- What a leaf of `DIET_LONG_COUNT` gives: a count, or a base to which one raw byte is added (30_encoding R104). 00_scope R9
gives the function the values 1..270; that a leaf may lead to any other count is the model's choice (DESIGN CHOICE, log 14). -/
inductive CountLeaf where
  | exact (n : Nat)
  | rawPlus (base : Nat)
deriving DecidableEq, Repr, Inhabited

/-- The counts that end at a leaf. -/
def CountLeaf.covers (n : Nat) : CountLeaf → Bool
  | .exact m => m == n
  | .rawPlus base => decide (base ≤ n ∧ n < base + 256)

/-- A tree node as `HUFF_NODE_DECODE` reads it (00_scope R9). A leaf's symbol is cut to 15 bits (decision D23). -/
inductive HuffNode where
  | internal (index : Nat)
  | leaf (symbol : Symbol)
deriving DecidableEq, Repr, Inhabited

/-- The parameter `HUFF_NODE_DECODE`, a function from 16-bit words to nodes, as plain data (log 12): the default of
43_huffman_rle R232, the alternative G5, or any other function, given by its rows (a word with no row reads as in the
default). -/
inductive NodeDecode where
  | lowBit
  | highBit
  | table (rows : List (BitVec 16 × HuffNode))
deriving DecidableEq, Repr, Inhabited

/-- The control register group `CFG` (10_state R22) with the parameters of 00_scope R9. Written only by the host, between
calls. -/
structure Cfg where
  /-- `CFG.ALT_LZW` (42_lzw R192). -/
  altLzw : Bool
  /-- `CFG.DIET_SIG` (40_dispatcher R131). -/
  dietSig : BitVec 16
  /-- `CFG.OUT_CAP`; `none` is `unbounded` (20_memory R62). -/
  outCap : Option Nat
  /-- `DIET_PAYLOAD_OFFSET`: index in `IN` of the first DIET bitstream byte (30_encoding R95). -/
  dietPayloadOffset : Nat
  /-- `HUFF_NODE_DECODE` (43_huffman_rle R232, log 12). -/
  nodeDecode : NodeDecode
  /-- `HUFF_ROOT_EXPLICIT` (43_huffman_rle R233). -/
  rootExplicit : Bool
  /-- `DIET_LONG_OFFSET_HI` (44_diet R268, log 13). -/
  longOffsetHi : BitTree Byte
  /-- `DIET_LONG_COUNT` (44_diet R269). The field does not hold the counts to the 1..270 of 00_scope R9 (log 14). -/
  longCount : BitTree CountLeaf
deriving DecidableEq, Repr, Inhabited

/-- How many header bytes precede the size-high byte: the `P - 3` passes of 40_dispatcher R132; below `P = 3` no pass is
made (DESIGN CHOICE, log 15). -/
abbrev Cfg.dietSkip (c : Cfg) : Nat := c.dietPayloadOffset - 3

/-- The bytes of a DIET header: the `P` of 40_dispatcher R132, and never fewer than the three size bytes (log 15). -/
abbrev Cfg.dietHeaderLen (c : Cfg) : Nat := c.dietSkip + 3

/-- A free bit pattern: nothing constrains it. First argument after the width: the draw; second: which item. Used for
what 60_exceptions R310 and 93 U14 leave open after an abort, and 70_reset R341 at power-on (log 4, log 6). -/
opaque Config.freeBits (w : Nat) : Nat → Nat → BitVec w

/-- A free natural number (log 6). -/
opaque Config.freeNat : Nat → Nat → Nat

/-- A free truth value (log 6). -/
opaque Config.freeBool : Nat → Nat → Bool

/-- A free value of `FORMAT` (log 4). -/
opaque Config.freeFormat : Nat → Nat → Format

/-- A free list of (address, byte) pairs (log 6). -/
opaque Config.freeCells : Nat → List (Nat × Byte)

/-- A free list of (code, string) pairs (log 6). -/
opaque Config.freeStrings : Nat → List (Nat × List Byte)

/-- A free list of 16-bit words (log 6). -/
opaque Config.freeWords : Nat → List (BitVec 16)

/-- A free `CFG`: what it holds before the host's first write (10_state R22, log 4). -/
opaque Config.freeCfg : Nat → Cfg

/-- A free input, `none` for an absent one: what `SRC` holds before the host presents it (log 4). -/
opaque Config.freeInput : Nat → Option (List Byte)

end Sys2Proof
end

