-- ==== Sys2Proof/Syntax.lean ====
section
/-! DEFINITION. The instructions of PRE2-DEC: one constructor for each row of spec/opcode_table.json. -/

namespace Sys2Proof

/-- One instruction with all its operands (the extension symbols of a run and every field of a DIET token among them,
log 16). -/
inductive Instr where
  /-- `LIT` (42_lzw R194): the literal byte. -/
  | lit (b : Byte)
  /-- `CLEAR` in normal mode (42_lzw R197). -/
  | clear
  /-- `END` in normal mode (42_lzw R198). -/
  | endLzw
  /-- `CLEAR` in `alt_lzw` mode (42_lzw R192, R197). -/
  | clearAlt
  /-- `END` in `alt_lzw` mode (42_lzw R192, R198). -/
  | endLzwAlt
  /-- `REF` (42_lzw R195): the code of a learned entry. -/
  | ref (c : Code)
  /-- `KWKWK` (42_lzw R196): the code equal to `dictsize`. -/
  | kwkwk (c : Code)
  /-- `ILLEGAL` (42_lzw R199). -/
  | illegal (c : Code)
  /-- `LITSYM` (43_huffman_rle R235): the symbol's low byte. -/
  | litsym (b : Byte)
  /-- `RUN` (43_huffman_rle R236): the symbol's high part and the run count. -/
  | run (h : BitVec 7) (n : Byte)
  /-- `RUN8` (43_huffman_rle R237): the symbol's high part and the extension symbol. -/
  | run8 (h : BitVec 7) (a : Symbol)
  /-- `RUN16` (43_huffman_rle R238): the symbol's high part and the two extension symbols. -/
  | run16 (h : BitVec 7) (a b : Symbol)
  /-- `LITERAL` (44_diet R262): the raw byte. -/
  | literal (v : Byte)
  /-- `SHORT` (44_diet R264): the offset low byte. -/
  | short (lo : Byte)
  /-- `SENTINEL` (44_diet R265). -/
  | sentinel
  /-- `SHORTX` (44_diet R266): the offset low byte and the 3-bit value. -/
  | shortx (lo : Byte) (t : BitVec 3)
  /-- `LONG` (44_diet R267): the offset low byte, the offset high byte and the variable-length count. -/
  | long (lo hi : Byte) (n : Nat)
  /-- `ROUTE.DIET` (40_dispatcher R132): the size-high byte and the two size-low bytes. -/
  | routeDiet (h l0 l1 : Byte)
  /-- `ROUTE.TTF_LZW` (40_dispatcher R133, R134): byte 0 and the two size-low bytes; the type byte is `0x10`. -/
  | routeTtfLzw (b0 l0 l1 : Byte)
  /-- `ROUTE.TTF_HUFF` (40_dispatcher R133, R134): byte 0, the type byte and the two size-low bytes. -/
  | routeTtfHuff (b0 type l0 l1 : Byte)
deriving DecidableEq, Repr, Inhabited

end Sys2Proof
end

