-- ==== Sys2Proof/WellFormed.lean ====
section
/-! DEFINITION. Which instructions have an encoding, and in which decoding context: the conditions of
spec/opcode_table.json, spec/30_encoding.md R92, R95, R101 to R104. -/

namespace Sys2Proof

/-- What decoding depends on besides the stream: `CFG`, `FORMAT`, and for an LZW codeword `dictsize` and `pv`
(30_encoding R92). -/
structure Ctx where
  cfg : Cfg
  format : Format
  dictsize : BitVec 13
  pv : Bool
deriving DecidableEq, Repr, Inhabited

/-- The format whose stream holds the instruction; a container route is read while `FORMAT = NONE`. -/
def Instr.format : Instr → Format
  | .lit _ => .lzw
  | .clear => .lzw
  | .endLzw => .lzw
  | .clearAlt => .lzw
  | .endLzwAlt => .lzw
  | .ref _ => .lzw
  | .kwkwk _ => .lzw
  | .illegal _ => .lzw
  | .litsym _ => .huff
  | .run _ _ => .huff
  | .run8 _ _ => .huff
  | .run16 _ _ _ => .huff
  | .literal _ => .diet
  | .short _ => .diet
  | .sentinel => .diet
  | .shortx _ _ => .diet
  | .long _ _ _ => .diet
  | .routeDiet _ _ _ => .none
  | .routeTtfLzw _ _ _ => .none
  | .routeTtfHuff _ _ _ _ => .none

/-- Line 5 of 30_encoding R92: the code not yet in the table. -/
def Ctx.isNextCode (x : Ctx) (c : Code) : Bool :=
  decide (c.toNat = x.dictsize.toNat) && x.pv && decide (x.dictsize.toNat < dictCap)

/-- Line 4 of 30_encoding R92: a learned code. -/
def Ctx.isLearned (x : Ctx) (c : Code) : Bool :=
  decide (dictInit ≤ c.toNat ∧ c.toNat < x.dictsize.toNat)

/-- The first two header bytes, read little-endian, are `CFG.DIET_SIG` (40_dispatcher R131). -/
def Ctx.isDietSig (x : Ctx) (b0 b1 : Byte) : Bool :=
  b1 ++ b0 == x.cfg.dietSig

/-- The size bytes of a DIET header go with the signature: with fewer than two bytes before them they are themselves part
of the two bytes compared with `CFG.DIET_SIG` (30_encoding R95). -/
def Ctx.dietSizeFits (x : Ctx) (h l0 : Byte) : Bool :=
  match x.cfg.dietSkip with
  | 0 => x.isDietSig h l0
  | 1 => x.isDietSig (x.cfg.dietSig.extractLsb' 0 8) h
  | _ + 2 => true

/-- The operands are ones an encoding can carry in this context. -/
def Instr.operandsOk (x : Ctx) : Instr → Bool
  | .lit _ => true
  | .clear => !x.cfg.altLzw
  | .endLzw => !x.cfg.altLzw
  | .clearAlt => x.cfg.altLzw
  | .endLzwAlt => x.cfg.altLzw
  | .ref c => x.isLearned c
  | .kwkwk c => decide (dictInit ≤ c.toNat) && x.isNextCode c
  | .illegal c => decide (dictInit ≤ c.toNat) && !x.isLearned c && !x.isNextCode c
  | .litsym _ => true
  | .run h n => h != 0 && decide (2 ≤ n.toNat)
  | .run8 h _ => h != 0
  | .run16 h _ _ => h != 0
  | .literal _ => true
  | .short lo => lo != 0xFF
  | .sentinel => true
  | .shortx _ _ => true
  | .long _ hi n => x.cfg.longOffsetHi.leaves.contains hi && x.cfg.longCount.leaves.any (CountLeaf.covers n)
  | .routeDiet h l0 _ => x.dietSizeFits h l0
  | .routeTtfLzw b0 _ _ => !x.isDietSig b0 0x10
  | .routeTtfHuff b0 type _ _ => type != 0x10 && !x.isDietSig b0 type

/-- An instruction is well formed in a context: it belongs to the context's format and its operands have an encoding. -/
def Instr.wellFormed (x : Ctx) (i : Instr) : Bool :=
  decide (i.format = x.format) && i.operandsOk x

end Sys2Proof
end

