-- ==== Sys2Proof/Decode.lean ====
section
/-! DEFINITION. The decoder, total on any stream, and after it the encoder, both written from the encoding tables of
spec/30_encoding.md; the default instances of the parameters of 00_scope R9. -/

namespace Sys2Proof

/-! ### The parameters' default instances -/

/-- All values of a 3-bit field, first bit most significant (41_bit_readers R160). -/
def BitTree.threeBits {α : Type} (f : BitVec 3 → α) : BitTree α :=
  .bit (.bit (.bit (.leaf (f 0)) (.leaf (f 1))) (.bit (.leaf (f 2)) (.leaf (f 3))))
    (.bit (.bit (.leaf (f 4)) (.leaf (f 5))) (.bit (.leaf (f 6)) (.leaf (f 7))))

/-- The extension rounds of the default `DIET_LONG_OFFSET_HI` (44_diet R268): at most `rounds` more; a 1 bit ends them,
a 0 bit is followed by one data bit. -/
def longOffsetHiExtend : Nat → Byte → Byte → BitTree Byte
  | 0, hi, dx => .leaf (hi - dx)
  | rounds + 1, hi, dx =>
    .bit (.bit (longOffsetHiExtend rounds (hi <<< 1) (dx <<< 1))
        (longOffsetHiExtend rounds (hi <<< 1 ||| 1) (dx <<< 1)))
      (.leaf (hi - dx))

/-- The stop bit after the first data bit of the default `DIET_LONG_OFFSET_HI` (44_diet R268): 1 means no extension. -/
def longOffsetHiStop (hi : Byte) : BitTree Byte :=
  .bit (longOffsetHiExtend 3 hi 2) (.leaf hi)

/-- The default instance of `DIET_LONG_OFFSET_HI` (44_diet R268; from general knowledge, G2). -/
def longOffsetHiDefault : BitTree Byte :=
  .bit (longOffsetHiStop (0xFF <<< 1)) (longOffsetHiStop (0xFF <<< 1 ||| 1))

/-- The part of `DIET_LONG_COUNT` after four 0 bits (44_diet R269). -/
def longCountTail : BitTree CountLeaf :=
  .bit
    (.bit (BitTree.threeBits fun t => .exact (7 + t.toNat)) (.leaf (.rawPlus 15)))
    (.bit (.leaf (.exact 5)) (.leaf (.exact 6)))

/-- The unary part of `DIET_LONG_COUNT` (44_diet R269): `left` more positions, the next one worth `i`. -/
def longCountUnary : Nat → Nat → BitTree CountLeaf
  | 0, _ => longCountTail
  | left + 1, i => .bit (longCountUnary left (i + 1)) (.leaf (.exact i))

/-- The instance of `DIET_LONG_COUNT` that 44_diet R269 and 30_encoding R104 give. -/
def longCountDefault : BitTree CountLeaf := longCountUnary 4 1

/-- `CFG` with every parameter of 00_scope R9 at its default; the two that have none, `ALT_LZW` and `DIET_SIG`, at the
values the log names (log 5). -/
def Cfg.initial : Cfg where
  altLzw := false
  dietSig := 0x4CB4
  outCap := none
  dietPayloadOffset := 17
  nodeDecode := .lowBit
  rootExplicit := true
  longOffsetHi := longOffsetHiDefault
  longCount := longCountDefault

/-- The default `HUFF_NODE_DECODE` (43_huffman_rle R232, 30_encoding R98): bit 0 is the tag, bits 15:1 the payload. -/
def decodeNodeLowBit (v : BitVec 16) : HuffNode :=
  if v.getLsbD 0 then .leaf (v.extractLsb' 1 15) else .internal (v.extractLsb' 1 15).toNat

/-- The alternative of 93 G5: bit 15 is the tag, the symbol is the low 15 bits, an internal node's index is the word. -/
def decodeNodeHighBit (v : BitVec 16) : HuffNode :=
  if v.getLsbD 15 then .leaf (v.extractLsb' 0 15) else .internal v.toNat

/-- `HUFF_NODE_DECODE` (00_scope R9, log 12). -/
def NodeDecode.apply : NodeDecode → BitVec 16 → HuffNode
  | .lowBit, v => decodeNodeLowBit v
  | .highBit, v => decodeNodeHighBit v
  | .table rows, v => (rows.lookup v).getD (decodeNodeLowBit v)

/-! ### Stream items and readings -/

/-- One item of a stream in read order: a bit `b:` or a raw byte `B:` (30_encoding R102; header bytes are raw bytes), a
Huffman symbol, or an LZW codeword value. -/
inductive Item where
  | bit (b : Bool)
  | raw (v : Byte)
  | sym (s : Symbol)
  | cw (c : Code)
deriving DecidableEq, Repr

/-- How an instruction is read: what is asked of the stream next, and what follows for each answer. -/
inductive Reading where
  | done (i : Instr)
  | bit (next : Bool → Reading)
  | raw (next : Byte → Reading)
  | sym (next : Symbol → Reading)

/-- Why a list of items is no instruction. -/
inductive Reject where
  /-- The items end inside the instruction. -/
  | needsMoreItems
  /-- The next item is not of the kind the instruction needs there. -/
  | itemOfAnotherKind
deriving DecidableEq, Repr

/-- Follow a reading along a list of items; the items not used come back. -/
def Reading.parse : Reading → List Item → Except Reject (Instr × List Item)
  | .done i, items => .ok (i, items)
  | .bit next, .bit b :: items => (next b).parse items
  | .raw next, .raw v :: items => (next v).parse items
  | .sym next, .sym s :: items => (next s).parse items
  | .bit _, [] => .error .needsMoreItems
  | .raw _, [] => .error .needsMoreItems
  | .sym _, [] => .error .needsMoreItems
  | .bit _, _ :: _ => .error .itemOfAnotherKind
  | .raw _, _ :: _ => .error .itemOfAnotherKind
  | .sym _, _ :: _ => .error .itemOfAnotherKind

/-- Read a code bit by bit and go on with the leaf reached. -/
def BitTree.reading {α : Type} : BitTree α → (α → Reading) → Reading
  | .leaf a, next => next a
  | .bit zero one, next => .bit fun b => if b then one.reading next else zero.reading next

/-- `R16.BITS3` (41_bit_readers R160): three bits, the first most significant. -/
def readingBits3 (next : BitVec 3 → Reading) : Reading :=
  .bit fun a => .bit fun b => .bit fun c => next (BitVec.ofBool a ++ BitVec.ofBool b ++ BitVec.ofBool c)

/-- Fetch and discard bytes (40_dispatcher R132). -/
def skipRaw : Nat → Reading → Reading
  | 0, next => next
  | n + 1, next => .raw fun _ => skipRaw n next

/-! ### LZW codewords -/

/-- `CLEAR_CODE` (42_lzw R192). -/
def clearCode (altLzw : Bool) : Code := if altLzw then 0x101 else 0x100

/-- `END_CODE` (42_lzw R192). -/
def endCode (altLzw : Bool) : Code := if altLzw then 0x100 else 0x101

/-- The LZW opcode map, 30_encoding R92: the first matching line selects the instruction. -/
def decodeLzw (x : Ctx) (cw : Code) : Instr :=
  if cw = endCode x.cfg.altLzw then (if x.cfg.altLzw then .endLzwAlt else .endLzw)
  else if cw = clearCode x.cfg.altLzw then (if x.cfg.altLzw then .clearAlt else .clear)
  else if cw.toNat ≤ 0xFF then .lit (cw.setWidth 8)
  else if x.isLearned cw then .ref cw
  else if x.isNextCode cw then .kwkwk cw
  else .illegal cw

/-! ### Huffman symbols -/

/-- The field `hi` of a symbol, bits 14:8 (30_encoding R99). -/
def symHi (s : Symbol) : BitVec 7 := s.extractLsb' 8 7

/-- The field `lo` of a symbol, bits 7:0 (30_encoding R99). -/
def symLo (s : Symbol) : Byte := s.extractLsb' 0 8

/-- The Huffman+RLE opcode map, 30_encoding R101, on a decoded symbol. -/
def huffReading (s : Symbol) : Reading :=
  if symHi s = 0 then .done (.litsym (symLo s))
  else if symLo s = 0 then .sym fun a => .done (.run8 (symHi s) a)
  else if symLo s = 1 then .sym fun a => .sym fun b => .done (.run16 (symHi s) a b)
  else .done (.run (symHi s) (symLo s))

/-! ### DIET tokens -/

/-- `DIET_LONG_COUNT` (44_diet R269): the count of a leaf, with its raw byte where it has one. A count outside the 1..270 of
00_scope R9 is passed on as it is (DESIGN CHOICE, log 14). -/
def countReading (next : Nat → Reading) : CountLeaf → Reading
  | .exact n => next n
  | .rawPlus base => .raw fun v => next (base + v.toNat)

/-- `LONG` after its selector bit (44_diet R267): the offset high byte is read before the count. -/
def longReading (cfg : Cfg) (lo : Byte) : Reading :=
  cfg.longOffsetHi.reading fun hi => cfg.longCount.reading (countReading fun n => .done (.long lo hi n))

/-- A back-reference with selector 0 (44_diet R263 to R266). -/
def shortReading (lo : Byte) : Reading :=
  .bit fun c =>
    if c then readingBits3 fun t => .done (.shortx lo t)
    else if lo = 0xFF then .done .sentinel
    else .done (.short lo)

/-- A DIET token (30_encoding R102; 44_diet R260, R262, R263). -/
def dietReading (cfg : Cfg) : Reading :=
  .bit fun b =>
    if b then .raw fun v => .done (.literal v)
    else .raw fun lo => .bit fun sel => if sel then longReading cfg lo else shortReading lo

/-! ### Container headers -/

/-- `DIET_HEADER` (40_dispatcher R132, 30_encoding R95): the bytes up to the size-high byte are discarded. -/
def dietHeaderReading (cfg : Cfg) : Reading :=
  skipRaw cfg.dietSkip (.raw fun h => .raw fun l0 => .raw fun l1 => .done (.routeDiet h l0 l1))

/-- `TTF_HEADER` (40_dispatcher R133, 30_encoding R94): type byte `0x10` selects LZW, any other Huffman+RLE. -/
def ttfHeaderReading : Reading :=
  .raw fun b0 => .raw fun type => .raw fun l0 => .raw fun l1 =>
    .done (if type = 0x10 then .routeTtfLzw b0 l0 l1 else .routeTtfHuff b0 type l0 l1)

/-- After `PEEK` (40_dispatcher R131): the header of the container the first two bytes name. -/
def headerReading (x : Ctx) (b0 b1 : Byte) : Reading :=
  if x.isDietSig b0 b1 then dietHeaderReading x.cfg else ttfHeaderReading

/-! ### The decoder -/

/-- Decode the instruction at the front of a list of items, in a context. Total: an instruction with the items left over,
or a rejection by name. -/
def decode (x : Ctx) (items : List Item) : Except Reject (Instr × List Item) :=
  match x.format, items with
  | .lzw, .cw c :: rest => .ok (decodeLzw x c, rest)
  | .huff, .sym s :: rest => (huffReading s).parse rest
  | .diet, items => (dietReading x.cfg).parse items
  | .none, .raw b0 :: .raw b1 :: rest => (headerReading x b0 b1).parse (.raw b0 :: .raw b1 :: rest)
  | .none, [.raw _] => .error .needsMoreItems
  | _, [] => .error .needsMoreItems
  | _, _ :: _ => .error .itemOfAnotherKind

/-- Follow a reading whose bits and raw bytes stand in two separate lists (the bits of the DIET words and the bytes
between them, 41_bit_readers R162). -/
def Reading.parseSplit : Reading → List Bool → List Byte → Option Instr
  | .done i, _, _ => some i
  | .bit next, b :: bits, raws => (next b).parseSplit bits raws
  | .raw next, bits, v :: raws => (next v).parseSplit bits raws
  | .bit _, [], _ => none
  | .raw _, _, [] => none
  | .sym _, _, _ => none

/-- Byte `i` of a number, byte 0 the least significant. -/
def byteOf (w i : Nat) : Byte := BitVec.ofNat 8 (w >>> (8 * i))

/-- The context of the first instruction after reset, for a stream of the given format (10_state R41). -/
def Ctx.afterReset (f : Format) : Ctx where
  cfg := Cfg.initial
  format := f
  dictsize := 0x102
  pv := false

/-- The header bytes a table word stands for: a row of 8 bits is the type byte, byte 1 of the header (the table's own
words for ROUTE.TTF_LZW: "match and mask apply to byte 1"); a longer row is the header from byte 0 on. -/
def tableHeaderBytes (nbits w : Nat) : List Byte :=
  if nbits ≤ 8 then [0, byteOf w 0, 0, 0]
  else (List.range (max ttfPayloadOffset Cfg.initial.dietHeaderLen)).map (byteOf w)

/-- How a table word is laid out as a stream (log 3): one byte is the type byte of a container header, two bytes are an
LZW codeword value (below 2^12) or a Huffman symbol (below 2^15), three bytes are a DIET bit word and a raw byte, four
bytes or more are a container header. Bits above `nbits` are 0. -/
inductive TableWord where
  | codeword (c : Code)
  | symbol (s : Symbol)
  | token (word : BitVec 16) (raw : Byte)
  | header (bytes : List Byte)
  | noInstruction

/-- The layout of a table word (log 3). -/
def tableWord (nbits w : Nat) : TableWord :=
  if nbits ≤ 8 then .header (tableHeaderBytes nbits w)
  else if nbits ≤ 16 then
    if w < 0x1000 then .codeword (BitVec.ofNat 12 w)
    else if w < 0x8000 then .symbol (BitVec.ofNat 15 w)
    else .noInstruction
  else if nbits ≤ 24 then .token (BitVec.ofNat 16 w) (byteOf w 2)
  else .header (tableHeaderBytes nbits w)

/-- The instruction the decoder reads from a table word, as the first instruction after reset (log 3). -/
def decodeTableWord (nbits w : Nat) : Option Instr :=
  match tableWord nbits w with
  | .codeword c => some (decodeLzw (Ctx.afterReset .lzw) c)
  | .symbol s => ((decode (Ctx.afterReset .huff) [.sym s, .sym 0, .sym 0]).toOption).map Prod.fst
  | .token word raw =>
    (dietReading Cfg.initial).parseSplit ((List.range 32).map word.getLsbD) [raw, 0]
  | .header bytes => ((decode (Ctx.afterReset .none) (bytes.map .raw)).toOption).map Prod.fst
  | .noInstruction => none

/-! ### The encoder -/

/-- The bits that lead to the first leaf a test accepts, and that leaf. -/
def BitTree.path {α : Type} (ok : α → Bool) : BitTree α → Option (List Bool × α)
  | .leaf a => if ok a then some ([], a) else none
  | .bit zero one =>
    match zero.path ok with
    | some (bits, a) => some (false :: bits, a)
    | none =>
      match one.path ok with
      | some (bits, a) => some (true :: bits, a)
      | none => none

/-- The bits of an offset high byte (30_encoding R103). -/
def encodeOffsetHi (cfg : Cfg) (hi : Byte) : List Item :=
  match cfg.longOffsetHi.path (· == hi) with
  | some (bits, _) => bits.map .bit
  | none => []

/-- The raw byte of a count, where its class has one (30_encoding R104). -/
def encodeCountRaw (n : Nat) : CountLeaf → List Item
  | .exact _ => []
  | .rawPlus base => [.raw (BitVec.ofNat 8 (n - base))]

/-- The bits, and perhaps the raw byte, of a long-form count (30_encoding R104). -/
def encodeCount (cfg : Cfg) (n : Nat) : List Item :=
  match cfg.longCount.path (CountLeaf.covers n) with
  | some (bits, leaf) => bits.map .bit ++ encodeCountRaw n leaf
  | none => []

/-- The items of an instruction, from the encoding tables of spec/30_encoding.md. Header bytes the decoder ignores are
written as 0, but for the signature. -/
def encode (x : Ctx) : Instr → List Item
  | .lit b => [.cw (b.setWidth 12)]
  | .clear => [.cw 0x100]
  | .endLzw => [.cw 0x101]
  | .clearAlt => [.cw 0x101]
  | .endLzwAlt => [.cw 0x100]
  | .ref c => [.cw c]
  | .kwkwk c => [.cw c]
  | .illegal c => [.cw c]
  | .litsym b => [.sym ((0 : BitVec 7) ++ b)]
  | .run h n => [.sym (h ++ n)]
  | .run8 h a => [.sym (h ++ (0 : Byte)), .sym a]
  | .run16 h a b => [.sym (h ++ (1 : Byte)), .sym a, .sym b]
  | .literal v => [.bit true, .raw v]
  | .short lo => [.bit false, .raw lo, .bit false, .bit false]
  | .sentinel => [.bit false, .raw 0xFF, .bit false, .bit false]
  | .shortx lo t =>
    [.bit false, .raw lo, .bit false, .bit true, .bit (t.getLsbD 2), .bit (t.getLsbD 1), .bit (t.getLsbD 0)]
  | .long lo hi n => [.bit false, .raw lo, .bit true] ++ encodeOffsetHi x.cfg hi ++ encodeCount x.cfg n
  | .routeDiet h l0 l1 =>
    ((x.cfg.dietSig.extractLsb' 0 8 :: x.cfg.dietSig.extractLsb' 8 8 :: List.replicate x.cfg.dietSkip 0).take
      x.cfg.dietSkip ++ [h, l0, l1]).map .raw
  | .routeTtfLzw b0 l0 l1 => [.raw b0, .raw 0x10, .raw l0, .raw l1]
  | .routeTtfHuff b0 type l0 l1 => [.raw b0, .raw type, .raw l0, .raw l1]

end Sys2Proof
end

