-- ==== Sys2Proof/Machine/State.lean ====
section
/-! DEFINITION. The state of PRE2-DEC as plain data: every register and memory of 10_state R21, the host's registers and
input of 10_state R22, R25, and the reasons a step can stop. -/

namespace Sys2Proof.Machine

/-- A byte space (`IN`, `OUT`): the listed (address, byte) pairs; an unlisted address reads `Memory.blank`. Canonical
form: addresses strictly rising, no pair that holds `Memory.blank` (log 7). -/
abbrev Memory := List Host.Cell

/-- The learned dictionary entries as (code, string) pairs, codes strictly rising (10_state R31, log 8). -/
abbrev Dict := List (Nat × List Byte)

/-- `SRC` (00_scope R6): absent, or the byte sequence `IN[0 .. len-1]`. -/
inductive Source where
  | absent
  | bytes (mem : Memory) (len : Nat)
deriving DecidableEq, Repr, Inhabited

/-- What a call starts (00_scope R6): `decode`, or one of the three sub-operations with its `start` and
`PAYLOAD_SIZE` (log 17). -/
inductive Entry where
  | decode
  | lzwDecode (start : Nat) (size : BitVec 21)
  | huffDecode (start : Nat) (size : BitVec 21)
  | dietDecode (start : Nat) (size : BitVec 21)
deriving DecidableEq, Repr, Inhabited

/-- One call as the host presents it: `CFG`, `SRC` and what to start (00_scope R8, 70_reset R342). -/
structure Call where
  cfg : Cfg
  src : Source
  entry : Entry
deriving DecidableEq, Repr, Inhabited

/-- `STATUS.STATE` (10_state R24). -/
inductive Phase where
  | idle
  | run
  | done
  | err
deriving DecidableEq, Repr, Inhabited

/-- The error kinds of 60_exceptions R300. -/
inductive ErrKind where
  | cannotOpenSource
  | malformedDictionaryReference
  | truncatedStream
  | malformedBackreference
  | malformedTree
  | outputOverflow
deriving DecidableEq, Repr, Inhabited

/-- Why the machine stops. An error kind of the spec is no fault here: its abort is a next state (60_exceptions R310).
These are accesses the spec says do not happen; no step from a state a call reaches raises one (log 9). All are safe. -/
inductive Fault where
  /-- Raised by the LZW meanings and `APPEND`: a read of an absent dictionary slot (20_memory R63 names the only reads).
  Safe. -/
  | absentDictEntry
  /-- Raised by the DIET meanings: a write outside the pre-sized buffer (20_memory R62). Safe. -/
  | outAddress
  /-- Raised by `HUFF.NODE`: an index below `nnodes` with no stored word (10_state R34 holds exactly `nnodes`). Safe. -/
  | absentNode
deriving DecidableEq, Repr, Inhabited

/-- Why a step has no meaning. -/
inductive Refusal where
  /-- An instruction that has no meaning yet, by its mnemonic. Raised by no arm of this model. Safe. -/
  | notModelled (mnemonic : String)
deriving DecidableEq, Repr, Inhabited

/-- The state of the block: the registers and memories of 10_state R21, then what the host holds for a call, then the
model's own counter. -/
structure State where
  /-- `FORMAT` (10_state R23). -/
  format : Format
  /-- `PAYLOAD_SIZE` (10_state R23). -/
  payloadSize : BitVec 21
  /-- `STATUS.STATE` (10_state R24). -/
  stState : Phase
  /-- `STATUS.ERR` (10_state R24). -/
  stErr : BitVec 3
  /-- Index in `IN` of the next byte not yet fetched (10_state R25). -/
  ipos : Nat
  /-- `R24`: the codeword window (10_state R26). -/
  buf : BitVec 24
  /-- `R24`: vacated low bits of `buf` not yet refilled (10_state R26). -/
  missing : BitVec 5
  /-- `R24`: real bits in `buf`, from bit 23 down (10_state R26). -/
  navail : BitVec 5
  /-- LZW: the current codeword width (10_state R28). -/
  nbit : BitVec 4
  /-- LZW: the next code to be assigned (10_state R29). -/
  dictsize : BitVec 13
  /-- LZW: a previous context exists (10_state R30). -/
  pv : Bool
  /-- LZW: the code of the previous string-producing codeword (10_state R30). -/
  prev : Code
  /-- LZW: the dictionary's learned entries (10_state R31). -/
  dict : Dict
  /-- The output buffer `OUT` (10_state R32). -/
  out : Memory
  /-- LZW, Huffman: the number of bytes appended so far (10_state R32). -/
  olen : Nat
  /-- `RMSB`: the current byte, shifted left as bits are taken (10_state R33). -/
  cur : Byte
  /-- `RMSB`: bits of `cur` not yet delivered (10_state R33). -/
  bitcnt : BitVec 4
  /-- Huffman: the number of tree nodes (10_state R34). -/
  nnodes : BitVec 15
  /-- Huffman: the serialized tree (10_state R34). -/
  node : List (BitVec 16)
  /-- Huffman: the most recent literal byte (10_state R35). -/
  last : Byte
  /-- `R16`: the current word, shifted right as bits are taken (10_state R36). -/
  w : BitVec 16
  /-- `R16`: bits of `w` not yet delivered (10_state R36). -/
  cnt : BitVec 5
  /-- `R16`: how many of those bits are real (10_state R36). -/
  valid : BitVec 5
  /-- DIET: the output cursor (10_state R37). -/
  idx : BitVec 21
  /-- `CFG` (10_state R22): written only when a call starts. -/
  cfg : Cfg
  /-- `SRC`, that is `IN` and `IN_LEN` (10_state R25). -/
  src : Source
  /-- The calls the host has yet to make, the next one first (00_scope R8, log 2). -/
  pending : List Call
  /-- The model's own counter of free values drawn (log 6). -/
  draws : Nat
deriving DecidableEq, Repr, Inhabited

/-- The state right after reset: the table of 10_state R41. `CFG`, `SRC` and the model's own fields, for which the spec
gives no value, as log 2, log 5 and log 6 name them. -/
def State.reset : State where
  format := .none
  payloadSize := 0
  stState := .run
  stErr := 0
  ipos := 0
  buf := 0
  missing := 0
  navail := 0
  nbit := 9
  dictsize := 0x102
  pv := false
  prev := 0
  dict := []
  out := []
  olen := 0
  cur := 0
  bitcnt := 0
  nnodes := 0
  node := []
  last := 0x00
  w := 0
  cnt := 0
  valid := 0
  idx := 0
  cfg := Cfg.initial
  src := .absent
  pending := []
  draws := 0

/-- The result of a micro-operation: a value and a state, an error kind raised (00_scope R13), or an access that the spec
says does not happen. -/
inductive Res (α : Type) where
  | ok (a : α) (s : State)
  | raise (k : ErrKind)
  | fault (f : Fault)
deriving DecidableEq, Repr

/-- What the fetch of a step gives: an instruction to execute, with the state after its bits were taken, or the end of
the step without one. -/
inductive Fetched where
  | execute (i : Instr) (s : State)
  | ended (o : Host.Outcome State Fault Refusal)

end Sys2Proof.Machine
end

