-- ==== Sys2Proof/Machine/Flags.lean ====
section
/-! DEFINITION. The flags and predicates of 10_state R38, the status codes of 10_state R24 and 60_exceptions R300, and the
stream cursor of 10_state R27. -/

namespace Sys2Proof.Machine

/-- The numeric code of an error kind (60_exceptions R300). -/
def ErrKind.code : ErrKind → BitVec 3
  | .cannotOpenSource => 1
  | .malformedDictionaryReference => 2
  | .truncatedStream => 3
  | .malformedBackreference => 4
  | .malformedTree => 5
  | .outputOverflow => 6

/-- The numeric code of `STATUS.STATE` (10_state R24). -/
def Phase.code : Phase → BitVec 2
  | .idle => 0
  | .run => 1
  | .done => 2
  | .err => 3

/-- `IN_LEN` (10_state R25); an absent source has no bytes. -/
def Source.len : Source → Nat
  | .absent => 0
  | .bytes _ len => len

/-- `IN_LEN` of the call (10_state R25). -/
def State.inLen (s : State) : Nat := s.src.len

/-- The stream is exhausted (10_state R25, R38; log 10). -/
def State.exhausted (s : State) : Bool := decide (s.inLen ≤ s.ipos)

/-- `RMSB.EOS` (41_bit_readers R157): the current byte is used up and the stream has nothing left. -/
def State.rmsbEos (s : State) : Bool := decide (s.bitcnt = 0) && s.exhausted

/-- `at_cap` (10_state R38). -/
def State.atCap (s : State) : Bool := decide (s.dictsize.toNat = dictCap)

/-- `APPEND` happens: a previous context exists and the dictionary is below the cap (42_lzw R200). -/
def State.appends (s : State) : Bool := s.pv && decide (s.dictsize.toNat < dictCap)

/-- Bits the Huffman bit path can still deliver: those left of `cur` and those of the bytes not yet fetched. -/
def State.rmsbBitsLeft (s : State) : Nat := s.bitcnt.toNat + 8 * (s.inLen - s.ipos)

/-- Real bits the LZW reader can still deliver (41_bit_readers R154). -/
def State.r24BitsLeft (s : State) : Nat := s.navail.toNat + 8 * (s.inLen - s.ipos)

/-- Real bits of bit words and raw bytes the DIET decoder can still take (41_bit_readers R162). -/
def State.r16BitsLeft (s : State) : Nat := s.valid.toNat + 8 * (s.inLen - s.ipos)

/-- The bit cursor `cpos` of 10_state R27: payload bits consumed, counted from `IN[start]`. -/
def State.cpos (start : Nat) (s : State) : Nat := 8 * (s.ipos - start) - s.navail.toNat

/-- The decoding context of the next instruction (30_encoding R92). -/
def State.ctx (s : State) : Ctx where
  cfg := s.cfg
  format := s.format
  dictsize := s.dictsize
  pv := s.pv

end Sys2Proof.Machine
end

