-- ==== Sys2Proof/Machine/Ops.lean ====
section
/-! DEFINITION. The named operations: byte memories, the dictionary, the memory primitives of 00_scope R12, raising an
error kind (60_exceptions R310), the normal end of a call (40_dispatcher R136) and the per-call reset (70_reset R340). -/

namespace Sys2Proof.Machine

/-! ### Sparse data in canonical form -/

/-- The value listed at a key. -/
def Cells.find {β : Type} (k : Nat) : List (Nat × β) → Option β
  | [] => none
  | (a, v) :: rest => if a = k then some v else Cells.find k rest

/-- List a value at a key, the keys staying in rising order. -/
def Cells.insert {β : Type} (k : Nat) (v : β) : List (Nat × β) → List (Nat × β)
  | [] => [(k, v)]
  | (a, x) :: rest =>
    if k < a then (k, v) :: (a, x) :: rest
    else if k = a then (k, v) :: rest
    else (a, x) :: Cells.insert k v rest

/-- Take the value at a key off the list. -/
def Cells.erase {β : Type} (k : Nat) : List (Nat × β) → List (Nat × β)
  | [] => []
  | (a, x) :: rest => if a = k then rest else (a, x) :: Cells.erase k rest

/-- Keys strictly rising. -/
abbrev Cells.rising {β : Type} (m : List (Nat × β)) : Prop := m.Pairwise fun c d => c.1 < d.1

/-! ### Byte memories -/

/-- What an unlisted address reads as: `0x00`, the initial content of the pre-sized DIET buffer (44_diet R260,
log 7). -/
def Memory.blank : Byte := 0x00

/-- The byte at an address. -/
def Memory.read (a : Nat) (m : Memory) : Byte := (Cells.find a m).getD Memory.blank

/-- Write one byte, keeping the canonical form. -/
def Memory.write (a : Nat) (b : Byte) (m : Memory) : Memory :=
  if b = Memory.blank then Cells.erase a m else Cells.insert a b m

/-- The canonical form: addresses strictly rising, no listed byte equal to what an unlisted address reads as. -/
abbrev Memory.wf (m : Memory) : Prop := Cells.rising m ∧ ∀ c ∈ m, c.2 ≠ Memory.blank

/-- The memory that holds the pairs of a list, later pairs last. -/
def Memory.ofCells (cells : List (Nat × Byte)) : Memory :=
  cells.foldl (fun m c => m.write c.1 c.2) []

/-- The memory that holds a byte string from an address on. -/
def Memory.ofBytes : Nat → List Byte → Memory
  | _, [] => []
  | a, b :: rest => if b = Memory.blank then Memory.ofBytes (a + 1) rest else (a, b) :: Memory.ofBytes (a + 1) rest

/-- The first `n` bytes from an address on. -/
def Memory.take (m : Memory) : Nat → Nat → List Byte
  | _, 0 => []
  | a, n + 1 => m.read a :: m.take (a + 1) n

/-- A source that holds a byte string (00_scope R6). -/
def Source.ofBytes (bytes : List Byte) : Source := .bytes (Memory.ofBytes 0 bytes) bytes.length

/-- The byte of a source at an index. -/
def Source.read (a : Nat) : Source → Byte
  | .absent => Memory.blank
  | .bytes mem _ => mem.read a

/-- A source whose memory is in canonical form and lists nothing at or above its length. -/
def Source.wf : Source → Bool
  | .absent => true
  | .bytes mem len => decide (mem.wf ∧ ∀ c ∈ mem, c.1 < len)

/-! ### The dictionary -/

/-- `dict[c]` (10_state R31): the singleton `<c>` below 256, a learned entry, or absent. -/
def Dict.read (c : Nat) (d : Dict) : Option (List Byte) :=
  if c < 256 then some [BitVec.ofNat 8 c] else Cells.find c d

/-- `dict[c] <- str`; the singletons are never modified (10_state R31). -/
def Dict.write (c : Nat) (str : List Byte) (d : Dict) : Dict :=
  if c < 256 then d else Cells.insert c str d

/-- The canonical form: codes strictly rising, no singleton listed. -/
abbrev Dict.wf (d : Dict) : Prop := Cells.rising d ∧ ∀ e ∈ d, 256 ≤ e.1

/-- The dictionary that holds the pairs of a list, later pairs last. -/
def Dict.ofEntries (entries : List (Nat × List Byte)) : Dict :=
  entries.foldl (fun d e => d.write e.1 e.2) []

/-! ### Sequencing -/

/-- Go on with the value and the state of a micro-operation. -/
def Res.bind {α β : Type} (r : Res α) (next : α → State → Res β) : Res β :=
  match r with
  | .ok a s => next a s
  | .raise k => .raise k
  | .fault f => .fault f

/-! ### Status -/

/-- Every decoder register but `FORMAT`, `PAYLOAD_SIZE` and `STATUS` takes a free value: what 93 U14 and 70_reset R341
leave open (log 4, log 6). The two sparse memories take a free content in canonical form. -/
def State.scramble (s : State) : State :=
  { s with
    ipos := Config.freeNat s.draws 0
    buf := Config.freeBits 24 s.draws 1
    missing := Config.freeBits 5 s.draws 2
    navail := Config.freeBits 5 s.draws 3
    nbit := Config.freeBits 4 s.draws 4
    dictsize := Config.freeBits 13 s.draws 5
    pv := Config.freeBool s.draws 6
    prev := Config.freeBits 12 s.draws 7
    dict := Dict.ofEntries (Config.freeStrings s.draws)
    out := Memory.ofCells (Config.freeCells s.draws)
    olen := Config.freeNat s.draws 8
    cur := Config.freeBits 8 s.draws 9
    bitcnt := Config.freeBits 4 s.draws 10
    nnodes := Config.freeBits 15 s.draws 11
    node := Config.freeWords s.draws
    last := Config.freeBits 8 s.draws 12
    w := Config.freeBits 16 s.draws 13
    cnt := Config.freeBits 5 s.draws 14
    valid := Config.freeBits 5 s.draws 15
    idx := Config.freeBits 21 s.draws 16
    draws := s.draws + 1 }

/-- `raise K`, the abort of 60_exceptions R310: `STATUS` becomes (ERR, code of K) and nothing else of the call is
observable. `FORMAT` and `PAYLOAD_SIZE` can still be read (10_state R23); there is no handler and no return (R311). -/
def State.abort (k : ErrKind) (s : State) : State :=
  { s.scramble with stState := .err, stErr := k.code }

/-- `FINISH` (40_dispatcher R136): the normal end of a call. -/
def State.finish (s : State) : State := { s with stState := .done, stErr := 0 }

/-- `SRC` before the host presents it: free (log 4). -/
def Source.free (draws : Nat) : Source :=
  match Config.freeInput draws with
  | none => .absent
  | some content => .ofBytes content

/-- The state at power-on (70_reset R341): `STATUS` is (IDLE, 0); every other register of the block is free, `CFG` and `SRC`
before the host's first write among them (10_state R22, log 4). The calls the host will make are an argument (log 2). -/
def State.powerOn (calls : List Call) (draws : Nat) : State :=
  { ({ State.reset with draws := draws } : State).scramble with
    format := Config.freeFormat draws 18
    payloadSize := Config.freeBits 21 draws 17
    stState := .idle
    stErr := 0
    cfg := Config.freeCfg draws
    src := Source.free draws
    pending := calls }

/-- The end of a step: an error kind aborts the call that runs in `s`. -/
def Res.outcome (s : State) : Res Unit → Host.Outcome State Fault Refusal
  | .ok _ s' => .next s'
  | .raise k => .next (s.abort k)
  | .fault f => .fault f

/-- Reset at the start of a call (70_reset R340): the table of 10_state R41, whatever was there before; the call's `CFG`
and `SRC` are in place. -/
def State.resetForCall (c : Call) (rest : List Call) (s : State) : State :=
  { State.reset with
    cfg := c.cfg
    src := c.src
    pending := rest
    draws := s.draws }

/-! ### The memory primitives of 00_scope R12 -/

/-- The byte `IN[i]`. -/
def State.inByte (i : Nat) (s : State) : Byte := s.src.read i

/-- `InRead()`: the byte at `ipos`, which then advances; nothing when the stream is exhausted (20_memory R61). -/
def State.inRead (s : State) : Option (Byte × State) :=
  if s.exhausted then none else some (s.inByte s.ipos, { s with ipos := s.ipos + 1 })

/-- `InRead()` for a required field: an exhausted stream is `TruncatedStream` (60_exceptions R303). -/
def State.inReadRequired (s : State) : Res Byte :=
  match s.inRead with
  | some (b, s') => .ok b s'
  | none => .raise .truncatedStream

/-- The capacity of `OUT` is reached (20_memory R62). -/
def State.outFull (s : State) : Bool := decide (s.cfg.outCap = some s.olen)

/-- `OutAppend(b)` (00_scope R12, 20_memory R62). -/
def State.outAppend (b : Byte) (s : State) : Res Unit :=
  if s.outFull then .raise .outputOverflow
  else .ok () { s with out := s.out.write s.olen b, olen := s.olen + 1 }

/-- `EMIT(s)` (42_lzw R201): append the bytes of a string, first to last. -/
def State.emit : List Byte → State → Res Unit
  | [], s => .ok () s
  | b :: rest, s => (s.outAppend b).bind fun _ s' => s'.emit rest

/-- Append one byte a number of times (43_huffman_rle R236 to R238). -/
def State.appendRun (b : Byte) : Nat → State → Res Unit
  | 0, s => .ok () s
  | n + 1, s => (s.outAppend b).bind fun _ s' => s'.appendRun b n

/-- `OutRead(i)` (00_scope R12; DIET only). -/
def State.outRead (i : Nat) (s : State) : Byte := s.out.read i

/-- `OutWrite(i, b)` (00_scope R12; DIET only): the pre-sized buffer has `PAYLOAD_SIZE` bytes (20_memory R62, log 9). -/
def State.outWrite (i : Nat) (b : Byte) (s : State) : Res Unit :=
  if i < s.payloadSize.toNat then .ok () { s with out := s.out.write i b } else .fault .outAddress

/-- `dict[c]` for a read the rules make: an absent slot is none (20_memory R63, log 9). -/
def State.dictRead (c : Nat) (s : State) : Res (List Byte) :=
  match s.dict.read c with
  | some str => .ok str s
  | none => .fault .absentDictEntry

/-! ### The result of a call -/

/-- The number of bytes of the result (40_dispatcher R136): `PAYLOAD_SIZE` for DIET, else the bytes appended. -/
def State.resultLen (s : State) : Nat :=
  match s.format with
  | .diet => s.payloadSize.toNat
  | _ => s.olen

/-- The result of an ended call (00_scope R6): `Ok(bytes)` as a list, an error code, or nothing while no call has
ended. -/
def State.result (s : State) : Option (Except (BitVec 3) (List Byte)) :=
  match s.stState with
  | .done => some (.ok (s.out.take 0 s.resultLen))
  | .err => some (.error s.stErr)
  | .idle => none
  | .run => none

end Sys2Proof.Machine
end

