-- ==== Sys2Proof/Machine/Operands.lean ====
section
/-! DEFINITION. Operand forms: payload sizes (30_encoding R96), Huffman run counts (R101), DIET offsets and repeat counts
(R103, R104). -/

namespace Sys2Proof.Machine

/-- Assemble a payload size: the top bits above 16 little-endian low bits (30_encoding R96). -/
def sizeOf16 (high : BitVec 5) (l0 l1 : Byte) : BitVec 21 :=
  (high.setWidth 21 <<< 16) ||| (l1.setWidth 21 <<< 8) ||| l0.setWidth 21

/-- TTF: the low nibble of byte 0 is the top of the size (30_encoding R94, R96). -/
def ttfPayloadSize (b0 l0 l1 : Byte) : BitVec 21 := sizeOf16 ((b0.extractLsb' 0 4).setWidth 5) l0 l1

/-- DIET: bits 6:2 of the size-high byte are the top of the size (30_encoding R95, R96). -/
def dietPayloadSize (h l0 l1 : Byte) : BitVec 21 := sizeOf16 (h.extractLsb' 2 5) l0 l1

/-- A 16-bit little-endian field (20_memory R65). -/
def word16 (l h : Byte) : BitVec 16 := l.setWidth 16 ||| (h.setWidth 16 <<< 8)

/-- The count of `RUN` (43_huffman_rle R236): the low byte of its own symbol. -/
def runCount (lo : Byte) : Nat := lo.toNat

/-- The count of `RUN8` (43_huffman_rle R237): the low byte of the extension symbol. -/
def run8Count (a : Symbol) : Nat := (symLo a).toNat

/-- The count of `RUN16` (43_huffman_rle R238): the first extension symbol gives the high byte. -/
def run16Count (a b : Symbol) : Nat := (symLo a).toNat * 256 + (symLo b).toNat

/-- `sext_16` (00_scope R10): two's complement reading of 16 bits. -/
def sext16 (v : BitVec 16) : Int := if v.toNat < 0x8000 then (v.toNat : Int) else (v.toNat : Int) - 0x10000

/-- The signed offset from its high and low byte (30_encoding R103). -/
def dietOffset (hi lo : Byte) : Int := sext16 ((hi.setWidth 16 <<< 8) ||| lo.setWidth 16)

/-- The offset high byte of `SHORTX` (44_diet R266). -/
def shortxHi (t : BitVec 3) : Byte := ((0xF8 : Byte) ||| t.setWidth 8) - 1

/-- The repeat count of `SHORT` and `SHORTX` (44_diet R264, R266). -/
def shortRepeat : Nat := 2

/-- The repeat count of `LONG` (44_diet R267). -/
def longRepeat (n : Nat) : Nat := 2 + n

end Sys2Proof.Machine
end

