-- ==== Sys2Proof/Machine/Readers.lean ====
section
/-! DEFINITION. The three bit and word readers (spec/41_bit_readers.md). -/

namespace Sys2Proof.Machine

/-! ### R24, the 24-bit codeword reader -/

/-- `R24.FETCH` (41_bit_readers R152): the next stream byte, or a pad byte that leaves the state as it is. -/
def State.r24Fetch (s : State) : Byte × State :=
  match s.inRead with
  | some (b, s') => (b, { s' with navail := BitVec.ofNat 5 (s'.navail.toNat + 8) })
  | none => (0x00, s)

/-- `R24.PRIME` (41_bit_readers R151). -/
def State.r24Prime (s : State) : State :=
  let f0 := ({ s with buf := 0, missing := 0, navail := 0 } : State).r24Fetch
  let f1 := f0.2.r24Fetch
  let f2 := f1.2.r24Fetch
  { f2.2 with buf := (f0.1.setWidth 24 <<< 16) ||| (f1.1.setWidth 24 <<< 8) ||| f2.1.setWidth 24 }

/-- One pass of the refill loop of `R24.GETCW` (41_bit_readers R153). -/
def State.r24RefillOne (s : State) : State :=
  let left := s.missing.toNat - 8
  let f := ({ s with missing := BitVec.ofNat 5 left } : State).r24Fetch
  { f.2 with buf := f.2.buf ||| (f.1.setWidth 24 <<< left) }

/-- The refill loop of `R24.GETCW` (41_bit_readers R153): `while missing >= 8`, with a bound on the passes. -/
def State.r24Refill : Nat → State → State
  | 0, s => s
  | passes + 1, s => if s.missing.toNat < 8 then s else s.r24RefillOne.r24Refill passes

/-- The registers of `R24.GETCW(n)` after the codeword is taken, before the refill (41_bit_readers R153). -/
def State.r24Take (n : Nat) (s : State) : State :=
  { s with
    buf := s.buf <<< n
    missing := BitVec.ofNat 5 (s.missing.toNat + n)
    navail := BitVec.ofNat 5 (s.navail.toNat - n) }

/-- The top `n` bits of the window, zero-extended (41_bit_readers R153, 30_encoding R91). -/
def State.r24Top (n : Nat) (s : State) : Code := (s.buf >>> (24 - n)).setWidth 12

/-- `R24.GETCW(n)` (41_bit_readers R153). A 5-bit `missing` allows three passes of the refill at most. -/
def State.r24GetCw (n : Nat) (s : State) : Res Code :=
  if s.navail.toNat < n then .raise .truncatedStream
  else .ok (s.r24Top n) ((s.r24Take n).r24Refill 3)

/-! ### RMSB, the MSB-first single-bit reader -/

/-- Take the next bit of `cur` (41_bit_readers R156). -/
def State.rmsbTake (s : State) : Res Bool :=
  .ok (s.cur.getLsbD 7) { s with cur := s.cur <<< 1, bitcnt := s.bitcnt - 1 }

/-- `RMSB.BIT` (41_bit_readers R156): the refill is lazy. -/
def State.rmsbBit (s : State) : Res Bool :=
  if s.bitcnt = 0 then
    s.inReadRequired.bind fun b s' => ({ s' with cur := b, bitcnt := 8 } : State).rmsbTake
  else s.rmsbTake

/-! ### R16, the 16-bit little-endian bit reader -/

/-- `R16.FILL` (41_bit_readers R158): missing bytes are pad bits. -/
def State.r16Fill (s : State) : State :=
  match s.inRead with
  | none => { s with w := 0, valid := 0, cnt := 16 }
  | some (l, s1) =>
    match s1.inRead with
    | none => { s1 with w := l.setWidth 16, valid := 8, cnt := 16 }
    | some (h, s2) => { s2 with w := word16 l h, valid := 16, cnt := 16 }

/-- `R16.PRIME` (41_bit_readers R158). -/
def State.r16Prime (s : State) : State := s.r16Fill

/-- The registers of `R16.BIT` after the bit is taken, before the eager refill (41_bit_readers R159). -/
def State.r16Take (s : State) : State :=
  { s with w := s.w >>> 1, cnt := s.cnt - 1, valid := s.valid - 1 }

/-- `R16.BIT` (41_bit_readers R159): the next word is fetched when the 16th bit is delivered. -/
def State.r16Bit (s : State) : Res Bool :=
  if s.valid = 0 then .raise .truncatedStream
  else .ok (s.w.getLsbD 0) (if s.r16Take.cnt = 0 then s.r16Take.r16Fill else s.r16Take)

/-- `R16.RAW` (41_bit_readers R161): one raw byte, past the bit buffer. -/
def State.r16Raw (s : State) : Res Byte := s.inReadRequired

end Sys2Proof.Machine
end

