-- ==== Sys2Proof/Machine/Diet.lean ====
section
/-! DEFINITION. The DIET decoder (spec/44_diet.md): initialisation, the copy unit, and the meanings of its tokens. -/

namespace Sys2Proof.Machine

/-- `DIET.INIT` and `R16.PRIME` (44_diet R260): `PAYLOAD_SIZE` bytes of `0x00`, that is no listed cell (log 7). -/
def State.dietInit (s : State) : State :=
  ({ s with out := [], idx := 0 } : State).r16Prime

/-- `OutWrite(idx, b)`, then `idx` advances (44_diet R262, R270). -/
def State.dietPut (b : Byte) (s : State) : Res Unit :=
  (s.outWrite s.idx.toNat b).bind fun _ s' => .ok () { s' with idx := s'.idx + 1 }

/-- The loop of `DIET.COPY` (44_diet R270): each byte is read after the one before it was written, and the copy stops at
`PAYLOAD_SIZE`. -/
def State.dietCopyLoop : Nat → Nat → State → Res Unit
  | 0, _, s => .ok () s
  | count + 1, src, s =>
    if s.idx = s.payloadSize then .ok () s
    else (s.dietPut (s.outRead src)).bind fun _ s' => s'.dietCopyLoop count (src + 1)

/-- `DIET.COPY(offset, count)` (44_diet R270): integer arithmetic, the source index checked before the first byte. -/
def State.dietCopy (offset : Int) (count : Nat) (s : State) : Res Unit :=
  let src : Int := s.idx.toNat + offset
  if src < 0 ∨ (s.idx.toNat : Int) ≤ src then .raise .malformedBackreference
  else s.dietCopyLoop count src.toNat

/-- `LITERAL` (44_diet R262). -/
def execLiteral (v : Byte) (s : State) : Host.Outcome State Fault Refusal :=
  (s.dietPut v).outcome s

/-- `SHORT` (44_diet R264): offset high byte `0xFF`. -/
def execShort (lo : Byte) (s : State) : Host.Outcome State Fault Refusal :=
  (s.dietCopy (dietOffset 0xFF lo) shortRepeat).outcome s

/-- `SENTINEL` (44_diet R265). -/
def execSentinel (s : State) : Host.Outcome State Fault Refusal := .next s.finish

/-- `SHORTX` (44_diet R266). -/
def execShortx (lo : Byte) (t : BitVec 3) (s : State) : Host.Outcome State Fault Refusal :=
  (s.dietCopy (dietOffset (shortxHi t) lo) shortRepeat).outcome s

/-- `LONG` (44_diet R267). For a count outside the 1..270 of 00_scope R9 the spec says nothing; the model copies `2 + n` bytes
there too, cut at `PAYLOAD_SIZE` as ever (DESIGN CHOICE, log 14). -/
def execLong (lo hi : Byte) (n : Nat) (s : State) : Host.Outcome State Fault Refusal :=
  (s.dietCopy (dietOffset hi lo) (longRepeat n)).outcome s

end Sys2Proof.Machine
end

