-- ==== Sys2Proof/Machine/Huffman.lean ====
section
/-! DEFINITION. The Huffman+RLE decoder (spec/43_huffman_rle.md): the tree, the traversal, and the meanings of its
symbols. -/

namespace Sys2Proof.Machine

/-- `HUFF.INIT` (43_huffman_rle R230). -/
def State.huffInit (s : State) : State :=
  { s with out := [], olen := 0, last := 0x00, cur := 0, bitcnt := 0 }

/-- Read a 16-bit little-endian field (43_huffman_rle R231). -/
def State.inRead16 (s : State) : Res (BitVec 16) :=
  s.inReadRequired.bind fun l s1 => s1.inReadRequired.bind fun h s2 => .ok (word16 l h) s2

/-- Read the node words in index order (43_huffman_rle R231). -/
def State.readNodes : Nat → State → Res Unit
  | 0, s => .ok () s
  | n + 1, s => s.inRead16.bind fun v s' => ({ s' with node := s'.node ++ [v] } : State).readNodes n

/-- `HUFF.PARSE_TREE` after the byte count (43_huffman_rle R231). -/
def State.parseNodes (tcount : BitVec 16) (s : State) : Res Unit :=
  let n := tcount.toNat / 2
  if s.inLen - s.ipos < 2 * n then .raise .truncatedStream
  else ({ s with nnodes := BitVec.ofNat 15 n, node := [] } : State).readNodes n

/-- `HUFF.PARSE_TREE` (43_huffman_rle R231). -/
def State.parseTree (s : State) : Res Unit :=
  if s.inLen - s.ipos < 2 then .raise .truncatedStream
  else s.inRead16.bind fun tcount s' => s'.parseNodes tcount

/-- `HUFF.NODE(i)` (43_huffman_rle R232). -/
def State.huffNode (i : Nat) (s : State) : Res HuffNode :=
  if s.nnodes.toNat ≤ i then .raise .malformedTree
  else
    match s.node[i]? with
    | some v => .ok (s.cfg.nodeDecode.apply v) s
    | none => .fault .absentNode

/-- The traversal loop of `HUFF.SYM` (43_huffman_rle R233). `none` is `EOS`. The first argument bounds the passes: each
takes one bit, so `rmsbBitsLeft` passes are enough. -/
def State.huffWalk : Nat → Nat → State → Res (Option Symbol)
  | 0, _, s => .ok none s
  | passes + 1, index, s =>
    if s.rmsbEos then .ok none s
    else
      s.rmsbBit.bind fun b s1 =>
        (s1.huffNode (index + b.toNat)).bind fun n s2 =>
          match n with
          | .leaf sym => .ok (some sym) s2
          | .internal next => s2.huffWalk passes next

/-- The index the first bit selects from (43_huffman_rle R233). -/
def State.huffRoot (s : State) : Res Nat :=
  if s.cfg.rootExplicit then
    (s.huffNode 0).bind fun r s' =>
      match r with
      | .leaf _ => .raise .malformedTree
      | .internal index => .ok index s'
  else .ok 0 s

/-- `HUFF.SYM` (43_huffman_rle R233). `none` is `EOS`. -/
def State.huffSym (s : State) : Res (Option Symbol) :=
  if s.rmsbEos then .ok none s
  else s.huffRoot.bind fun index s' => s'.huffWalk s'.rmsbBitsLeft index

/-- `HUFF.SYMX` (43_huffman_rle R234): a symbol that must exist. -/
def State.huffSymX (s : State) : Res Symbol :=
  s.huffSym.bind fun r s' =>
    match r with
    | some sym => .ok sym s'
    | none => .raise .truncatedStream

/-- `LITSYM` (43_huffman_rle R235). -/
def execLitsym (b : Byte) (s : State) : Host.Outcome State Fault Refusal :=
  ((s.outAppend b).bind fun _ s' => .ok () { s' with last := b }).outcome s

/-- `RUN` (43_huffman_rle R236). -/
def execRun (_h : BitVec 7) (n : Byte) (s : State) : Host.Outcome State Fault Refusal :=
  (s.appendRun s.last (runCount n)).outcome s

/-- `RUN8` (43_huffman_rle R237). -/
def execRun8 (_h : BitVec 7) (a : Symbol) (s : State) : Host.Outcome State Fault Refusal :=
  (s.appendRun s.last (run8Count a)).outcome s

/-- `RUN16` (43_huffman_rle R238). -/
def execRun16 (_h : BitVec 7) (a b : Symbol) (s : State) : Host.Outcome State Fault Refusal :=
  (s.appendRun s.last (run16Count a b)).outcome s

end Sys2Proof.Machine
end

