-- ==== Sys2Proof/Machine/Lzw.lean ====
section
/-! DEFINITION. The LZW decoder (spec/42_lzw.md): initialisation, the common tail, and the meanings of its codewords. -/

namespace Sys2Proof.Machine

/-- `LZW.INIT` (42_lzw R191). -/
def State.lzwInit (s : State) : State :=
  ({ s with
    dict := []
    dictsize := BitVec.ofNat 13 dictInit
    nbit := BitVec.ofNat 4 nbitMin
    pv := false
    prev := 0
    out := []
    olen := 0 } : State).r24Prime

/-- `WIDTH` of `LZW.TAIL` (42_lzw R200). -/
def State.lzwWiden (s : State) : State :=
  if s.dictsize.toNat = 2 ^ s.nbit.toNat ∧ s.nbit.toNat < nbitMax then
    { s with nbit := BitVec.ofNat 4 (s.nbit.toNat + 1) }
  else s

/-- The new entry of `APPEND` at code `dictsize` (42_lzw R200). -/
def State.lzwLearn (str : List Byte) (s : State) : State :=
  { s with
    dict := s.dict.write s.dictsize.toNat str
    dictsize := BitVec.ofNat 13 (s.dictsize.toNat + 1) }

/-- `APPEND` with `WIDTH` (42_lzw R200): the previous string and the first byte of the current one. -/
def State.lzwAppend (str : List Byte) (s : State) : Res Unit :=
  if s.appends then
    (s.dictRead s.prev.toNat).bind fun p s' => .ok () (s'.lzwLearn (p ++ str.take 1)).lzwWiden
  else .ok () s

/-- `LZW.TAIL(s, cw)` (42_lzw R200). -/
def State.lzwTail (str : List Byte) (cw : Code) (s : State) : Res Unit :=
  (s.lzwAppend str).bind fun _ s1 =>
    (s1.emit str).bind fun _ s2 => .ok () { s2 with prev := cw, pv := true }

/-- A codeword that names an existing dictionary entry (42_lzw R194, R195). -/
def State.lzwEntry (c : Code) (s : State) : Res Unit :=
  (s.dictRead c.toNat).bind fun str s' => s'.lzwTail str c

/-- The registers of `CLEAR` (42_lzw R197). -/
def State.lzwClear (s : State) : State :=
  { s with
    dict := []
    dictsize := BitVec.ofNat 13 dictInit
    nbit := BitVec.ofNat 4 nbitMin
    pv := false }

/-- `LIT` (42_lzw R194). -/
def execLit (b : Byte) (s : State) : Host.Outcome State Fault Refusal :=
  (s.lzwEntry (b.setWidth 12)).outcome s

/-- `REF` (42_lzw R195). -/
def execRef (c : Code) (s : State) : Host.Outcome State Fault Refusal :=
  (s.lzwEntry c).outcome s

/-- `KWKWK` (42_lzw R196): the previous string and its own first byte. -/
def execKwkwk (c : Code) (s : State) : Host.Outcome State Fault Refusal :=
  ((s.dictRead s.prev.toNat).bind fun p s' => s'.lzwTail (p ++ p.take 1) c).outcome s

/-- `CLEAR`, normal mode (42_lzw R197). -/
def execClear (s : State) : Host.Outcome State Fault Refusal := .next s.lzwClear

/-- `CLEAR`, `alt_lzw` mode (42_lzw R192, R197). -/
def execClearAlt (s : State) : Host.Outcome State Fault Refusal := .next s.lzwClear

/-- `END`, normal mode (42_lzw R198). -/
def execEndLzw (s : State) : Host.Outcome State Fault Refusal := .next s.finish

/-- `END`, `alt_lzw` mode (42_lzw R192, R198). -/
def execEndLzwAlt (s : State) : Host.Outcome State Fault Refusal := .next s.finish

/-- `ILLEGAL` (42_lzw R199): `raise MalformedDictionaryReference`. -/
def execIllegal (_c : Code) (s : State) : Host.Outcome State Fault Refusal :=
  .next (s.abort .malformedDictionaryReference)

end Sys2Proof.Machine
end

