-- ==== Sys2Proof/Machine/Container.lean ====
section
/-! DEFINITION. The format dispatcher (spec/40_dispatcher.md): the meanings of the container routes, and the start of a
call. -/

namespace Sys2Proof.Machine

/-- The selected decoder's initialisation; it primes its own reader and the other two stay at reset (40_dispatcher R134,
42_lzw R190, 43_huffman_rle R230, 44_diet R260). -/
def State.initDecoder (s : State) : Res Unit :=
  match s.format with
  | .lzw => .ok () s.lzwInit
  | .huff => s.huffInit.parseTree
  | .diet => .ok () s.dietInit
  | .none => .ok () s

/-- `DISPATCH` (40_dispatcher R134, R135): a zero size ends the call before any reader is primed. -/
def State.dispatch (s : State) : Res Unit :=
  if s.payloadSize = 0 then .ok () s.finish else s.initDecoder

/-- `PAYLOAD_SIZE` and `FORMAT` as the header parse leaves them (40_dispatcher R132, R133). -/
def State.setFormat (f : Format) (size : BitVec 21) (s : State) : State :=
  { s with format := f, payloadSize := size }

/-- Set `PAYLOAD_SIZE` and `FORMAT`, then `DISPATCH`. -/
def State.route (f : Format) (size : BitVec 21) (s : State) : Host.Outcome State Fault Refusal :=
  (s.setFormat f size).dispatch.outcome (s.setFormat f size)

/-- `ROUTE.DIET` (40_dispatcher R132, R134). -/
def execRouteDiet (h l0 l1 : Byte) (s : State) : Host.Outcome State Fault Refusal :=
  s.route .diet (dietPayloadSize h l0 l1)

/-- `ROUTE.TTF_LZW` (40_dispatcher R133, R134). -/
def execRouteTtfLzw (b0 l0 l1 : Byte) (s : State) : Host.Outcome State Fault Refusal :=
  s.route .lzw (ttfPayloadSize b0 l0 l1)

/-- `ROUTE.TTF_HUFF` (40_dispatcher R133, R134). -/
def execRouteTtfHuff (b0 _type l0 l1 : Byte) (s : State) : Host.Outcome State Fault Refusal :=
  s.route .huff (ttfPayloadSize b0 l0 l1)

/-- A sub-operation of 00_scope R6: the decoder is entered directly, at the first payload byte `start`. What an absent
source, a `start` beyond the source and a zero size do here is the model's choice (DESIGN CHOICE, log 17). -/
def State.enterDecoder (f : Format) (start : Nat) (size : BitVec 21) (s : State) :
    Host.Outcome State Fault Refusal :=
  let s' : State := { s.setFormat f size with ipos := min start s.inLen }
  if s.src = .absent then .next (s.abort .cannotOpenSource) else s'.initDecoder.outcome s'

/-- `START` (40_dispatcher R130): reset, `STATUS.STATE <- RUN`. The source check, `PEEK` and the header parse of a
`decode` call are the next step (log 1); a sub-operation enters its decoder at once. -/
def State.startCall (c : Call) (rest : List Call) (s : State) : Host.Outcome State Fault Refusal :=
  match c.entry with
  | .decode => .next (s.resetForCall c rest)
  | .lzwDecode start size => (s.resetForCall c rest).enterDecoder .lzw start size
  | .huffDecode start size => (s.resetForCall c rest).enterDecoder .huff start size
  | .dietDecode start size => (s.resetForCall c rest).enterDecoder .diet start size

end Sys2Proof.Machine
end

