-- ==== Sys2Proof/Machine/Fetch.lean ====
section
/-! DEFINITION. Fetching an instruction: the readers drive the decoder of Sys2Proof/Decode.lean, one loop pass of 42_lzw
R190, 43_huffman_rle R230, 44_diet R260 or the prologue of 40_dispatcher R130, R131; and where a table word is placed. -/

namespace Sys2Proof.Machine

/-- Follow a reading with the readers of the machine: a bit is `R16.BIT`, a raw byte `R16.RAW` (for header bytes
`InRead()`), a symbol `HUFF.SYMX`. -/
def State.follow : Reading → State → Res Instr
  | .done i, s => .ok i s
  | .bit next, s => s.r16Bit.bind fun b s' => s'.follow (next b)
  | .raw next, s => s.r16Raw.bind fun v s' => s'.follow (next v)
  | .sym next, s => s.huffSymX.bind fun a s' => s'.follow (next a)

/-- What a fetch gives: the instruction with the state after its items were taken, or the abort of the call in `s`. -/
def Res.fetched (s : State) : Res Instr → Fetched
  | .ok i s' => .execute i s'
  | .raise k => .ended (.next (s.abort k))
  | .fault f => .ended (.fault f)

/-- The next LZW codeword, classified before anything is appended (42_lzw R190, 30_encoding R92). -/
def State.fetchLzw (s : State) : Fetched :=
  ((s.r24GetCw s.nbit.toNat).bind fun cw s' => .ok (decodeLzw s.ctx cw) s').fetched s

/-- The symbols of a Huffman step; end of stream at top level ends the call (43_huffman_rle R230, R239). -/
def State.fetchHuff (s : State) : Fetched :=
  match s.huffSym with
  | .ok none s' => .ended (.next s'.finish)
  | .ok (some sym) s' => (s'.follow (huffReading sym)).fetched s
  | .raise k => .ended (.next (s.abort k))
  | .fault f => .ended (.fault f)

/-- The next DIET token; a full buffer ends the call (44_diet R260, R271). -/
def State.fetchDiet (s : State) : Fetched :=
  if s.idx = s.payloadSize then .ended (.next s.finish) else (s.follow (dietReading s.cfg)).fetched s

/-- The number of header bytes after `PEEK` (40_dispatcher R132, R133). -/
def State.headerLen (s : State) : Nat :=
  if s.ctx.isDietSig (s.inByte 0) (s.inByte 1) then s.cfg.dietHeaderLen else ttfPayloadOffset

/-- The source check of `START`, `PEEK`, and the header (40_dispatcher R130 to R133). -/
def State.fetchHeader (s : State) : Fetched :=
  if s.src = .absent then .ended (.next (s.abort .cannotOpenSource))
  else if s.inLen < 2 then .ended (.next (s.abort .truncatedStream))
  else if s.inLen < s.headerLen then .ended (.next (s.abort .truncatedStream))
  else (s.follow (headerReading s.ctx (s.inByte 0) (s.inByte 1))).fetched s

/-- No call runs: the next call of the host is started; with none the state stays as it is (40_dispatcher R136, log 2). -/
def State.betweenCalls (s : State) : Host.Outcome State Fault Refusal :=
  match s.pending with
  | [] => .next s
  | c :: rest => s.startCall c rest

/-- The fetch of one step. -/
def State.fetch (s : State) : Fetched :=
  match s.stState with
  | .run =>
    match s.format with
    | .none => s.fetchHeader
    | .lzw => s.fetchLzw
    | .huff => s.fetchHuff
    | .diet => s.fetchDiet
  | .idle => .ended s.betweenCalls
  | .done => .ended s.betweenCalls
  | .err => .ended s.betweenCalls

/-- The two bytes that hold a codeword of `n` bits from payload bit 0 on (20_memory R66). -/
def codewordBytes (n : Nat) (c : Code) : List Byte :=
  [(c.setWidth 16 <<< (16 - n)).extractLsb' 8 8, (c.setWidth 16 <<< (16 - n)).extractLsb' 0 8]

/-- The width a codeword value needs (log 3): the current one, or 12 bits when the value does not fit. -/
def State.widthFor (c : Code) (s : State) : BitVec 4 := if c.toNat < 2 ^ s.nbit.toNat then s.nbit else 12

/-- Put a codeword at the front of a fresh LZW stream (log 3). -/
def State.placeCodeword (c : Code) (s : State) : State :=
  ({ s with
    stState := .run
    format := .lzw
    nbit := s.widthFor c
    src := .ofBytes (codewordBytes (s.widthFor c).toNat c)
    ipos := 0 } : State).r24Prime

/-- Put a symbol at the front of a Huffman bit stream, with the tree that gives it the path 0 and the symbol 0 the path 1
(log 3). -/
def State.placeSymbol (a : Symbol) (s : State) : State :=
  { s with
    stState := .run
    format := .huff
    nnodes := 3
    node := [0x0002, a ++ (1 : BitVec 1), 0x0001]
    cfg := { s.cfg with nodeDecode := .lowBit, rootExplicit := true }
    src := .ofBytes [0x7F]
    ipos := 0
    cur := 0
    bitcnt := 0 }

/-- Put a bit word and a raw byte at the front of a DIET stream, zeros after them (log 3). -/
def State.placeToken (word : BitVec 16) (raw : Byte) (s : State) : State :=
  ({ s with
    stState := .run
    format := .diet
    payloadSize := 1
    idx := 0
    src := .ofBytes [word.extractLsb' 0 8, word.extractLsb' 8 8, raw, 0, 0, 0]
    ipos := 0 } : State).r16Prime

/-- Put a container header at the front of `IN` (log 3). -/
def State.placeHeader (bytes : List Byte) (s : State) : State :=
  { s with
    stState := .run
    format := .none
    src := .ofBytes bytes
    ipos := 0 }

/-- Put a table word where the next step fetches (log 3). A word that is no instruction changes nothing. -/
def State.placeTableWord (nbits w : Nat) (s : State) : State :=
  match tableWord nbits w with
  | .codeword c => s.placeCodeword c
  | .symbol a => s.placeSymbol a
  | .token word raw => s.placeToken word raw
  | .header bytes => s.placeHeader bytes
  | .noInstruction => s

end Sys2Proof.Machine
end

