-- ==== Sys2Proof/Machine/Dispatch.lean ====
section
/-! DEFINITION. One arm per constructor of Instr: the meaning of each instruction. -/

namespace Sys2Proof.Machine

def exec (i : Instr) (s : State) : Host.Outcome State Fault Refusal :=
  match i with
  -- LZW codewords (spec/42_lzw.md)
  | .lit b => Sys2Proof.Machine.execLit b s
  | .clear => Sys2Proof.Machine.execClear s
  | .endLzw => Sys2Proof.Machine.execEndLzw s
  | .clearAlt => Sys2Proof.Machine.execClearAlt s
  | .endLzwAlt => Sys2Proof.Machine.execEndLzwAlt s
  | .ref c => Sys2Proof.Machine.execRef c s
  | .kwkwk c => Sys2Proof.Machine.execKwkwk c s
  | .illegal c => Sys2Proof.Machine.execIllegal c s
  -- Huffman symbols (spec/43_huffman_rle.md)
  | .litsym b => Sys2Proof.Machine.execLitsym b s
  | .run h n => Sys2Proof.Machine.execRun h n s
  | .run8 h a => Sys2Proof.Machine.execRun8 h a s
  | .run16 h a b => Sys2Proof.Machine.execRun16 h a b s
  -- DIET tokens (spec/44_diet.md)
  | .literal v => Sys2Proof.Machine.execLiteral v s
  | .short lo => Sys2Proof.Machine.execShort lo s
  | .sentinel => Sys2Proof.Machine.execSentinel s
  | .shortx lo t => Sys2Proof.Machine.execShortx lo t s
  | .long lo hi n => Sys2Proof.Machine.execLong lo hi n s
  -- container routes (spec/40_dispatcher.md)
  | .routeDiet h l0 l1 => Sys2Proof.Machine.execRouteDiet h l0 l1 s
  | .routeTtfLzw b0 l0 l1 => Sys2Proof.Machine.execRouteTtfLzw b0 l0 l1 s
  | .routeTtfHuff b0 type l0 l1 => Sys2Proof.Machine.execRouteTtfHuff b0 type l0 l1 s

end Sys2Proof.Machine
end

