-- ==== Sys2Proof/Machine/Step.lean ====
section
/-! DEFINITION. One step: fetch, then execute (00_scope R14). -/

namespace Sys2Proof.Machine

/-- One step of the block: one codeword, symbol or token (00_scope R14), the prologue of a call, or what happens between
two calls (log 1, log 2). -/
def step (s : State) : Host.Outcome State Fault Refusal :=
  match s.fetch with
  | .execute i s' => exec i s'
  | .ended o => o

/-- The state with a table word placed where the next step fetches (log 3). -/
def State.withFetchWord (s : State) (nbits w : Nat) : State := s.placeTableWord nbits w

end Sys2Proof.Machine
end

