-- ==== Sys2Proof/Safety.lean ====
section
/-! DEFINITION. The terms the claims use: the invariants of a call (41_bit_readers R154, 42_lzw R204, 10_state R21 to R37),
what an instruction leaves alone, and how a stream spells items. -/

namespace Sys2Proof.Machine

/-! ### Invariants -/

/-- Every memory is in its canonical form (log 7, log 8). -/
structure State.MemOk (s : State) : Prop where
  out : s.out.wf
  dict : s.dict.wf
  src : s.src.wf = true
  pending : ∀ c ∈ s.pending, c.src.wf = true

/-- `STATUS` is legal (10_state R24): an error code stands exactly while `STATE = ERR`, and it is one of R300. -/
structure State.StatusOk (s : State) : Prop where
  code : s.stState = .err ↔ s.stErr ≠ 0
  known : s.stErr.toNat ≤ 6

/-- The registers of `R24` are at reset (10_state R41). -/
abbrev State.R24AtReset (s : State) : Prop := s.buf = 0 ∧ s.missing = 0 ∧ s.navail = 0

/-- The registers of the LZW unit are at reset (10_state R41). -/
abbrev State.LzwAtReset (s : State) : Prop :=
  s.nbit = 9 ∧ s.dictsize = 0x102 ∧ s.pv = false ∧ s.prev = 0 ∧ s.dict = []

/-- The registers of `RMSB` are at reset (10_state R41). -/
abbrev State.RmsbAtReset (s : State) : Prop := s.cur = 0 ∧ s.bitcnt = 0

/-- The registers of the Huffman unit are at reset (10_state R41). -/
abbrev State.HuffAtReset (s : State) : Prop := s.nnodes = 0 ∧ s.node = [] ∧ s.last = 0

/-- The registers of `R16` are at reset (10_state R41). -/
abbrev State.R16AtReset (s : State) : Prop := s.w = 0 ∧ s.cnt = 0 ∧ s.valid = 0

/-- `OUT` lists nothing at or above an address: those bytes read `0x00` (10_state R32, 44_diet R265). -/
abbrev State.OutBelow (s : State) (n : Nat) : Prop := ∀ c ∈ s.out, c.1 < n

/-- Bit `p` of `IN`, most significant bit of byte 0 first (20_memory R66). -/
def State.inBit (p : Nat) (s : State) : Bool := (s.inByte (p / 8)).getLsbD (7 - p % 8)

/-- The position in `IN` of the next codeword bit: `cpos` of 10_state R27 counted from `IN[0]`. -/
def State.bitPos (s : State) : Nat := 8 * s.ipos - s.navail.toNat

/-- The real bits of the window are the next bits of `IN` (41_bit_readers R154 (c)). -/
def State.WindowOk (s : State) : Prop :=
  s.navail.toNat ≤ 8 * s.ipos ∧ ∀ j, j < s.navail.toNat → s.buf.getLsbD (23 - j) = s.inBit (s.bitPos + j)

/-- 41_bit_readers R154 (a), (b), (d), and: bits below the real ones are zero, and a bit of the window is missing from the
real ones only when the stream is exhausted. -/
structure State.R24Ok (s : State) : Prop where
  missing : s.missing.toNat ≤ 7
  navail : s.navail.toNat + s.missing.toNat ≤ 24
  pad : ∀ i, i < 24 - s.navail.toNat → s.buf.getLsbD i = false
  full : s.exhausted = false → s.navail.toNat + s.missing.toNat = 24

/-- 42_lzw R204 (a) to (g). The dictionary lists exactly the codes `0x102 .. dictsize-1`. -/
structure State.LzwOk (s : State) : Prop where
  nbit : nbitMin ≤ s.nbit.toNat ∧ s.nbit.toNat ≤ nbitMax
  dictsize : dictInit ≤ s.dictsize.toNat ∧ s.dictsize.toNat ≤ dictCap
  widthLow : s.nbit.toNat = nbitMin ∨ 2 ^ (s.nbit.toNat - 1) ≤ s.dictsize.toNat
  widthHigh : s.nbit.toNat = nbitMax ∨ s.dictsize.toNat < 2 ^ s.nbit.toNat
  fresh : s.pv = false → s.dictsize.toNat = dictInit ∧ s.nbit.toNat = nbitMin
  prev : s.pv = true → s.prev.toNat < s.dictsize.toNat ∧ s.prev ≠ 0x100 ∧ s.prev ≠ 0x101
  codes : s.dict.map Prod.fst = List.range' dictInit (s.dictsize.toNat - dictInit)
  lengths : ∀ e ∈ s.dict, 2 ≤ e.2.length ∧ e.2.length ≤ e.1 - 0x100
  grown : ∀ e ∈ s.dict, ∃ p q b, p < e.1 ∧ s.dict.read p = some q ∧ e.2 = q ++ [b]

/-- The Huffman unit between steps: the stored words are the `nnodes` of the tree (10_state R34), at most 7 bits of `cur`
are left. -/
structure State.HuffOk (s : State) : Prop where
  nodes : s.node.length = s.nnodes.toNat
  bitcnt : s.bitcnt.toNat ≤ 7

/-- `R16` and the DIET cursor between steps (10_state R36, R37): `cnt` is never 0, pad bits come after real bits. -/
structure State.DietOk (s : State) : Prop where
  idx : s.idx.toNat ≤ s.payloadSize.toNat
  cnt : 1 ≤ s.cnt.toNat ∧ s.cnt.toNat ≤ 16
  valid : s.valid.toNat ≤ s.cnt.toNat
  pad : s.w.toNat < 2 ^ s.valid.toNat

/-- A running call, by its `FORMAT`: the selected unit is in order and the others are at reset (10_state R21). -/
structure State.RunOk (s : State) : Prop where
  ipos : s.ipos ≤ s.inLen
  r24 : if s.format = .lzw then s.R24Ok ∧ s.WindowOk else s.R24AtReset
  lzw : if s.format = .lzw then s.LzwOk else s.LzwAtReset
  rmsb : s.format ≠ .huff → s.RmsbAtReset
  huff : if s.format = .huff then s.HuffOk else s.HuffAtReset
  r16 : s.format ≠ .diet → s.R16AtReset
  diet : if s.format = .diet then s.DietOk else s.idx = 0
  outBelow : if s.format = .diet then s.OutBelow s.idx.toNat ∧ s.olen = 0 else s.OutBelow s.olen
  header : s.format = .none → s.ipos = 0 ∧ s.payloadSize = 0 ∧ s.olen = 0

/-- The invariant every step keeps. After an abort nothing is known of the decoder registers (60_exceptions R310), so a
running call is the only place where they are constrained. -/
structure State.Inv (s : State) : Prop where
  mem : s.MemOk
  status : s.StatusOk
  run : s.stState = .run → s.RunOk

/-! ### Frames -/

/-- `FORMAT`, `PAYLOAD_SIZE`, `STATUS`, `CFG`, `SRC` and the model's own fields are unchanged. -/
structure State.SameCall (s t : State) : Prop where
  format : t.format = s.format
  payloadSize : t.payloadSize = s.payloadSize
  stState : t.stState = s.stState
  stErr : t.stErr = s.stErr
  cfg : t.cfg = s.cfg
  src : t.src = s.src
  pending : t.pending = s.pending
  draws : t.draws = s.draws

/-- The stream cursor and the registers of all three readers are unchanged. -/
structure State.SameReaders (s t : State) : Prop where
  ipos : t.ipos = s.ipos
  buf : t.buf = s.buf
  missing : t.missing = s.missing
  navail : t.navail = s.navail
  cur : t.cur = s.cur
  bitcnt : t.bitcnt = s.bitcnt
  w : t.w = s.w
  cnt : t.cnt = s.cnt
  valid : t.valid = s.valid

/-- The registers of the LZW unit are unchanged. -/
structure State.SameLzw (s t : State) : Prop where
  nbit : t.nbit = s.nbit
  dictsize : t.dictsize = s.dictsize
  pv : t.pv = s.pv
  prev : t.prev = s.prev
  dict : t.dict = s.dict

/-- The Huffman tree is unchanged. -/
structure State.SameTree (s t : State) : Prop where
  nnodes : t.nnodes = s.nnodes
  node : t.node = s.node

/-- `OUT` grew by a byte string at `olen` (42_lzw R201); every other byte reads as before. -/
structure State.Appended (str : List Byte) (s t : State) : Prop where
  olen : t.olen = s.olen + str.length
  bytes : ∀ i (h : i < str.length), t.out.read (s.olen + i) = str[i]
  others : ∀ a, a < s.olen ∨ s.olen + str.length ≤ a → t.out.read a = s.out.read a

/-- `OUT` and `olen` are unchanged: every byte reads as before. -/
structure State.SameOut (s t : State) : Prop where
  olen : t.olen = s.olen
  bytes : ∀ a, t.out.read a = s.out.read a

/-- The capacity of `OUT` leaves room for `n` more bytes (20_memory R62). -/
def State.Room (n : Nat) (s : State) : Prop := ∀ cap, s.cfg.outCap = some cap → s.olen + n ≤ cap

/-- The capacity of `OUT` is reached within the next `n` bytes (20_memory R62). -/
def State.NoRoom (n : Nat) (s : State) : Prop :=
  ∃ cap, s.cfg.outCap = some cap ∧ s.olen ≤ cap ∧ cap < s.olen + n

/-- `APPEND` and `WIDTH` of `LZW.TAIL` with current string `str` (42_lzw R200), said through `dict[c]`. -/
structure State.Learned (str : List Byte) (s t : State) : Prop where
  size : t.dictsize.toNat = if s.appends then s.dictsize.toNat + 1 else s.dictsize.toNat
  entry : s.appends = true → ∀ p, s.dict.read s.prev.toNat = some p →
    t.dict.read s.dictsize.toNat = some (p ++ str.take 1)
  others : ∀ c, s.appends = false ∨ c ≠ s.dictsize.toNat → t.dict.read c = s.dict.read c
  width : t.nbit.toNat =
    if s.appends = true ∧ s.dictsize.toNat + 1 = 2 ^ s.nbit.toNat ∧ s.nbit.toNat < nbitMax then s.nbit.toNat + 1
    else s.nbit.toNat

/-- What `LZW.TAIL(str, cw)` does (42_lzw R200, R201), and what it leaves alone. -/
structure State.TailDone (str : List Byte) (cw : Code) (s t : State) : Prop where
  learned : s.Learned str t
  appended : s.Appended str t
  prev : t.prev = cw
  pv : t.pv = true
  call : s.SameCall t
  readers : s.SameReaders t
  tree : s.SameTree t
  last : t.last = s.last
  idx : t.idx = s.idx

/-- The abort of 60_exceptions R310 with the kind `k`: `STATUS` reports it, `FORMAT`, `PAYLOAD_SIZE`, `CFG` and `SRC` can
still be read; nothing is said of the rest. -/
structure State.Aborted (k : ErrKind) (s t : State) : Prop where
  stState : t.stState = .err
  stErr : t.stErr = k.code
  format : t.format = s.format
  payloadSize : t.payloadSize = s.payloadSize
  cfg : t.cfg = s.cfg
  src : t.src = s.src
  pending : t.pending = s.pending

/-- A DIET copy of `count` bytes from `back` bytes before the cursor (44_diet R270), cut at `PAYLOAD_SIZE`: each new byte
equals the byte `back` places before it, in the buffer as it stands after the copy. -/
structure State.Copied (back count : Nat) (s t : State) : Prop where
  idx : t.idx.toNat = min (s.idx.toNat + count) s.payloadSize.toNat
  below : ∀ a, a < s.idx.toNat → t.out.read a = s.out.read a
  copied : ∀ a, s.idx.toNat ≤ a → a < t.idx.toNat → t.out.read a = t.out.read (a - back)
  above : ∀ a, t.idx.toNat ≤ a → t.out.read a = s.out.read a
  call : s.SameCall t
  readers : s.SameReaders t
  lzw : s.SameLzw t
  tree : s.SameTree t
  last : t.last = s.last
  olen : t.olen = s.olen

/-- What a run of `count` bytes does (43_huffman_rle R236), and what it leaves alone. -/
structure State.RunDone (count : Nat) (s t : State) : Prop where
  appended : s.Appended (List.replicate count s.last) t
  last : t.last = s.last
  call : s.SameCall t
  readers : s.SameReaders t
  lzw : s.SameLzw t
  tree : s.SameTree t
  idx : t.idx = s.idx

/-- A call that `START` has left running (40_dispatcher R130, 00_scope R6): `STATUS`, `FORMAT`, `PAYLOAD_SIZE`, and what the
host brought. -/
structure State.Started (c : Call) (rest : List Call) (f : Format) (size : BitVec 21) (t : State) : Prop where
  stState : t.stState = .run
  stErr : t.stErr = 0
  format : t.format = f
  payloadSize : t.payloadSize = size
  cfg : t.cfg = c.cfg
  src : t.src = c.src
  pending : t.pending = rest

/-- A step whose last part is a run of `count` bytes at state `s`. -/
def State.RunAnswers (count : Nat) (o : Host.Outcome State Fault Refusal) (s : State) : Prop :=
  (s.Room count → ∃ t, o = .next t ∧ s.RunDone count t) ∧
  (s.NoRoom count → ∃ t, o = .next t ∧ s.Aborted .outputOverflow t)

/-- What `LITERAL` does with its byte (44_diet R262), and what it leaves alone. -/
structure State.LiteralDone (v : Byte) (s t : State) : Prop where
  idx : t.idx.toNat = s.idx.toNat + 1
  bytes : ∀ a, t.out.read a = if a = s.idx.toNat then v else s.out.read a
  olen : t.olen = s.olen
  call : s.SameCall t
  readers : s.SameReaders t
  lzw : s.SameLzw t
  tree : s.SameTree t
  last : t.last = s.last

/-- `R16.FILL` (41_bit_readers R158) between two states: the next word, with pad bits for missing bytes; nothing else
changes. -/
structure State.Refilled (s t : State) : Prop where
  two : s.ipos + 2 ≤ s.inLen → t = { s with
    w := word16 (s.inByte s.ipos) (s.inByte (s.ipos + 1)), cnt := 16, valid := 16, ipos := s.ipos + 2 }
  one : s.ipos + 1 = s.inLen → t = { s with
    w := (s.inByte s.ipos).setWidth 16, cnt := 16, valid := 8, ipos := s.ipos + 1 }
  none : s.inLen ≤ s.ipos → t = { s with w := 0, cnt := 16, valid := 0 }

/-! ### Streams -/

/-- Where a reading stands after these items; none where one of them is not of the kind it asks for. -/
def readingAfter : List Item → Reading → Option Reading
  | [], r => some r
  | .bit b :: rest, .bit next => readingAfter rest (next b)
  | .raw v :: rest, .raw next => readingAfter rest (next v)
  | .sym a :: rest, .sym next => readingAfter rest (next a)
  | .cw _ :: _, _ => none
  | .bit _ :: _, _ => none
  | .raw _ :: _, _ => none
  | .sym _ :: _, _ => none

/-- The leaf that exactly these bits lead to. -/
def leafAt {α : Type} : List Bool → BitTree α → Option α
  | [], .leaf a => some a
  | b :: rest, .bit zero one => leafAt rest (if b then one else zero)
  | [], .bit _ _ => none
  | _ :: _, .leaf _ => none

/-- The readers deliver this item next; the state after it. -/
def State.takesItem : Item → State → Option State
  | .bit b, s =>
    match s.r16Bit with
    | .ok b' s' => if b' = b then some s' else none
    | _ => none
  | .raw v, s =>
    match s.r16Raw with
    | .ok v' s' => if v' = v then some s' else none
    | _ => none
  | .sym a, s =>
    match s.huffSym with
    | .ok (some a') s' => if a' = a then some s' else none
    | _ => none
  | .cw c, s =>
    match s.r24GetCw s.nbit.toNat with
    | .ok c' s' => if c' = c then some s' else none
    | _ => none

/-- The readers deliver these items next; the state after them. -/
def State.takes : List Item → State → Option State
  | [], s => some s
  | item :: rest, s =>
    match s.takesItem item with
    | some s' => s'.takes rest
    | none => none

/-- The bits `RMSB` delivers next are these; the state after them. -/
def State.takesRmsb : List Bool → State → Option State
  | [], s => some s
  | b :: rest, s =>
    match s.rmsbBit with
    | .ok b' s' => if b' = b then s'.takesRmsb rest else none
    | _ => none

/-- The bits `R16` delivers next are these; the state after them. -/
def State.takesR16 : List Bool → State → Option State
  | [], s => some s
  | b :: rest, s =>
    match s.r16Bit with
    | .ok b' s' => if b' = b then s'.takesR16 rest else none
    | _ => none

/-- The bit path of 30_encoding R100 in the stored tree: from the pair at `index`, the bits lead to a leaf and end
there. -/
def State.pathSymbol : Nat → List Bool → State → Option Symbol
  | _, [], _ => none
  | index, b :: rest, s =>
    if s.nnodes.toNat ≤ index + b.toNat then none
    else
      match s.node[index + b.toNat]? with
      | none => none
      | some v =>
        match s.cfg.nodeDecode.apply v with
        | .leaf sym => if rest = [] then some sym else none
        | .internal next => s.pathSymbol next rest

/-- The index a bit path has reached while every selected node is internal (43_huffman_rle R233). -/
def State.pathIndex : Nat → List Bool → State → Option Nat
  | index, [], _ => some index
  | index, b :: rest, s =>
    if s.nnodes.toNat ≤ index + b.toNat then none
    else
      match s.node[index + b.toNat]? with
      | none => none
      | some v =>
        match s.cfg.nodeDecode.apply v with
        | .leaf _ => none
        | .internal next => s.pathIndex next rest

/-- A traversal starts from this index (43_huffman_rle R233): the pair that an internal node 0 names, or node 0 itself
when `HUFF_ROOT_EXPLICIT` is false. -/
def State.StartsAt (index : Nat) (s : State) : Prop :=
  if s.cfg.rootExplicit then
    0 < s.nnodes.toNat ∧ ∃ v, s.node[0]? = some v ∧ s.cfg.nodeDecode.apply v = .internal index
  else index = 0

/-! ### Progress -/

/-- How much of a running call is left: it falls with every step that goes on (70_reset R348). -/
def State.workLeft (s : State) : Nat :=
  match s.format with
  | .none => 8 * s.inLen + 2
  | .lzw => s.r24BitsLeft + 1
  | .huff => s.rmsbBitsLeft + 1
  | .diet => s.r16BitsLeft + 1

end Sys2Proof.Machine
end

