-- ==== Sys2Proof/Certificates/Slice0/Obligations.lean ====
section
/-! DEFINITION. The statements for the provers. Each docstring names the rules of spec/ it formalises; "derived" marks a
statement that rests on a consequence the spec itself draws, or on a choice of the model (log entry named). -/

open Sys2Proof Sys2Proof.Machine

/-! ### Encoding -/

/-- Words written out from 30_encoding R91, R92 (95 V-LZW-15 for the moving ranges), R99, R101, R102, R94, R95: one for
every row of the opcode table. The contexts hold the `CFG` of Cfg.initial (log 5), so the DIET header has 17 bytes and the
signature `0x4CB4`, and the `LONG` line is read with the default instances of log 13 and log 14. -/
def Obligations.SpecWordsDecode : Prop :=
  let x : Ctx := { Ctx.afterReset .lzw with dictsize := 0x104, pv := true }
  let xAlt : Ctx := { x with cfg := { x.cfg with altLzw := true } }
  let h := Ctx.afterReset .huff
  let d := Ctx.afterReset .diet
  let n := Ctx.afterReset .none
  decode x [.cw 0b000001000001] = .ok (.lit 0x41, []) ∧
  decode x [.cw 0b000100000000] = .ok (.clear, []) ∧
  decode x [.cw 0b000100000001] = .ok (.endLzw, []) ∧
  decode xAlt [.cw 0b000100000001] = .ok (.clearAlt, []) ∧
  decode xAlt [.cw 0b000100000000] = .ok (.endLzwAlt, []) ∧
  decode x [.cw 0b000100000011] = .ok (.ref 0x103, []) ∧
  decode x [.cw 0b000100000100] = .ok (.kwkwk 0x104, []) ∧
  decode x [.cw 0b000100000101] = .ok (.illegal 0x105, []) ∧
  decode h [.sym 0b000000001000001] = .ok (.litsym 0x41, []) ∧
  decode h [.sym 0b000000100000011] = .ok (.run 1 3, []) ∧
  decode h [.sym 0b000000100000000, .sym 0x0001] = .ok (.run8 1 1, []) ∧
  decode h [.sym 0b000000100000001, .sym 0x0001, .sym 0x0000] = .ok (.run16 1 1 0, []) ∧
  decode d [.bit true, .raw 0x7A] = .ok (.literal 0x7A, []) ∧
  decode d [.bit false, .raw 0xFE, .bit false, .bit false] = .ok (.short 0xFE, []) ∧
  decode d [.bit false, .raw 0xFF, .bit false, .bit false] = .ok (.sentinel, []) ∧
  decode d [.bit false, .raw 0xFF, .bit false, .bit true, .bit true, .bit true, .bit false] =
    .ok (.shortx 0xFF 6, []) ∧
  decode d [.bit false, .raw 0xFF, .bit true, .bit true, .bit true, .bit true] = .ok (.long 0xFF 0xFF 1, []) ∧
  decode n [.raw 0xB4, .raw 0x4C, .raw 0xCD, .raw 0x21, .raw 0x9D, .raw 0x89, .raw 0x64, .raw 0x6C, .raw 0x7A, .raw 0x00,
    .raw 0x00, .raw 0x00, .raw 0x00, .raw 0x00, .raw 0x0C, .raw 0x78, .raw 0x56] = .ok (.routeDiet 0x0C 0x78 0x56, []) ∧
  decode n [.raw 0x01, .raw 0x10, .raw 0x34, .raw 0x12] = .ok (.routeTtfLzw 0x01 0x34 0x12, []) ∧
  decode n [.raw 0x00, .raw 0x11, .raw 0x04, .raw 0x00] = .ok (.routeTtfHuff 0x00 0x11 0x04 0x00, [])

/-- Decode and encode agree, for every instruction, every context and every operand the encoding admits. -/
def Obligations.DecodeOfEncodeIsTheInstruction : Prop :=
  ∀ (x : Ctx) (i : Instr) (rest : List Item),
    i.wellFormed x = true → decode x (encode x i ++ rest) = .ok (i, rest)

/-- Derived (42_lzw R193): classification is total and has no overlap, and a codeword's instruction encodes as that
codeword. -/
def Obligations.EveryCodewordHasOneMeaning : Prop :=
  ∀ (x : Ctx) (c : Code), x.format = .lzw →
    (decodeLzw x c).wellFormed x = true ∧ encode x (decodeLzw x c) = [.cw c]

/-- 30_encoding R92, line by line, with the sentinel codes of 42_lzw R192. -/
def Obligations.LzwOpcodeMap : Prop :=
  ∀ (x : Ctx) (c : Code),
    (c.toNat = 0x101 → x.cfg.altLzw = false → decodeLzw x c = .endLzw) ∧
    (c.toNat = 0x100 → x.cfg.altLzw = true → decodeLzw x c = .endLzwAlt) ∧
    (c.toNat = 0x100 → x.cfg.altLzw = false → decodeLzw x c = .clear) ∧
    (c.toNat = 0x101 → x.cfg.altLzw = true → decodeLzw x c = .clearAlt) ∧
    (c.toNat ≤ 0xFF → decodeLzw x c = .lit (c.setWidth 8)) ∧
    (0x102 ≤ c.toNat → c.toNat < x.dictsize.toNat → decodeLzw x c = .ref c) ∧
    (0x102 ≤ c.toNat → c.toNat = x.dictsize.toNat → x.pv = true → x.dictsize.toNat < 4096 →
      decodeLzw x c = .kwkwk c) ∧
    (0x102 ≤ c.toNat → x.dictsize.toNat < c.toNat → decodeLzw x c = .illegal c) ∧
    (0x102 ≤ c.toNat → c.toNat = x.dictsize.toNat → x.pv = false → decodeLzw x c = .illegal c)

/-- 30_encoding R101, with the run counts. -/
def Obligations.HuffmanOpcodeMap : Prop :=
  ∀ (x : Ctx) (hi : BitVec 7) (lo : Byte) (a b : Symbol) (rest : List Item), x.format = .huff →
    (hi = 0 → decode x (.sym (hi ++ lo) :: rest) = .ok (.litsym lo, rest)) ∧
    (hi ≠ 0 → 2 ≤ lo.toNat → decode x (.sym (hi ++ lo) :: rest) = .ok (.run hi lo, rest) ∧
      runCount lo = lo.toNat) ∧
    (hi ≠ 0 → lo = 0 → decode x (.sym (hi ++ lo) :: .sym a :: rest) = .ok (.run8 hi a, rest) ∧
      run8Count a = a.toNat % 256) ∧
    (hi ≠ 0 → lo = 1 → decode x (.sym (hi ++ lo) :: .sym a :: .sym b :: rest) = .ok (.run16 hi a b, rest) ∧
      run16Count a b = a.toNat % 256 * 256 + b.toNat % 256)

/-- Derived (30_encoding R102): the DIET token formats, for every instance of the two parameters of the long form. That an
instance may give a count outside the 1..270 of 00_scope R9, which the token then carries as it is, is the model's choice of
log 14. -/
def Obligations.DietTokenFormats : Prop :=
  ∀ (x : Ctx) (lo v : Byte) (t : BitVec 3) (rest : List Item), x.format = .diet →
    decode x ([.bit true, .raw v] ++ rest) = .ok (.literal v, rest) ∧
    (lo ≠ 0xFF → decode x ([.bit false, .raw lo, .bit false, .bit false] ++ rest) = .ok (.short lo, rest)) ∧
    decode x ([.bit false, .raw 0xFF, .bit false, .bit false] ++ rest) = .ok (.sentinel, rest) ∧
    decode x ([.bit false, .raw lo, .bit false, .bit true, .bit (t.getLsbD 2), .bit (t.getLsbD 1), .bit (t.getLsbD 0)]
      ++ rest) = .ok (.shortx lo t, rest) ∧
    (∀ p q hi, leafAt p x.cfg.longOffsetHi = some hi →
      let long (count : List Item) := decode x ([.bit false, .raw lo, .bit true] ++ p.map .bit ++ count ++ rest)
      (∀ n, leafAt q x.cfg.longCount = some (.exact n) → long (q.map .bit) = .ok (.long lo hi n, rest)) ∧
      (∀ base, leafAt q x.cfg.longCount = some (.rawPlus base) →
        long (q.map .bit ++ [.raw v]) = .ok (.long lo hi (base + v.toNat), rest)))

/-- 30_encoding R94, R95: the two container headers. (The layout of R95 has its size bytes at `P - 3`, so it exists from
`P = 3` on; what a lower `P` does is the model's choice of log 15, and HeaderErrors names it.) -/
def Obligations.ContainerHeaders : Prop :=
  ∀ (x : Ctx) (b0 b1 h l0 l1 : Byte) (skipped tail : List Byte) (rest : List Item), x.format = .none →
    (b1 ++ b0 ≠ x.cfg.dietSig → decode x ([b0, b1, l0, l1].map .raw ++ rest) =
      .ok (if b1 = 0x10 then .routeTtfLzw b0 l0 l1 else .routeTtfHuff b0 b1 l0 l1, rest)) ∧
    (skipped.length + 3 = x.cfg.dietPayloadOffset → skipped ++ [h, l0, l1] = b0 :: b1 :: tail →
      b1 ++ b0 = x.cfg.dietSig →
      decode x ((skipped ++ [h, l0, l1]).map .raw ++ rest) = .ok (.routeDiet h l0 l1, rest))

/-- Derived (30_encoding R104): the bit sequences of the long-form count and its repeat, in the default instances (log 13,
log 14), after `b:0 B:lo b:1` and the offset-high bits `1 1` (44_diet R268 gives `0xFF` for them). -/
def Obligations.LongCountTable : Prop :=
  (∀ n, longRepeat n = 2 + n) ∧
  ∀ (x : Ctx) (lo v : Byte) (rest : List Item), x.format = .diet → x.cfg = Cfg.initial →
    let long (count : List Item) := decode x ([.bit false, .raw lo, .bit true, .bit true, .bit true] ++ count ++ rest)
    let zeros (n : Nat) : List Item := List.replicate n (.bit false)
    long [.bit true] = .ok (.long lo 0xFF 1, rest) ∧
    long (zeros 1 ++ [.bit true]) = .ok (.long lo 0xFF 2, rest) ∧
    long (zeros 2 ++ [.bit true]) = .ok (.long lo 0xFF 3, rest) ∧
    long (zeros 3 ++ [.bit true]) = .ok (.long lo 0xFF 4, rest) ∧
    (∀ b : Bool, long (zeros 4 ++ [.bit true, .bit b]) = .ok (.long lo 0xFF (5 + b.toNat), rest)) ∧
    (∀ t2 t1 t0 : Bool, long (zeros 6 ++ [.bit t2, .bit t1, .bit t0]) =
      .ok (.long lo 0xFF (7 + (4 * t2.toNat + 2 * t1.toNat + t0.toNat)), rest)) ∧
    long (zeros 5 ++ [.bit true, .raw v]) = .ok (.long lo 0xFF (15 + v.toNat), rest)

/-- Derived (44_diet R268, the default instance of log 13): the bit sequences of the long-form offset high byte and its value,
before the count bit `1`. `a`, `b`, `c`, `d` are the data bits. -/
def Obligations.LongOffsetTable : Prop :=
  ∀ (x : Ctx) (lo : Byte) (a b c d : Bool) (rest : List Item), x.format = .diet → x.cfg = Cfg.initial →
    let long (bits : List Bool) := decode x ([.bit false, .raw lo, .bit true] ++ bits.map .bit ++ [.bit true] ++ rest)
    long [a, true] = .ok (.long lo (BitVec.ofNat 8 (0xFE + a.toNat)) 1, rest) ∧
    long [a, false, true] = .ok (.long lo (BitVec.ofNat 8 (0xFC + a.toNat)) 1, rest) ∧
    long [a, false, false, b, true] = .ok (.long lo (BitVec.ofNat 8 (0xF8 + 2 * a.toNat + b.toNat)) 1, rest) ∧
    long [a, false, false, b, false, c, true] =
      .ok (.long lo (BitVec.ofNat 8 (0xF0 + 4 * a.toNat + 2 * b.toNat + c.toNat)) 1, rest) ∧
    long [a, false, false, b, false, c, false, d] =
      .ok (.long lo (BitVec.ofNat 8 (0xE0 + 8 * a.toNat + 4 * b.toNat + 2 * c.toNat + d.toNat)) 1, rest)

/-- 30_encoding R96: payload size assembly. -/
def Obligations.PayloadSizeAssembly : Prop :=
  ∀ b0 h l0 l1 : Byte,
    (ttfPayloadSize b0 l0 l1).toNat = b0.toNat % 16 * 0x10000 + l1.toNat * 0x100 + l0.toNat ∧
    (dietPayloadSize h l0 l1).toNat = h.toNat / 4 % 32 * 0x10000 + l1.toNat * 0x100 + l0.toNat

/-- Derived (30_encoding R103): the offsets of the short forms. -/
def Obligations.ShortFormOffsets : Prop :=
  ∀ (lo : Byte) (t : BitVec 3),
    dietOffset 0xFF lo = (lo.toNat : Int) - 256 ∧
    (shortxHi t).toNat = 0xF7 + t.toNat ∧
    dietOffset (shortxHi t) lo = ((0xF7 + t.toNat) * 256 + lo.toNat : Nat) - (65536 : Int)

/-! ### A step runs the decoded instruction -/

/-- When the readers deliver, one after the other, the items of an instruction, a step is that instruction's meaning at
the state after them (42_lzw R190, 43_huffman_rle R230, 44_diet R260, 40_dispatcher R131 to R133). -/
def Obligations.StepRunsTheDecodedInstruction : Prop :=
  ∀ (s t : State) (items : List Item) (i : Instr), s.Inv → s.stState = .run →
    (s.format = .diet → s.idx ≠ s.payloadSize) →
    decode s.ctx items = .ok (i, []) → s.takes items = some t → step s = exec i t

/-- What a fetch decodes is well formed in the context it was decoded in. -/
def Obligations.FetchedInstructionsAreWellFormed : Prop :=
  ∀ (s t : State) (i : Instr), s.Inv → s.stState = .run →
    s.fetch = .execute i t → i.wellFormed s.ctx = true

/-! ### Memories -/

/-- The model's canonical form (log 7): two byte memories in it that read alike everywhere are equal data. -/
def Obligations.EqualReadsMeanEqualMemories : Prop :=
  ∀ m m' : Memory, m.wf → m'.wf → (∀ a, m.read a = m'.read a) → m = m'

/-! ### Readers -/

/-- Derived (41_bit_readers R154): `R24.GETCW(n)` returns the `n` bits of the payload at the cursor, most significant
first, and advances the cursor by `n`; with fewer bits left it raises `TruncatedStream`. Nothing but the reader's
registers and `ipos` changes. -/
def Obligations.CodewordReaderReadsTheBitString : Prop :=
  ∀ (s : State) (n : Nat), s.R24Ok → s.WindowOk → s.ipos ≤ s.inLen → 9 ≤ n → n ≤ 12 →
    (8 * s.inLen < s.bitPos + n → s.r24GetCw n = .raise .truncatedStream) ∧
    (s.bitPos + n ≤ 8 * s.inLen → ∃ cw t,
      s.r24GetCw n = .ok cw t ∧ cw.toNat < 2 ^ n ∧
      (∀ j, j < n → cw.getLsbD (n - 1 - j) = s.inBit (s.bitPos + j)) ∧
      t.bitPos = s.bitPos + n ∧ t.R24Ok ∧ t.WindowOk ∧ s.ipos ≤ t.ipos ∧ t.ipos ≤ t.inLen ∧
      t = { s with ipos := t.ipos, buf := t.buf, missing := t.missing, navail := t.navail })

/-- 41_bit_readers R156: one bit per call, from bit 7 of the current byte, the refill lazy; so the bits of a byte come most
significant first. At the end of the stream `TruncatedStream` is raised. -/
def Obligations.MsbReaderDeliversAByte : Prop :=
  ∀ s : State,
    (s.bitcnt ≠ 0 → s.rmsbBit = .ok (s.cur.getLsbD 7) { s with cur := s.cur <<< 1, bitcnt := s.bitcnt - 1 }) ∧
    (s.bitcnt = 0 → s.exhausted = true → s.rmsbBit = .raise .truncatedStream) ∧
    (s.bitcnt = 0 → s.exhausted = false → ∀ b, b = s.inByte s.ipos →
      s.rmsbBit = .ok (b.getLsbD 7) { s with ipos := s.ipos + 1, cur := b <<< 1, bitcnt := 7 } ∧
      s.takesRmsb [b.getLsbD 7, b.getLsbD 6, b.getLsbD 5, b.getLsbD 4, b.getLsbD 3, b.getLsbD 2, b.getLsbD 1,
        b.getLsbD 0] = some { s with ipos := s.ipos + 1, cur := 0, bitcnt := 0 })

/-- 41_bit_readers R158, R159: one bit per call, from bit 0 of the current word; the call that takes the last bit fetches
the next word, with pad bits at the end of the stream, and a pad bit is never delivered. So the sixteen bits of a word come
least significant first. -/
def Obligations.LsbReaderDeliversAWord : Prop :=
  ∀ s : State,
    (s.valid = 0 → s.r16Bit = .raise .truncatedStream) ∧
    (s.valid ≠ 0 → s.cnt ≠ 1 → s.r16Bit =
      .ok (s.w.getLsbD 0) { s with w := s.w >>> 1, cnt := s.cnt - 1, valid := s.valid - 1 }) ∧
    (s.valid ≠ 0 → s.cnt = 1 → ∃ t, s.r16Bit = .ok (s.w.getLsbD 0) t ∧ s.Refilled t) ∧
    (s.valid = 16 → s.cnt = 16 → ∃ t, s.takesR16 ((List.range 16).map s.w.getLsbD) = some t ∧ s.Refilled t)

/-! ### LZW -/

/-- 42_lzw R194 with R200, R201: `LIT`. It completes where `OUT` has room for its byte, and else raises
`OutputOverflow` (60_exceptions R306). -/
def Obligations.LitResult : Prop :=
  ∀ (s : State) (b : Byte), s.Inv → s.stState = .run → s.format = .lzw →
    (s.Room 1 → ∃ t, exec (.lit b) s = .next t ∧ s.TailDone [b] (b.setWidth 12) t) ∧
    (s.NoRoom 1 → ∃ t, exec (.lit b) s = .next t ∧ s.Aborted .outputOverflow t)

/-- 42_lzw R195 with R200, R201: `REF` of a learned code; its string is present and has two bytes or more. -/
def Obligations.RefResult : Prop :=
  ∀ (s : State) (c : Code), s.Inv → s.stState = .run → s.format = .lzw →
    0x102 ≤ c.toNat → c.toNat < s.dictsize.toNat →
    ∃ str, s.dict.read c.toNat = some str ∧ 2 ≤ str.length ∧
      (s.Room str.length → ∃ t, exec (.ref c) s = .next t ∧ s.TailDone str c t) ∧
      (s.NoRoom str.length → ∃ t, exec (.ref c) s = .next t ∧ s.Aborted .outputOverflow t)

/-- 42_lzw R196 with R200, R201: `KWKWK`. The string is the previous one and its own first byte, and after the step it is
the entry of the code. -/
def Obligations.KwkwkResult : Prop :=
  ∀ (s : State) (c : Code), s.Inv → s.stState = .run → s.format = .lzw →
    c.toNat = s.dictsize.toNat → s.pv = true → s.dictsize.toNat < 4096 →
    ∃ p, s.dict.read s.prev.toNat = some p ∧ p ≠ [] ∧
      (s.Room (p.length + 1) → ∃ t, exec (.kwkwk c) s = .next t ∧ s.TailDone (p ++ p.take 1) c t ∧
        t.dict.read c.toNat = some (p ++ p.take 1)) ∧
      (s.NoRoom (p.length + 1) → ∃ t, exec (.kwkwk c) s = .next t ∧ s.Aborted .outputOverflow t)

/-- 42_lzw R197: `CLEAR` in both modes; the learned entries go, the singletons stay, nothing else changes. -/
def Obligations.ClearResult : Prop :=
  ∀ s : State, ∃ t, exec .clear s = .next t ∧ exec .clearAlt s = .next t ∧
    t = { s with dict := t.dict, dictsize := 0x102, nbit := 9, pv := false } ∧
    ∀ c, t.dict.read c = if c ≤ 0xFF then some [BitVec.ofNat 8 c] else none

/-- 42_lzw R198 with 40_dispatcher R136: `END` in both modes; the result is the bytes appended so far. -/
def Obligations.EndResult : Prop :=
  ∀ s : State, ∃ t, exec .endLzw s = .next t ∧ exec .endLzwAlt s = .next t ∧
    t = { s with stState := .done, stErr := 0 } ∧
    (s.format = .lzw → ∃ bytes, t.result = some (.ok bytes) ∧ bytes.length = s.olen ∧
      ∀ k (h : k < bytes.length), bytes[k] = s.out.read k)

/-- 42_lzw R199, 60_exceptions R302: `ILLEGAL` raises `MalformedDictionaryReference`, whatever its code. -/
def Obligations.IllegalRaises : Prop :=
  ∀ (s : State) (c : Code), ∃ t, exec (.illegal c) s = .next t ∧ s.Aborted .malformedDictionaryReference t

/-- 41_bit_readers R153 as a step: fewer real bits than the codeword width are left. -/
def Obligations.LzwStreamWithoutEndIsTruncated : Prop :=
  ∀ s : State, s.stState = .run → s.format = .lzw → s.navail.toNat < s.nbit.toNat →
    ∃ t, step s = .next t ∧ s.Aborted .truncatedStream t

/-- Derived (42_lzw R202): at the cap no codeword is `KWKWK` or `ILLEGAL`, and none but `CLEAR` changes the dictionary,
`dictsize` or `nbit` while the call goes on. -/
def Obligations.DictionaryIsFrozenAtTheCap : Prop :=
  ∀ (s t : State) (c : Code), s.Inv → s.stState = .run → s.format = .lzw → s.dictsize.toNat = 4096 →
    decodeLzw s.ctx c ≠ .kwkwk c ∧ decodeLzw s.ctx c ≠ .illegal c ∧
    (exec (decodeLzw s.ctx c) s = .next t → t.stState = .run → c ≠ clearCode s.cfg.altLzw →
      t.dict = s.dict ∧ t.dictsize = s.dictsize ∧ t.nbit = s.nbit)

/-! ### Huffman+RLE -/

/-- 43_huffman_rle R235: `LITSYM` appends its byte and remembers it. -/
def Obligations.LitsymResult : Prop :=
  ∀ (s : State) (b : Byte), s.out.wf →
    (s.Room 1 → ∃ t, exec (.litsym b) s = .next t ∧ s.Appended [b] t ∧ t.last = b ∧
      s.SameCall t ∧ s.SameReaders t ∧ s.SameLzw t ∧ s.SameTree t ∧ t.idx = s.idx) ∧
    (s.NoRoom 1 → ∃ t, exec (.litsym b) s = .next t ∧ s.Aborted .outputOverflow t)

/-- 43_huffman_rle R236: a run appends `last` as often as its count says and leaves `last` as it is. The same holds of
`RUN8` and `RUN16` once their extension symbols are there (R237, R238), with the counts of 30_encoding R101. -/
def Obligations.RunResults : Prop :=
  ∀ (s : State) (h : BitVec 7) (n : Byte) (a b : Symbol) (i : Instr) (count : Nat), s.out.wf →
    (i = .run h n ∧ count = n.toNat ∨
      i = .run8 h a ∧ count = a.toNat % 256 ∨
      i = .run16 h a b ∧ count = a.toNat % 256 * 256 + b.toNat % 256) →
    (s.Room count → ∃ t, exec i s = .next t ∧ s.RunDone count t) ∧
    (s.NoRoom count → ∃ t, exec i s = .next t ∧ s.Aborted .outputOverflow t)

/-- Derived (43_huffman_rle R232, the table of 30_encoding R98): `HUFF.NODE`, and the default reading of a node word: bit 0 is
the tag (0 internal, 1 leaf), bits 15:1 are the index of the child pair or the symbol. The default is the spec's own
resolution of a source sentence that contradicts itself (conflict C5, decision D18: "The default is this spec's reading"); the
model holds it as `NodeDecode.lowBit` (log 12). -/
def Obligations.TreeNodes : Prop :=
  (∀ (s : State) (i : Nat), s.nnodes.toNat ≤ i → s.huffNode i = .raise .malformedTree) ∧
  (∀ (s : State) (i : Nat) (v : BitVec 16), i < s.nnodes.toNat → s.node[i]? = some v →
    s.huffNode i = .ok (s.cfg.nodeDecode.apply v) s) ∧
  (∀ v : BitVec 16, v.getLsbD 0 = false → NodeDecode.lowBit.apply v = .internal (v.toNat / 2)) ∧
  (∀ v : BitVec 16, v.getLsbD 0 = true → NodeDecode.lowBit.apply v = .leaf (BitVec.ofNat 15 (v.toNat / 2)))

/-- 43_huffman_rle R233, 60_exceptions R305: `HUFF.SYM`. Bits that are a path from the root to a leaf give the leaf's
symbol, and exactly those bits are taken; end of stream before a path (whatever the tree) or in the middle of one is `EOS`;
a node index at or above `nnodes`, a leaf as explicit root, or no root at all raises `MalformedTree`. -/
def Obligations.TraversalFollowsTheTree : Prop :=
  ∀ s : State,
    (s.rmsbEos = true → s.huffSym = .ok none s) ∧
    (s.rmsbEos = false → s.cfg.rootExplicit = true → s.nnodes.toNat = 0 → s.huffSym = .raise .malformedTree) ∧
    (∀ v a, s.rmsbEos = false → s.cfg.rootExplicit = true → 0 < s.nnodes.toNat → s.node[0]? = some v →
      s.cfg.nodeDecode.apply v = .leaf a → s.huffSym = .raise .malformedTree) ∧
    (∀ index bits a t, s.StartsAt index → s.pathSymbol index bits = some a → s.takesRmsb bits = some t →
      s.huffSym = .ok (some a) t) ∧
    (∀ index bits next t, s.StartsAt index → s.pathIndex index bits = some next → s.takesRmsb bits = some t →
      (t.rmsbEos = true → s.huffSym = .ok none t) ∧
      (∀ b t', t.rmsbBit = .ok b t' → s.nnodes.toNat ≤ next + b.toNat → s.huffSym = .raise .malformedTree))

/-- 43_huffman_rle R239, 60_exceptions R303: at top level the end of the bit stream ends the call with `Ok`, and what the
traversal raises aborts it. -/
def Obligations.EndOfTheBitStreamEndsTheCall : Prop :=
  ∀ s : State, s.stState = .run → s.format = .huff →
    (∀ t, s.huffSym = .ok none t → step s = .next { t with stState := .done, stErr := 0 }) ∧
    (∀ k, s.huffSym = .raise k → ∃ t, step s = .next t ∧ s.Aborted k t)

/-- 43_huffman_rle R237, R238 with R234: `RUN8` and `RUN16` as steps. The extension symbols are read after the run symbol;
the stream that ends before one of them is `TruncatedStream`, and what the traversal raises aborts the call. -/
def Obligations.RunExtensionResults : Prop :=
  ∀ (s s1 : State) (x : Symbol), s.out.wf → s.stState = .run → s.format = .huff → s.huffSym = .ok (some x) s1 →
    symHi x ≠ 0 → symLo x = 0 ∨ symLo x = 1 →
    (∀ s2, s1.huffSym = .ok none s2 → ∃ t, step s = .next t ∧ s.Aborted .truncatedStream t) ∧
    (∀ k, s1.huffSym = .raise k → ∃ t, step s = .next t ∧ s.Aborted k t) ∧
    (∀ a s2, s1.huffSym = .ok (some a) s2 →
      (symLo x = 0 → s2.RunAnswers (a.toNat % 256) (step s)) ∧
      (symLo x = 1 →
        (∀ s3, s2.huffSym = .ok none s3 → ∃ t, step s = .next t ∧ s.Aborted .truncatedStream t) ∧
        (∀ k, s2.huffSym = .raise k → ∃ t, step s = .next t ∧ s.Aborted k t) ∧
        (∀ b s3, s2.huffSym = .ok (some b) s3 → s3.RunAnswers (a.toNat % 256 * 256 + b.toNat % 256) (step s))))

/-! ### DIET -/

/-- 44_diet R262: `LITERAL` writes its byte at `idx`, which advances; every other byte reads as before. As a step: with the
first bit of the token set, the byte is the next raw byte of the stream, and without one `TruncatedStream` is raised. -/
def Obligations.LiteralResult : Prop :=
  ∀ s : State, s.out.wf → s.idx.toNat < s.payloadSize.toNat →
    (∀ v, ∃ t, exec (.literal v) s = .next t ∧ s.LiteralDone v t) ∧
    (∀ s1, s.stState = .run → s.format = .diet → s.r16Bit = .ok true s1 →
      (s1.exhausted = true → ∃ t, step s = .next t ∧ s.Aborted .truncatedStream t) ∧
      (s1.exhausted = false → ∃ t, step s = .next t ∧
        ({ s1 with ipos := s1.ipos + 1 } : State).LiteralDone (s1.inByte s1.ipos) t))

/-- Derived (44_diet R264, R270, 60_exceptions R304, and R266, R267 with the offset bytes and the count read): the three
back-references. A source outside `[0, idx)` raises `MalformedBackreference`; else the bytes are copied. That `LONG` with a
count outside the 1..270 of 00_scope R9 copies `2 + n` bytes too is the model's choice of log 14. -/
def Obligations.BackReferencesCopy : Prop :=
  ∀ (s : State) (lo hi : Byte) (b : BitVec 3) (n : Nat) (i : Instr) (offset : Int) (count : Nat),
    s.out.wf → s.idx.toNat ≤ s.payloadSize.toNat →
    (i = .short lo ∧ offset = (lo.toNat : Int) - 256 ∧ count = 2 ∨
      i = .shortx lo b ∧ offset = (0xF7 + b.toNat) * 256 + lo.toNat - 65536 ∧ count = 2 ∨
      i = .long lo hi n ∧ offset = (hi ++ lo).toInt ∧ count = 2 + n) →
    (s.idx.toNat + offset < 0 ∨ (s.idx.toNat : Int) ≤ s.idx.toNat + offset →
      ∃ t, exec i s = .next t ∧ s.Aborted .malformedBackreference t) ∧
    (0 ≤ s.idx.toNat + offset → s.idx.toNat + offset < s.idx.toNat →
      ∃ t, exec i s = .next t ∧ s.Copied (-offset).toNat count t)

/-- 20_memory R75, 70_reset R343: an overlapping copy repeats the pattern of the last `back` bytes. -/
def Obligations.OverlappingCopyRepeatsThePattern : Prop :=
  ∀ (s : State) (back count : Nat), s.out.wf → s.idx.toNat ≤ s.payloadSize.toNat →
    1 ≤ back → back ≤ s.idx.toNat → s.idx.toNat + count ≤ s.payloadSize.toNat →
    ∃ u, s.dietCopy (-(back : Int)) count = .ok () u ∧ u.idx.toNat = s.idx.toNat + count ∧
      ∀ k, k < count → u.out.read (s.idx.toNat + k) = s.out.read (s.idx.toNat - back + k % back)

/-- 44_diet R265 with 40_dispatcher R136: `SENTINEL` ends the call; the result has `PAYLOAD_SIZE` bytes and those from
`idx` on are `0x00`. -/
def Obligations.SentinelResult : Prop :=
  ∀ s : State, s.Inv → s.stState = .run → s.format = .diet →
    ∃ t, exec .sentinel s = .next t ∧ t = { s with stState := .done, stErr := 0 } ∧
      ∃ bytes, t.result = some (.ok bytes) ∧ bytes.length = s.payloadSize.toNat ∧
        (∀ k (h : k < bytes.length), k < s.idx.toNat → bytes[k] = s.out.read k) ∧
        (∀ k (h : k < bytes.length), s.idx.toNat ≤ k → bytes[k] = 0x00)

/-- 44_diet R260, R271: with `idx = PAYLOAD_SIZE` the call ends and no further bit is read. -/
def Obligations.FullBufferEndsTheDietCall : Prop :=
  ∀ s : State, s.stState = .run → s.format = .diet → s.idx = s.payloadSize →
    step s = .next { s with stState := .done, stErr := 0 }

/-- 41_bit_readers R159, R161, 60_exceptions R303 and the last row of 30_encoding R105 as steps: wherever in a token the
stream runs out. When the readers deliver the items of a token up to a point where it needs a bit and the next bit is a pad
bit, or needs a raw byte and there is none, the step raises `TruncatedStream`; and the readers of a token raise no other
kind. -/
def Obligations.DietStreamTooShortIsTruncated : Prop :=
  ∀ s : State, s.stState = .run → s.format = .diet → s.idx ≠ s.payloadSize →
    (∀ items t, s.takes items = some t →
      (∀ next, readingAfter items (dietReading s.cfg) = some (.bit next) → t.valid = 0 →
        ∃ u, step s = .next u ∧ s.Aborted .truncatedStream u) ∧
      (∀ next, readingAfter items (dietReading s.cfg) = some (.raw next) → t.exhausted = true →
        ∃ u, step s = .next u ∧ s.Aborted .truncatedStream u)) ∧
    (∀ k, s.follow (dietReading s.cfg) = .raise k →
      k = .truncatedStream ∧ ∃ u, step s = .next u ∧ s.Aborted .truncatedStream u)

/-! ### Container routes and calls -/

/-- 40_dispatcher R130 to R133, 60_exceptions R301, R303: an absent source, and headers shorter than their layout. (That a
DIET header has its three size bytes even below `DIET_PAYLOAD_OFFSET = 3` is the model's choice of log 15.) -/
def Obligations.HeaderErrors : Prop :=
  ∀ s : State, s.stState = .run → s.format = .none →
    (s.src = .absent → ∃ t, step s = .next t ∧ s.Aborted .cannotOpenSource t) ∧
    (s.src ≠ .absent → s.inLen < 2 → ∃ t, step s = .next t ∧ s.Aborted .truncatedStream t) ∧
    (s.src ≠ .absent → 2 ≤ s.inLen → s.inByte 1 ++ s.inByte 0 = s.cfg.dietSig →
      s.inLen < max 3 s.cfg.dietPayloadOffset → ∃ t, step s = .next t ∧ s.Aborted .truncatedStream t) ∧
    (s.src ≠ .absent → 2 ≤ s.inLen → s.inByte 1 ++ s.inByte 0 ≠ s.cfg.dietSig →
      s.inLen < 4 → ∃ t, step s = .next t ∧ s.Aborted .truncatedStream t)

/-- 40_dispatcher R135: a zero payload size ends the call at once, whatever the format; no reader is primed, and the result
is empty (no byte is appended before the header is read). -/
def Obligations.ZeroSizeEndsTheCall : Prop :=
  ∀ (s : State) (b0 h type l0 l1 : Byte), s.olen = 0 →
    (ttfPayloadSize b0 l0 l1 = 0 →
      (∃ t, exec (.routeTtfLzw b0 l0 l1) s = .next t ∧ t.result = some (.ok []) ∧
        t = { s with format := .lzw, payloadSize := 0, stState := .done, stErr := 0 }) ∧
      (∃ t, exec (.routeTtfHuff b0 type l0 l1) s = .next t ∧ t.result = some (.ok []) ∧
        t = { s with format := .huff, payloadSize := 0, stState := .done, stErr := 0 })) ∧
    (dietPayloadSize h l0 l1 = 0 →
      ∃ t, exec (.routeDiet h l0 l1) s = .next t ∧ t.result = some (.ok []) ∧
        t = { s with format := .diet, payloadSize := 0, stState := .done, stErr := 0 })

/-- 40_dispatcher R133, R134 with 42_lzw R191 and 41_bit_readers R151: the LZW route. The dictionary holds the singletons,
and the primed window holds the first three bytes of the payload, with pad bytes for missing ones; the other units are left
alone. -/
def Obligations.LzwRouteResult : Prop :=
  ∀ (s : State) (b0 l0 l1 : Byte), s.ipos ≤ s.inLen → ttfPayloadSize b0 l0 l1 ≠ 0 →
    ∃ t, exec (.routeTtfLzw b0 l0 l1) s = .next t ∧ t.format = .lzw ∧ t.payloadSize = ttfPayloadSize b0 l0 l1 ∧
      t.LzwAtReset ∧ (∀ c, t.dict.read c = if c ≤ 0xFF then some [BitVec.ofNat 8 c] else none) ∧
      t.out = [] ∧ t.olen = 0 ∧
      t.ipos = min (s.ipos + 3) s.inLen ∧ t.missing = 0 ∧ t.navail.toNat = 8 * (t.ipos - s.ipos) ∧
      t.R24Ok ∧ t.WindowOk ∧ t.bitPos = 8 * s.ipos ∧
      t.stState = s.stState ∧ t.stErr = s.stErr ∧ t.cfg = s.cfg ∧ t.src = s.src ∧ t.pending = s.pending ∧
      t.cur = s.cur ∧ t.bitcnt = s.bitcnt ∧ s.SameTree t ∧ t.last = s.last ∧
      t.w = s.w ∧ t.cnt = s.cnt ∧ t.valid = s.valid ∧ t.idx = s.idx

/-- 40_dispatcher R133, R134 with 43_huffman_rle R230, R231: the Huffman route. With the whole tree section present the
node words are stored in index order and the bit stream starts right after them; else `TruncatedStream`. -/
def Obligations.HuffmanRouteResult : Prop :=
  ∀ (s : State) (b0 type l0 l1 : Byte) (n : Nat), s.ipos ≤ s.inLen → ttfPayloadSize b0 l0 l1 ≠ 0 →
    n = (word16 (s.inByte s.ipos) (s.inByte (s.ipos + 1))).toNat / 2 →
    (s.ipos + 2 + 2 * n ≤ s.inLen →
      ∃ t, exec (.routeTtfHuff b0 type l0 l1) s = .next t ∧ t.format = .huff ∧
        t.payloadSize = ttfPayloadSize b0 l0 l1 ∧ t.ipos = s.ipos + 2 + 2 * n ∧ t.nnodes.toNat = n ∧
        t.node.length = n ∧
        (∀ k (h : k < t.node.length),
          t.node[k] = word16 (s.inByte (s.ipos + 2 + 2 * k)) (s.inByte (s.ipos + 3 + 2 * k))) ∧
        t.RmsbAtReset ∧ t.last = 0 ∧ t.out = [] ∧ t.olen = 0 ∧
        t.stState = s.stState ∧ t.stErr = s.stErr ∧ t.cfg = s.cfg ∧ t.src = s.src ∧ t.pending = s.pending ∧
        t.buf = s.buf ∧ t.missing = s.missing ∧ t.navail = s.navail ∧ s.SameLzw t ∧
        t.w = s.w ∧ t.cnt = s.cnt ∧ t.valid = s.valid ∧ t.idx = s.idx) ∧
    (s.inLen < s.ipos + 2 ∨ s.inLen < s.ipos + 2 + 2 * n →
      ∃ t, exec (.routeTtfHuff b0 type l0 l1) s = .next t ∧ t.stState = .err ∧ t.stErr = 3 ∧ t.format = .huff ∧
        t.payloadSize = ttfPayloadSize b0 l0 l1 ∧ t.cfg = s.cfg ∧ t.src = s.src ∧ t.pending = s.pending)

/-- 40_dispatcher R132, R134 with 44_diet R260 and 41_bit_readers R158: the DIET route. Every byte of the pre-sized buffer
is `0x00`, the first word is fetched, pad bits stand for missing bytes. -/
def Obligations.DietRouteResult : Prop :=
  ∀ (s : State) (h l0 l1 : Byte), s.ipos ≤ s.inLen → dietPayloadSize h l0 l1 ≠ 0 →
    ∃ t, exec (.routeDiet h l0 l1) s = .next t ∧ t.format = .diet ∧ t.payloadSize = dietPayloadSize h l0 l1 ∧
      t.idx = 0 ∧ (∀ a, t.out.read a = 0x00) ∧ t.ipos = min (s.ipos + 2) s.inLen ∧ t.cnt = 16 ∧
      t.valid.toNat = 8 * (t.ipos - s.ipos) ∧
      (s.ipos + 2 ≤ s.inLen → t.w = word16 (s.inByte s.ipos) (s.inByte (s.ipos + 1))) ∧
      (s.ipos + 1 = s.inLen → t.w = (s.inByte s.ipos).setWidth 16) ∧ (s.ipos = s.inLen → t.w = 0) ∧
      t.stState = s.stState ∧ t.stErr = s.stErr ∧ t.cfg = s.cfg ∧ t.src = s.src ∧ t.pending = s.pending ∧
      t.olen = s.olen ∧ t.buf = s.buf ∧ t.missing = s.missing ∧ t.navail = s.navail ∧ s.SameLzw t ∧
      t.cur = s.cur ∧ t.bitcnt = s.bitcnt ∧ s.SameTree t ∧ t.last = s.last

/-- Derived (70_reset R340 with the table of 10_state R41): `START` of a `decode` call leaves every register at its reset value,
whatever the last call left. That the state between `START` and the source check is a step's result, with
`STATUS.STATE = RUN` also for an absent source (whose `CannotOpenSource` is the next step's), is the model's choice of
log 1; so is, by log 2, that the call and those after it come from a list. -/
def Obligations.StartResetsEveryRegister : Prop :=
  ∀ (s : State) (c : Call) (rest : List Call), c.entry = .decode →
    ∃ t, s.startCall c rest = .next t ∧ t.stState = .run ∧ t.stErr = 0 ∧ t.format = .none ∧ t.payloadSize = 0 ∧
      t.ipos = 0 ∧ t.R24AtReset ∧ t.LzwAtReset ∧
      (∀ k, t.dict.read k = if k ≤ 0xFF then some [BitVec.ofNat 8 k] else none) ∧
      t.out = [] ∧ t.olen = 0 ∧ t.RmsbAtReset ∧ t.HuffAtReset ∧ t.R16AtReset ∧ t.idx = 0 ∧
      t.cfg = c.cfg ∧ t.src = c.src ∧ t.pending = rest

/-- Derived (00_scope R6 with 42_lzw R191, 43_huffman_rle R230, R231, 44_diet R260): the three sub-operations start at
their payload byte, with the registers of their decoder's initialisation and everything else at reset. That calls stand in
the list `pending` is the model's choice (log 2); so is what an absent source and a `start` beyond the source do, and that a
zero size, which 44_diet R260 shuts out and 40_dispatcher R135 tests in `DISPATCH` only, is not tested here: the call then
starts as with any other size (log 17). -/
def Obligations.SubOperationsStart : Prop :=
  ∀ (s : State) (c : Call) (rest : List Call) (start p : Nat) (size : BitVec 21), s.stState ≠ .run →
    s.pending = c :: rest → p = min start c.src.len →
    (c.src = .absent →
      c.entry = .lzwDecode start size ∨ c.entry = .huffDecode start size ∨ c.entry = .dietDecode start size →
      ∃ t, step s = .next t ∧ t.stState = .err ∧ t.stErr = 1 ∧ t.cfg = c.cfg ∧ t.src = c.src ∧ t.pending = rest) ∧
    (c.src ≠ .absent → c.entry = .lzwDecode start size →
      ∃ t, step s = .next t ∧ t.Started c rest .lzw size ∧ t.LzwAtReset ∧ t.R24Ok ∧ t.WindowOk ∧ t.missing = 0 ∧
        t.bitPos = 8 * p ∧ t.ipos = min (p + 3) t.inLen ∧ t.out = [] ∧ t.olen = 0 ∧ t.RmsbAtReset ∧ t.HuffAtReset ∧
        t.R16AtReset ∧ t.idx = 0) ∧
    (c.src ≠ .absent → c.entry = .huffDecode start size →
      ∀ n, n = (word16 (c.src.read p) (c.src.read (p + 1))).toNat / 2 →
        (p + 2 + 2 * n ≤ c.src.len →
          ∃ t, step s = .next t ∧ t.Started c rest .huff size ∧ t.ipos = p + 2 + 2 * n ∧ t.nnodes.toNat = n ∧
            t.node = (List.range n).map (fun k =>
              word16 (c.src.read (p + 2 + 2 * k)) (c.src.read (p + 3 + 2 * k))) ∧
            t.last = 0 ∧ t.RmsbAtReset ∧ t.out = [] ∧ t.olen = 0 ∧ t.R24AtReset ∧ t.LzwAtReset ∧ t.R16AtReset ∧
            t.idx = 0) ∧
        (c.src.len < p + 2 ∨ c.src.len < p + 2 + 2 * n →
          ∃ t, step s = .next t ∧ t.stState = .err ∧ t.stErr = 3 ∧ t.format = .huff ∧ t.payloadSize = size ∧
            t.cfg = c.cfg ∧ t.src = c.src ∧ t.pending = rest)) ∧
    (c.src ≠ .absent → c.entry = .dietDecode start size →
      ∃ t, step s = .next t ∧ t.Started c rest .diet size ∧ t.idx = 0 ∧ (∀ a, t.out.read a = 0x00) ∧
        t.ipos = min (p + 2) t.inLen ∧ t.cnt = 16 ∧ t.valid.toNat = 8 * (t.ipos - p) ∧
        (p + 2 ≤ t.inLen → t.w = word16 (c.src.read p) (c.src.read (p + 1))) ∧
        (p + 1 = t.inLen → t.w = (c.src.read p).setWidth 16) ∧ (p = t.inLen → t.w = 0) ∧
        t.olen = 0 ∧ t.R24AtReset ∧ t.LzwAtReset ∧ t.RmsbAtReset ∧ t.HuffAtReset)

/-- 00_scope R7: nothing survives from one call to the next; two blocks that have the same calls before them (and draw the
same free values) go on alike, whatever their last calls left. That calls stand in a list is the model's choice
(log 2). -/
def Obligations.CallsAreIndependent : Prop :=
  ∀ (s s' : State) (n : Nat), s.stState ≠ .run → s'.stState ≠ .run → s.pending ≠ [] →
    s.pending = s'.pending → s.draws = s'.draws → core.run (n + 1) s = core.run (n + 1) s'

/-- Derived (40_dispatcher R136, 60_exceptions R311): after the end of a call no step is taken until the next `START`. That
the calls to come stand in the list `pending`, and that the state stays as it is while there is none, is the model's choice
(log 2). -/
def Obligations.BetweenCallsTheBlockWaits : Prop :=
  ∀ s : State, s.stState ≠ .run →
    (s.pending = [] → step s = .next s) ∧
    (∀ c rest, s.pending = c :: rest → step s = s.startCall c rest)

/-- 60_exceptions R300: the numeric codes. -/
def Obligations.ErrorCodes : Prop :=
  ErrKind.code .cannotOpenSource = 1 ∧ ErrKind.code .malformedDictionaryReference = 2 ∧
  ErrKind.code .truncatedStream = 3 ∧ ErrKind.code .malformedBackreference = 4 ∧
  ErrKind.code .malformedTree = 5 ∧ ErrKind.code .outputOverflow = 6

/-- 60_exceptions R310: a raised kind ends the call that runs in `s`, and its code is the result. -/
def Obligations.RaisedKindEndsTheCall : Prop :=
  ∀ (s : State) (k : ErrKind), ∃ t, Res.outcome s (.raise k) = .next t ∧ s.Aborted k t ∧
    t.result = some (.error k.code)

/-! ### The whole machine -/

/-- The invariant holds at reset. -/
def Obligations.ResetMeetsTheInvariant : Prop := State.reset.Inv

/-- Derived (42_lzw R204, 41_bit_readers R154, 10_state R21 to R37): every step keeps the invariant, from every state that
meets it. -/
def Obligations.StepKeepsTheInvariant : Prop :=
  ∀ s t : State, s.Inv → step s = .next t → t.Inv

/-- No state that meets the invariant stops: the model's own faults (log 9) are out of reach, and nothing is refused. -/
def Obligations.StepAlwaysAnswers : Prop :=
  ∀ s : State, s.Inv → ∃ t, step s = .next t

/-- Derived (70_reset R348): a step of a running call ends the call or takes real bits off what is left of the stream. -/
def Obligations.EveryRunningStepMakesProgress : Prop :=
  ∀ s t : State, s.Inv → s.stState = .run → step s = .next t → t.stState ≠ .run ∨ t.workLeft < s.workLeft

/-- Derived (70_reset R348): every call ends, within as many steps as it has work left. -/
def Obligations.EveryCallEnds : Prop :=
  ∀ s : State, s.Inv → s.stState = .run →
    ∃ k t, k ≤ s.workLeft ∧ core.run k s = .next t ∧ (t.stState = .done ∨ t.stState = .err)

/-- 10_state R22, 20_memory R74: no step of a running call writes `CFG` or `IN`, nor the host's list. -/
def Obligations.RunningCallKeepsInputAndConfiguration : Prop :=
  ∀ s t : State, s.stState = .run → step s = .next t → t.cfg = s.cfg ∧ t.src = s.src ∧ t.pending = s.pending

/-- 10_state R23: `FORMAT` and `PAYLOAD_SIZE` are written once per call, and an abort leaves them readable. -/
def Obligations.FormatIsWrittenOnce : Prop :=
  ∀ s t : State, s.stState = .run → s.format ≠ .none → step s = .next t →
    t.format = s.format ∧ t.payloadSize = s.payloadSize

/-- 10_state R25: the stream cursor only moves forward, and never past `IN_LEN` (unless an abort left it open). -/
def Obligations.StreamCursorOnlyAdvances : Prop :=
  ∀ s t : State, s.Inv → s.stState = .run → step s = .next t → t.stState ≠ .err →
    s.ipos ≤ t.ipos ∧ t.ipos ≤ t.inLen

/-- 10_state R32: a written byte of `OUT` is never changed again while its call goes on. -/
def Obligations.WrittenOutputIsNeverChanged : Prop :=
  ∀ s t : State, s.Inv → s.stState = .run → s.format ≠ .none → step s = .next t → t.stState ≠ .err →
    ∀ a, a < (if s.format = .diet then s.idx.toNat else s.olen) → t.out.read a = s.out.read a

/-- 10_state R31: an entry of the dictionary is never modified; a step of a running LZW call keeps every entry or goes back
to the singletons. -/
def Obligations.DictionaryEntriesAreNeverModified : Prop :=
  ∀ s t : State, s.Inv → s.stState = .run → s.format = .lzw → step s = .next t → t.stState ≠ .err →
    (∀ c str, s.dict.read c = some str → t.dict.read c = some str) ∨
    (∀ c, t.dict.read c = if c ≤ 0xFF then some [BitVec.ofNat 8 c] else none)

/-- Derived (20_memory R62): with a numeric `OUT_CAP` the bytes appended stay within it. -/
def Obligations.OutputStaysWithinItsCapacity : Prop :=
  ∀ (s t : State) (cap : Nat), s.Inv → s.stState = .run → s.cfg.outCap = some cap → s.olen ≤ cap →
    step s = .next t → t.stState ≠ .err → t.olen ≤ cap

/-- Derived (40_dispatcher R135, R138): in a running LZW or Huffman call `PAYLOAD_SIZE` has no influence. -/
def Obligations.PayloadSizeIsAdvisory : Prop :=
  ∀ (s t : State) (size : BitVec 21), s.stState = .run → s.format = .lzw ∨ s.format = .huff → step s = .next t →
    step { s with payloadSize := size } = .next { t with payloadSize := size }
end

