-- ==== Sys2Proof/Laws/State.lean ====
section
/-! SUPPORT. One lemma for each field of each named update of State, so that no proof unfolds a record update. -/

namespace Sys2Proof.Machine

/-! ### finish -/

@[simp] theorem State.finish_format (s : State) : s.finish.format = s.format := rfl
@[simp] theorem State.finish_payloadSize (s : State) : s.finish.payloadSize = s.payloadSize := rfl
@[simp] theorem State.finish_stState (s : State) : s.finish.stState = .done := rfl
@[simp] theorem State.finish_stErr (s : State) : s.finish.stErr = 0 := rfl
@[simp] theorem State.finish_ipos (s : State) : s.finish.ipos = s.ipos := rfl
@[simp] theorem State.finish_buf (s : State) : s.finish.buf = s.buf := rfl
@[simp] theorem State.finish_missing (s : State) : s.finish.missing = s.missing := rfl
@[simp] theorem State.finish_navail (s : State) : s.finish.navail = s.navail := rfl
@[simp] theorem State.finish_nbit (s : State) : s.finish.nbit = s.nbit := rfl
@[simp] theorem State.finish_dictsize (s : State) : s.finish.dictsize = s.dictsize := rfl
@[simp] theorem State.finish_pv (s : State) : s.finish.pv = s.pv := rfl
@[simp] theorem State.finish_prev (s : State) : s.finish.prev = s.prev := rfl
@[simp] theorem State.finish_dict (s : State) : s.finish.dict = s.dict := rfl
@[simp] theorem State.finish_out (s : State) : s.finish.out = s.out := rfl
@[simp] theorem State.finish_olen (s : State) : s.finish.olen = s.olen := rfl
@[simp] theorem State.finish_cur (s : State) : s.finish.cur = s.cur := rfl
@[simp] theorem State.finish_bitcnt (s : State) : s.finish.bitcnt = s.bitcnt := rfl
@[simp] theorem State.finish_nnodes (s : State) : s.finish.nnodes = s.nnodes := rfl
@[simp] theorem State.finish_node (s : State) : s.finish.node = s.node := rfl
@[simp] theorem State.finish_last (s : State) : s.finish.last = s.last := rfl
@[simp] theorem State.finish_w (s : State) : s.finish.w = s.w := rfl
@[simp] theorem State.finish_cnt (s : State) : s.finish.cnt = s.cnt := rfl
@[simp] theorem State.finish_valid (s : State) : s.finish.valid = s.valid := rfl
@[simp] theorem State.finish_idx (s : State) : s.finish.idx = s.idx := rfl
@[simp] theorem State.finish_cfg (s : State) : s.finish.cfg = s.cfg := rfl
@[simp] theorem State.finish_src (s : State) : s.finish.src = s.src := rfl
@[simp] theorem State.finish_pending (s : State) : s.finish.pending = s.pending := rfl
@[simp] theorem State.finish_draws (s : State) : s.finish.draws = s.draws := rfl

/-! ### setFormat -/

@[simp] theorem State.setFormat_format (f : Format) (n : BitVec 21) (s : State) : (s.setFormat f n).format = f := rfl
@[simp] theorem State.setFormat_payloadSize (f : Format) (n : BitVec 21) (s : State) : (s.setFormat f n).payloadSize = n := rfl
@[simp] theorem State.setFormat_stState (f : Format) (n : BitVec 21) (s : State) : (s.setFormat f n).stState = s.stState := rfl
@[simp] theorem State.setFormat_stErr (f : Format) (n : BitVec 21) (s : State) : (s.setFormat f n).stErr = s.stErr := rfl
@[simp] theorem State.setFormat_ipos (f : Format) (n : BitVec 21) (s : State) : (s.setFormat f n).ipos = s.ipos := rfl
@[simp] theorem State.setFormat_buf (f : Format) (n : BitVec 21) (s : State) : (s.setFormat f n).buf = s.buf := rfl
@[simp] theorem State.setFormat_missing (f : Format) (n : BitVec 21) (s : State) : (s.setFormat f n).missing = s.missing := rfl
@[simp] theorem State.setFormat_navail (f : Format) (n : BitVec 21) (s : State) : (s.setFormat f n).navail = s.navail := rfl
@[simp] theorem State.setFormat_nbit (f : Format) (n : BitVec 21) (s : State) : (s.setFormat f n).nbit = s.nbit := rfl
@[simp] theorem State.setFormat_dictsize (f : Format) (n : BitVec 21) (s : State) : (s.setFormat f n).dictsize = s.dictsize := rfl
@[simp] theorem State.setFormat_pv (f : Format) (n : BitVec 21) (s : State) : (s.setFormat f n).pv = s.pv := rfl
@[simp] theorem State.setFormat_prev (f : Format) (n : BitVec 21) (s : State) : (s.setFormat f n).prev = s.prev := rfl
@[simp] theorem State.setFormat_dict (f : Format) (n : BitVec 21) (s : State) : (s.setFormat f n).dict = s.dict := rfl
@[simp] theorem State.setFormat_out (f : Format) (n : BitVec 21) (s : State) : (s.setFormat f n).out = s.out := rfl
@[simp] theorem State.setFormat_olen (f : Format) (n : BitVec 21) (s : State) : (s.setFormat f n).olen = s.olen := rfl
@[simp] theorem State.setFormat_cur (f : Format) (n : BitVec 21) (s : State) : (s.setFormat f n).cur = s.cur := rfl
@[simp] theorem State.setFormat_bitcnt (f : Format) (n : BitVec 21) (s : State) : (s.setFormat f n).bitcnt = s.bitcnt := rfl
@[simp] theorem State.setFormat_nnodes (f : Format) (n : BitVec 21) (s : State) : (s.setFormat f n).nnodes = s.nnodes := rfl
@[simp] theorem State.setFormat_node (f : Format) (n : BitVec 21) (s : State) : (s.setFormat f n).node = s.node := rfl
@[simp] theorem State.setFormat_last (f : Format) (n : BitVec 21) (s : State) : (s.setFormat f n).last = s.last := rfl
@[simp] theorem State.setFormat_w (f : Format) (n : BitVec 21) (s : State) : (s.setFormat f n).w = s.w := rfl
@[simp] theorem State.setFormat_cnt (f : Format) (n : BitVec 21) (s : State) : (s.setFormat f n).cnt = s.cnt := rfl
@[simp] theorem State.setFormat_valid (f : Format) (n : BitVec 21) (s : State) : (s.setFormat f n).valid = s.valid := rfl
@[simp] theorem State.setFormat_idx (f : Format) (n : BitVec 21) (s : State) : (s.setFormat f n).idx = s.idx := rfl
@[simp] theorem State.setFormat_cfg (f : Format) (n : BitVec 21) (s : State) : (s.setFormat f n).cfg = s.cfg := rfl
@[simp] theorem State.setFormat_src (f : Format) (n : BitVec 21) (s : State) : (s.setFormat f n).src = s.src := rfl
@[simp] theorem State.setFormat_pending (f : Format) (n : BitVec 21) (s : State) : (s.setFormat f n).pending = s.pending := rfl
@[simp] theorem State.setFormat_draws (f : Format) (n : BitVec 21) (s : State) : (s.setFormat f n).draws = s.draws := rfl

/-! ### lzwClear -/

@[simp] theorem State.lzwClear_format (s : State) : s.lzwClear.format = s.format := rfl
@[simp] theorem State.lzwClear_payloadSize (s : State) : s.lzwClear.payloadSize = s.payloadSize := rfl
@[simp] theorem State.lzwClear_stState (s : State) : s.lzwClear.stState = s.stState := rfl
@[simp] theorem State.lzwClear_stErr (s : State) : s.lzwClear.stErr = s.stErr := rfl
@[simp] theorem State.lzwClear_ipos (s : State) : s.lzwClear.ipos = s.ipos := rfl
@[simp] theorem State.lzwClear_buf (s : State) : s.lzwClear.buf = s.buf := rfl
@[simp] theorem State.lzwClear_missing (s : State) : s.lzwClear.missing = s.missing := rfl
@[simp] theorem State.lzwClear_navail (s : State) : s.lzwClear.navail = s.navail := rfl
@[simp] theorem State.lzwClear_nbit (s : State) : s.lzwClear.nbit = BitVec.ofNat 4 nbitMin := rfl
@[simp] theorem State.lzwClear_dictsize (s : State) : s.lzwClear.dictsize = BitVec.ofNat 13 dictInit := rfl
@[simp] theorem State.lzwClear_pv (s : State) : s.lzwClear.pv = false := rfl
@[simp] theorem State.lzwClear_prev (s : State) : s.lzwClear.prev = s.prev := rfl
@[simp] theorem State.lzwClear_dict (s : State) : s.lzwClear.dict = [] := rfl
@[simp] theorem State.lzwClear_out (s : State) : s.lzwClear.out = s.out := rfl
@[simp] theorem State.lzwClear_olen (s : State) : s.lzwClear.olen = s.olen := rfl
@[simp] theorem State.lzwClear_cur (s : State) : s.lzwClear.cur = s.cur := rfl
@[simp] theorem State.lzwClear_bitcnt (s : State) : s.lzwClear.bitcnt = s.bitcnt := rfl
@[simp] theorem State.lzwClear_nnodes (s : State) : s.lzwClear.nnodes = s.nnodes := rfl
@[simp] theorem State.lzwClear_node (s : State) : s.lzwClear.node = s.node := rfl
@[simp] theorem State.lzwClear_last (s : State) : s.lzwClear.last = s.last := rfl
@[simp] theorem State.lzwClear_w (s : State) : s.lzwClear.w = s.w := rfl
@[simp] theorem State.lzwClear_cnt (s : State) : s.lzwClear.cnt = s.cnt := rfl
@[simp] theorem State.lzwClear_valid (s : State) : s.lzwClear.valid = s.valid := rfl
@[simp] theorem State.lzwClear_idx (s : State) : s.lzwClear.idx = s.idx := rfl
@[simp] theorem State.lzwClear_cfg (s : State) : s.lzwClear.cfg = s.cfg := rfl
@[simp] theorem State.lzwClear_src (s : State) : s.lzwClear.src = s.src := rfl
@[simp] theorem State.lzwClear_pending (s : State) : s.lzwClear.pending = s.pending := rfl
@[simp] theorem State.lzwClear_draws (s : State) : s.lzwClear.draws = s.draws := rfl

/-! ### lzwLearn -/

@[simp] theorem State.lzwLearn_format (str : List Byte) (s : State) : (s.lzwLearn str).format = s.format := rfl
@[simp] theorem State.lzwLearn_payloadSize (str : List Byte) (s : State) : (s.lzwLearn str).payloadSize = s.payloadSize := rfl
@[simp] theorem State.lzwLearn_stState (str : List Byte) (s : State) : (s.lzwLearn str).stState = s.stState := rfl
@[simp] theorem State.lzwLearn_stErr (str : List Byte) (s : State) : (s.lzwLearn str).stErr = s.stErr := rfl
@[simp] theorem State.lzwLearn_ipos (str : List Byte) (s : State) : (s.lzwLearn str).ipos = s.ipos := rfl
@[simp] theorem State.lzwLearn_buf (str : List Byte) (s : State) : (s.lzwLearn str).buf = s.buf := rfl
@[simp] theorem State.lzwLearn_missing (str : List Byte) (s : State) : (s.lzwLearn str).missing = s.missing := rfl
@[simp] theorem State.lzwLearn_navail (str : List Byte) (s : State) : (s.lzwLearn str).navail = s.navail := rfl
@[simp] theorem State.lzwLearn_nbit (str : List Byte) (s : State) : (s.lzwLearn str).nbit = s.nbit := rfl
@[simp] theorem State.lzwLearn_dictsize (str : List Byte) (s : State) : (s.lzwLearn str).dictsize = BitVec.ofNat 13 (s.dictsize.toNat + 1) := rfl
@[simp] theorem State.lzwLearn_pv (str : List Byte) (s : State) : (s.lzwLearn str).pv = s.pv := rfl
@[simp] theorem State.lzwLearn_prev (str : List Byte) (s : State) : (s.lzwLearn str).prev = s.prev := rfl
@[simp] theorem State.lzwLearn_dict (str : List Byte) (s : State) : (s.lzwLearn str).dict = s.dict.write s.dictsize.toNat str := rfl
@[simp] theorem State.lzwLearn_out (str : List Byte) (s : State) : (s.lzwLearn str).out = s.out := rfl
@[simp] theorem State.lzwLearn_olen (str : List Byte) (s : State) : (s.lzwLearn str).olen = s.olen := rfl
@[simp] theorem State.lzwLearn_cur (str : List Byte) (s : State) : (s.lzwLearn str).cur = s.cur := rfl
@[simp] theorem State.lzwLearn_bitcnt (str : List Byte) (s : State) : (s.lzwLearn str).bitcnt = s.bitcnt := rfl
@[simp] theorem State.lzwLearn_nnodes (str : List Byte) (s : State) : (s.lzwLearn str).nnodes = s.nnodes := rfl
@[simp] theorem State.lzwLearn_node (str : List Byte) (s : State) : (s.lzwLearn str).node = s.node := rfl
@[simp] theorem State.lzwLearn_last (str : List Byte) (s : State) : (s.lzwLearn str).last = s.last := rfl
@[simp] theorem State.lzwLearn_w (str : List Byte) (s : State) : (s.lzwLearn str).w = s.w := rfl
@[simp] theorem State.lzwLearn_cnt (str : List Byte) (s : State) : (s.lzwLearn str).cnt = s.cnt := rfl
@[simp] theorem State.lzwLearn_valid (str : List Byte) (s : State) : (s.lzwLearn str).valid = s.valid := rfl
@[simp] theorem State.lzwLearn_idx (str : List Byte) (s : State) : (s.lzwLearn str).idx = s.idx := rfl
@[simp] theorem State.lzwLearn_cfg (str : List Byte) (s : State) : (s.lzwLearn str).cfg = s.cfg := rfl
@[simp] theorem State.lzwLearn_src (str : List Byte) (s : State) : (s.lzwLearn str).src = s.src := rfl
@[simp] theorem State.lzwLearn_pending (str : List Byte) (s : State) : (s.lzwLearn str).pending = s.pending := rfl
@[simp] theorem State.lzwLearn_draws (str : List Byte) (s : State) : (s.lzwLearn str).draws = s.draws := rfl

/-! ### r24Take -/

@[simp] theorem State.r24Take_format (n : Nat) (s : State) : (s.r24Take n).format = s.format := rfl
@[simp] theorem State.r24Take_payloadSize (n : Nat) (s : State) : (s.r24Take n).payloadSize = s.payloadSize := rfl
@[simp] theorem State.r24Take_stState (n : Nat) (s : State) : (s.r24Take n).stState = s.stState := rfl
@[simp] theorem State.r24Take_stErr (n : Nat) (s : State) : (s.r24Take n).stErr = s.stErr := rfl
@[simp] theorem State.r24Take_ipos (n : Nat) (s : State) : (s.r24Take n).ipos = s.ipos := rfl
@[simp] theorem State.r24Take_buf (n : Nat) (s : State) : (s.r24Take n).buf = s.buf <<< n := rfl
@[simp] theorem State.r24Take_missing (n : Nat) (s : State) : (s.r24Take n).missing = BitVec.ofNat 5 (s.missing.toNat + n) := rfl
@[simp] theorem State.r24Take_navail (n : Nat) (s : State) : (s.r24Take n).navail = BitVec.ofNat 5 (s.navail.toNat - n) := rfl
@[simp] theorem State.r24Take_nbit (n : Nat) (s : State) : (s.r24Take n).nbit = s.nbit := rfl
@[simp] theorem State.r24Take_dictsize (n : Nat) (s : State) : (s.r24Take n).dictsize = s.dictsize := rfl
@[simp] theorem State.r24Take_pv (n : Nat) (s : State) : (s.r24Take n).pv = s.pv := rfl
@[simp] theorem State.r24Take_prev (n : Nat) (s : State) : (s.r24Take n).prev = s.prev := rfl
@[simp] theorem State.r24Take_dict (n : Nat) (s : State) : (s.r24Take n).dict = s.dict := rfl
@[simp] theorem State.r24Take_out (n : Nat) (s : State) : (s.r24Take n).out = s.out := rfl
@[simp] theorem State.r24Take_olen (n : Nat) (s : State) : (s.r24Take n).olen = s.olen := rfl
@[simp] theorem State.r24Take_cur (n : Nat) (s : State) : (s.r24Take n).cur = s.cur := rfl
@[simp] theorem State.r24Take_bitcnt (n : Nat) (s : State) : (s.r24Take n).bitcnt = s.bitcnt := rfl
@[simp] theorem State.r24Take_nnodes (n : Nat) (s : State) : (s.r24Take n).nnodes = s.nnodes := rfl
@[simp] theorem State.r24Take_node (n : Nat) (s : State) : (s.r24Take n).node = s.node := rfl
@[simp] theorem State.r24Take_last (n : Nat) (s : State) : (s.r24Take n).last = s.last := rfl
@[simp] theorem State.r24Take_w (n : Nat) (s : State) : (s.r24Take n).w = s.w := rfl
@[simp] theorem State.r24Take_cnt (n : Nat) (s : State) : (s.r24Take n).cnt = s.cnt := rfl
@[simp] theorem State.r24Take_valid (n : Nat) (s : State) : (s.r24Take n).valid = s.valid := rfl
@[simp] theorem State.r24Take_idx (n : Nat) (s : State) : (s.r24Take n).idx = s.idx := rfl
@[simp] theorem State.r24Take_cfg (n : Nat) (s : State) : (s.r24Take n).cfg = s.cfg := rfl
@[simp] theorem State.r24Take_src (n : Nat) (s : State) : (s.r24Take n).src = s.src := rfl
@[simp] theorem State.r24Take_pending (n : Nat) (s : State) : (s.r24Take n).pending = s.pending := rfl
@[simp] theorem State.r24Take_draws (n : Nat) (s : State) : (s.r24Take n).draws = s.draws := rfl

/-! ### r16Take -/

@[simp] theorem State.r16Take_format (s : State) : s.r16Take.format = s.format := rfl
@[simp] theorem State.r16Take_payloadSize (s : State) : s.r16Take.payloadSize = s.payloadSize := rfl
@[simp] theorem State.r16Take_stState (s : State) : s.r16Take.stState = s.stState := rfl
@[simp] theorem State.r16Take_stErr (s : State) : s.r16Take.stErr = s.stErr := rfl
@[simp] theorem State.r16Take_ipos (s : State) : s.r16Take.ipos = s.ipos := rfl
@[simp] theorem State.r16Take_buf (s : State) : s.r16Take.buf = s.buf := rfl
@[simp] theorem State.r16Take_missing (s : State) : s.r16Take.missing = s.missing := rfl
@[simp] theorem State.r16Take_navail (s : State) : s.r16Take.navail = s.navail := rfl
@[simp] theorem State.r16Take_nbit (s : State) : s.r16Take.nbit = s.nbit := rfl
@[simp] theorem State.r16Take_dictsize (s : State) : s.r16Take.dictsize = s.dictsize := rfl
@[simp] theorem State.r16Take_pv (s : State) : s.r16Take.pv = s.pv := rfl
@[simp] theorem State.r16Take_prev (s : State) : s.r16Take.prev = s.prev := rfl
@[simp] theorem State.r16Take_dict (s : State) : s.r16Take.dict = s.dict := rfl
@[simp] theorem State.r16Take_out (s : State) : s.r16Take.out = s.out := rfl
@[simp] theorem State.r16Take_olen (s : State) : s.r16Take.olen = s.olen := rfl
@[simp] theorem State.r16Take_cur (s : State) : s.r16Take.cur = s.cur := rfl
@[simp] theorem State.r16Take_bitcnt (s : State) : s.r16Take.bitcnt = s.bitcnt := rfl
@[simp] theorem State.r16Take_nnodes (s : State) : s.r16Take.nnodes = s.nnodes := rfl
@[simp] theorem State.r16Take_node (s : State) : s.r16Take.node = s.node := rfl
@[simp] theorem State.r16Take_last (s : State) : s.r16Take.last = s.last := rfl
@[simp] theorem State.r16Take_w (s : State) : s.r16Take.w = s.w >>> 1 := rfl
@[simp] theorem State.r16Take_cnt (s : State) : s.r16Take.cnt = s.cnt - 1 := rfl
@[simp] theorem State.r16Take_valid (s : State) : s.r16Take.valid = s.valid - 1 := rfl
@[simp] theorem State.r16Take_idx (s : State) : s.r16Take.idx = s.idx := rfl
@[simp] theorem State.r16Take_cfg (s : State) : s.r16Take.cfg = s.cfg := rfl
@[simp] theorem State.r16Take_src (s : State) : s.r16Take.src = s.src := rfl
@[simp] theorem State.r16Take_pending (s : State) : s.r16Take.pending = s.pending := rfl
@[simp] theorem State.r16Take_draws (s : State) : s.r16Take.draws = s.draws := rfl

/-! ### abort: what stays readable -/

@[simp] theorem State.abort_format (k : ErrKind) (s : State) : (s.abort k).format = s.format := rfl
@[simp] theorem State.abort_payloadSize (k : ErrKind) (s : State) : (s.abort k).payloadSize = s.payloadSize := rfl
@[simp] theorem State.abort_stState (k : ErrKind) (s : State) : (s.abort k).stState = .err := rfl
@[simp] theorem State.abort_stErr (k : ErrKind) (s : State) : (s.abort k).stErr = k.code := rfl
@[simp] theorem State.abort_cfg (k : ErrKind) (s : State) : (s.abort k).cfg = s.cfg := rfl
@[simp] theorem State.abort_src (k : ErrKind) (s : State) : (s.abort k).src = s.src := rfl
@[simp] theorem State.abort_pending (k : ErrKind) (s : State) : (s.abort k).pending = s.pending := rfl
@[simp] theorem State.abort_draws (k : ErrKind) (s : State) : (s.abort k).draws = s.draws + 1 := rfl

/-! ### resetForCall: the table of 10_state R41 -/

@[simp] theorem State.resetForCall_format (c : Call) (rest : List Call) (s : State) :
    (s.resetForCall c rest).format = .none := rfl
@[simp] theorem State.resetForCall_payloadSize (c : Call) (rest : List Call) (s : State) :
    (s.resetForCall c rest).payloadSize = 0 := rfl
@[simp] theorem State.resetForCall_stState (c : Call) (rest : List Call) (s : State) :
    (s.resetForCall c rest).stState = .run := rfl
@[simp] theorem State.resetForCall_stErr (c : Call) (rest : List Call) (s : State) :
    (s.resetForCall c rest).stErr = 0 := rfl
@[simp] theorem State.resetForCall_ipos (c : Call) (rest : List Call) (s : State) :
    (s.resetForCall c rest).ipos = 0 := rfl
@[simp] theorem State.resetForCall_buf (c : Call) (rest : List Call) (s : State) :
    (s.resetForCall c rest).buf = 0 := rfl
@[simp] theorem State.resetForCall_missing (c : Call) (rest : List Call) (s : State) :
    (s.resetForCall c rest).missing = 0 := rfl
@[simp] theorem State.resetForCall_navail (c : Call) (rest : List Call) (s : State) :
    (s.resetForCall c rest).navail = 0 := rfl
@[simp] theorem State.resetForCall_nbit (c : Call) (rest : List Call) (s : State) :
    (s.resetForCall c rest).nbit = 9 := rfl
@[simp] theorem State.resetForCall_dictsize (c : Call) (rest : List Call) (s : State) :
    (s.resetForCall c rest).dictsize = 0x102 := rfl
@[simp] theorem State.resetForCall_pv (c : Call) (rest : List Call) (s : State) :
    (s.resetForCall c rest).pv = false := rfl
@[simp] theorem State.resetForCall_prev (c : Call) (rest : List Call) (s : State) :
    (s.resetForCall c rest).prev = 0 := rfl
@[simp] theorem State.resetForCall_dict (c : Call) (rest : List Call) (s : State) :
    (s.resetForCall c rest).dict = [] := rfl
@[simp] theorem State.resetForCall_out (c : Call) (rest : List Call) (s : State) :
    (s.resetForCall c rest).out = [] := rfl
@[simp] theorem State.resetForCall_olen (c : Call) (rest : List Call) (s : State) :
    (s.resetForCall c rest).olen = 0 := rfl
@[simp] theorem State.resetForCall_cur (c : Call) (rest : List Call) (s : State) :
    (s.resetForCall c rest).cur = 0 := rfl
@[simp] theorem State.resetForCall_bitcnt (c : Call) (rest : List Call) (s : State) :
    (s.resetForCall c rest).bitcnt = 0 := rfl
@[simp] theorem State.resetForCall_nnodes (c : Call) (rest : List Call) (s : State) :
    (s.resetForCall c rest).nnodes = 0 := rfl
@[simp] theorem State.resetForCall_node (c : Call) (rest : List Call) (s : State) :
    (s.resetForCall c rest).node = [] := rfl
@[simp] theorem State.resetForCall_last (c : Call) (rest : List Call) (s : State) :
    (s.resetForCall c rest).last = 0 := rfl
@[simp] theorem State.resetForCall_w (c : Call) (rest : List Call) (s : State) :
    (s.resetForCall c rest).w = 0 := rfl
@[simp] theorem State.resetForCall_cnt (c : Call) (rest : List Call) (s : State) :
    (s.resetForCall c rest).cnt = 0 := rfl
@[simp] theorem State.resetForCall_valid (c : Call) (rest : List Call) (s : State) :
    (s.resetForCall c rest).valid = 0 := rfl
@[simp] theorem State.resetForCall_idx (c : Call) (rest : List Call) (s : State) :
    (s.resetForCall c rest).idx = 0 := rfl
@[simp] theorem State.resetForCall_cfg (c : Call) (rest : List Call) (s : State) :
    (s.resetForCall c rest).cfg = c.cfg := rfl
@[simp] theorem State.resetForCall_src (c : Call) (rest : List Call) (s : State) :
    (s.resetForCall c rest).src = c.src := rfl
@[simp] theorem State.resetForCall_pending (c : Call) (rest : List Call) (s : State) :
    (s.resetForCall c rest).pending = rest := rfl
@[simp] theorem State.resetForCall_draws (c : Call) (rest : List Call) (s : State) :
    (s.resetForCall c rest).draws = s.draws := rfl

/-! ### Res -/

@[simp] theorem Res.bind_ok {α β : Type} (a : α) (s : State) (next : α → State → Res β) :
    (Res.ok a s).bind next = next a s := rfl

@[simp] theorem Res.bind_raise {α β : Type} (k : ErrKind) (next : α → State → Res β) :
    (Res.raise k).bind next = .raise k := rfl

@[simp] theorem Res.bind_fault {α β : Type} (f : Fault) (next : α → State → Res β) :
    (Res.fault f).bind next = .fault f := rfl

@[simp] theorem Res.outcome_ok (a : Unit) (s s' : State) : (Res.ok a s').outcome s = .next s' := rfl

@[simp] theorem Res.outcome_raise (s : State) (k : ErrKind) :
    (Res.raise k : Res Unit).outcome s = .next (s.abort k) := rfl

@[simp] theorem Res.outcome_fault (s : State) (f : Fault) : (Res.fault f : Res Unit).outcome s = .fault f := rfl

/-- A sequence answers `ok` exactly when both parts do. -/
theorem Res.bind_eq_ok {α β : Type} {r : Res α} {next : α → State → Res β} {b : β} {t : State} :
    r.bind next = .ok b t ↔ ∃ a s, r = .ok a s ∧ next a s = .ok b t := by
  cases r <;> simp

/-- The end of a step is a next state exactly when the operation answered it or raised a kind. -/
theorem Res.outcome_eq_next {s t : State} {r : Res Unit} :
    r.outcome s = .next t ↔ r = .ok () t ∨ ∃ k, r = .raise k ∧ t = s.abort k := by
  cases r <;> simp [eq_comm]

end Sys2Proof.Machine
end

