-- ==== Sys2Proof/Laws/Memory.lean ====
section
/-! SUPPORT. The sparse memories: what a listed key reads as after an insert or an erase, and that every memory operation
keeps the canonical form (log 7, log 8). -/

namespace Sys2Proof.Machine

section Cells
variable {β : Type}

theorem Cells.find_insert (k c : Nat) (v : β) (m : List (Nat × β)) :
    Cells.find c (Cells.insert k v m) = if c = k then some v else Cells.find c m := by
  induction m with
  | nil => simp [Cells.insert, Cells.find, eq_comm]
  | cons e m ih =>
    obtain ⟨a, x⟩ := e
    simp only [eq_comm (a := c)] at ih ⊢
    simp only [Cells.insert]
    split
    · simp only [Cells.find]
    · split
      · subst_vars
        simp only [Cells.find]
        split <;> rfl
      · simp only [Cells.find, ih]
        have : k ≠ a := by assumption
        split
        · rw [if_neg (by omega)]
        · rfl

theorem Cells.find_of_lt {k : Nat} {m : List (Nat × β)} (h : ∀ e ∈ m, k < e.1) : Cells.find k m = none := by
  induction m with
  | nil => rfl
  | cons e m ih =>
    obtain ⟨a, x⟩ := e
    have : k < a := h (a, x) (by simp)
    simp only [Cells.find]
    rw [if_neg (by omega), ih fun e he => h e (by simp [he])]

theorem Cells.find_erase {m : List (Nat × β)} (hm : Cells.rising m) (k c : Nat) :
    Cells.find c (Cells.erase k m) = if c = k then none else Cells.find c m := by
  induction m with
  | nil => simp [Cells.erase, Cells.find]
  | cons e m ih =>
    obtain ⟨a, x⟩ := e
    rw [Cells.rising, List.pairwise_cons] at hm
    simp only [Cells.erase]
    split
    · subst_vars
      simp only [Cells.find]
      split
      · subst_vars; exact Cells.find_of_lt hm.1
      · rw [if_neg (by omega)]
    · simp only [Cells.find, ih hm.2]
      split
      · rw [if_neg (by omega)]
      · rfl

theorem Cells.mem_insert {k : Nat} {v : β} {m : List (Nat × β)} {e : Nat × β} (h : e ∈ Cells.insert k v m) :
    e = (k, v) ∨ e ∈ m := by
  induction m with
  | nil => simpa [Cells.insert] using h
  | cons d m ih =>
    obtain ⟨a, x⟩ := d
    simp only [Cells.insert] at h
    split at h
    · simpa using h
    · split at h
      · rcases List.mem_cons.1 h with h | h
        · exact .inl h
        · exact .inr (List.mem_cons_of_mem _ h)
      · rcases List.mem_cons.1 h with h | h
        · exact .inr (by simp [h])
        · rcases ih h with h | h
          · exact .inl h
          · exact .inr (List.mem_cons_of_mem _ h)

theorem Cells.mem_erase {k : Nat} {m : List (Nat × β)} {e : Nat × β} (h : e ∈ Cells.erase k m) : e ∈ m := by
  induction m with
  | nil => simp [Cells.erase] at h
  | cons d m ih =>
    obtain ⟨a, x⟩ := d
    simp only [Cells.erase] at h
    split at h
    · exact List.mem_cons_of_mem _ h
    · rcases List.mem_cons.1 h with h | h
      · simp [h]
      · exact List.mem_cons_of_mem _ (ih h)

theorem Cells.rising_insert {k : Nat} {v : β} {m : List (Nat × β)} (hm : Cells.rising m) :
    Cells.rising (Cells.insert k v m) := by
  induction m with
  | nil => simp [Cells.insert, Cells.rising]
  | cons d m ih =>
    obtain ⟨a, x⟩ := d
    have h := hm
    rw [Cells.rising, List.pairwise_cons] at hm
    simp only [Cells.insert]
    split
    · rw [Cells.rising, List.pairwise_cons]
      refine ⟨fun e he => ?_, h⟩
      rcases List.mem_cons.1 he with rfl | he
      · assumption
      · have := hm.1 e he; simp at *; omega
    · split
      · rw [Cells.rising, List.pairwise_cons]
        exact ⟨fun e he => by have := hm.1 e he; simp at *; omega, hm.2⟩
      · rw [Cells.rising, List.pairwise_cons]
        refine ⟨fun e he => ?_, ih hm.2⟩
        rcases Cells.mem_insert he with rfl | he
        · simp; omega
        · exact hm.1 e he

theorem Cells.rising_erase {k : Nat} {m : List (Nat × β)} (hm : Cells.rising m) : Cells.rising (Cells.erase k m) := by
  induction m with
  | nil => simp [Cells.erase, Cells.rising]
  | cons d m ih =>
    obtain ⟨a, x⟩ := d
    rw [Cells.rising, List.pairwise_cons] at hm
    simp only [Cells.erase]
    split
    · exact hm.2
    · rw [Cells.rising, List.pairwise_cons]
      exact ⟨fun e he => hm.1 e (Cells.mem_erase he), ih hm.2⟩

/-- An insert above every listed key goes to the end. -/
theorem Cells.insert_last {k : Nat} {v : β} {m : List (Nat × β)} (h : ∀ e ∈ m, e.1 < k) :
    Cells.insert k v m = m ++ [(k, v)] := by
  induction m with
  | nil => rfl
  | cons d m ih =>
    obtain ⟨a, x⟩ := d
    have : a < k := h (a, x) (by simp)
    simp only [Cells.insert]
    rw [if_neg (by omega), if_neg (by omega), ih fun e he => h e (by simp [he])]
    rfl

theorem Cells.find_mem {k : Nat} {v : β} {m : List (Nat × β)} (h : Cells.find k m = some v) : (k, v) ∈ m := by
  induction m with
  | nil => simp [Cells.find] at h
  | cons d m ih =>
    obtain ⟨a, x⟩ := d
    simp only [Cells.find] at h
    split at h
    · simp_all
    · exact List.mem_cons_of_mem _ (ih h)

theorem Cells.find_isSome {k : Nat} {m : List (Nat × β)} : (Cells.find k m).isSome = true ↔ k ∈ m.map Prod.fst := by
  induction m with
  | nil => simp [Cells.find]
  | cons d m ih =>
    obtain ⟨a, x⟩ := d
    simp only [Cells.find, List.map_cons, List.mem_cons]
    split
    · subst_vars; simp
    · rw [ih]; constructor
      · exact fun h => .inr h
      · rintro (h | h)
        · exact absurd h.symm (by assumption)
        · exact h

end Cells

/-! ### Byte memories -/

@[simp] theorem Memory.read_nil (a : Nat) : Memory.read a [] = 0 := rfl

theorem Memory.wf_nil : Memory.wf [] := by simp [Memory.wf, Cells.rising]

/-- Every write keeps the canonical form. -/
theorem Memory.wf_write {m : Memory} (hm : m.wf) (a : Nat) (b : Byte) : (m.write a b).wf := by
  unfold Memory.write
  split
  · exact ⟨Cells.rising_erase hm.1, fun c hc => hm.2 c (Cells.mem_erase hc)⟩
  · refine ⟨Cells.rising_insert hm.1, fun c hc => ?_⟩
    rcases Cells.mem_insert hc with rfl | hc
    · assumption
    · exact hm.2 c hc

/-- A write lists nothing at an address other than the one written or one listed before. -/
theorem Memory.mem_write {m : Memory} {a : Nat} {b : Byte} {c : Host.Cell} (h : c ∈ m.write a b) :
    c.1 = a ∨ c ∈ m := by
  unfold Memory.write at h
  split at h
  · exact .inr (Cells.mem_erase h)
  · rcases Cells.mem_insert h with rfl | h
    · exact .inl rfl
    · exact .inr h

theorem Memory.wf_foldl (cells : List (Nat × Byte)) {m : Memory} (hm : m.wf) :
    Memory.wf (cells.foldl (fun m c => m.write c.1 c.2) m) := by
  induction cells generalizing m with
  | nil => exact hm
  | cons c cells ih => exact ih (Memory.wf_write hm _ _)

/-- A free content is in canonical form (log 6). -/
theorem Memory.wf_ofCells (cells : List (Nat × Byte)) : (Memory.ofCells cells).wf :=
  Memory.wf_foldl cells Memory.wf_nil

theorem Memory.ofBytes_range (bytes : List Byte) (a : Nat) :
    ∀ c ∈ Memory.ofBytes a bytes, a ≤ c.1 ∧ c.1 < a + bytes.length := by
  induction bytes generalizing a with
  | nil => simp [Memory.ofBytes]
  | cons b rest ih =>
    intro c hc
    simp only [Memory.ofBytes] at hc
    split at hc
    · have := ih (a + 1) c hc; simp; omega
    · rcases List.mem_cons.1 hc with rfl | hc
      · simp
      · have := ih (a + 1) c hc; simp; omega

theorem Memory.wf_ofBytes (bytes : List Byte) (a : Nat) : (Memory.ofBytes a bytes).wf := by
  induction bytes generalizing a with
  | nil => exact Memory.wf_nil
  | cons b rest ih =>
    simp only [Memory.ofBytes]
    split
    · exact ih (a + 1)
    · refine ⟨?_, fun c hc => ?_⟩
      · rw [Cells.rising, List.pairwise_cons]
        exact ⟨fun c hc => by have := Memory.ofBytes_range rest (a + 1) c hc; simp; omega, (ih (a + 1)).1⟩
      · rcases List.mem_cons.1 hc with rfl | hc
        · assumption
        · exact (ih (a + 1)).2 c hc

/-- A source built from a byte string is in canonical form. -/
theorem Source.wf_ofBytes (bytes : List Byte) : (Source.ofBytes bytes).wf = true := by
  simp only [Source.ofBytes, Source.wf, decide_eq_true_eq]
  exact ⟨Memory.wf_ofBytes bytes 0, fun c hc => by have := Memory.ofBytes_range bytes 0 c hc; omega⟩

/-- An address above every listed one reads blank. -/
theorem Memory.read_above {m : Memory} {n a : Nat} (h : ∀ c ∈ m, c.1 < n) (ha : n ≤ a) : m.read a = 0 := by
  unfold Memory.read
  cases hf : Cells.find a m with
  | none => rfl
  | some v => have := h _ (Cells.find_mem hf); simp at this; omega

@[simp] theorem Memory.take_length (m : Memory) (a n : Nat) : (m.take a n).length = n := by
  induction n generalizing a with
  | zero => rfl
  | succ n ih => simp [Memory.take, ih]

theorem Memory.take_getElem (m : Memory) (a n k : Nat) (h : k < (m.take a n).length) :
    (m.take a n)[k] = m.read (a + k) := by
  induction n generalizing a k with
  | zero => simp [Memory.take] at h
  | succ n ih =>
    cases k with
    | zero => simp [Memory.take]
    | succ k =>
      simp only [Memory.take, List.getElem_cons_succ]
      rw [ih]
      congr 1
      omega

/-! ### The dictionary -/

theorem Dict.wf_nil : Dict.wf [] := by simp [Dict.wf, Cells.rising]

/-- Every write keeps the canonical form. -/
theorem Dict.wf_write {d : Dict} (hd : d.wf) (c : Nat) (str : List Byte) : (d.write c str).wf := by
  unfold Dict.write
  split
  · exact hd
  · refine ⟨Cells.rising_insert hd.1, fun e he => ?_⟩
    rcases Cells.mem_insert he with rfl | he
    · simp; omega
    · exact hd.2 e he

theorem Dict.wf_foldl (entries : List (Nat × List Byte)) {d : Dict} (hd : d.wf) :
    Dict.wf (entries.foldl (fun d e => d.write e.1 e.2) d) := by
  induction entries generalizing d with
  | nil => exact hd
  | cons e entries ih => exact ih (Dict.wf_write hd _ _)

/-- A free content is in canonical form (log 6). -/
theorem Dict.wf_ofEntries (entries : List (Nat × List Byte)) : (Dict.ofEntries entries).wf :=
  Dict.wf_foldl entries Dict.wf_nil

/-- The empty list of learned entries reads as the 256 singletons (10_state R31). -/
theorem Dict.read_nil (c : Nat) : Dict.read c [] = if c ≤ 0xFF then some [BitVec.ofNat 8 c] else none := by
  unfold Dict.read
  split
  · rw [if_pos (by omega)]
  · rw [if_neg (by omega)]; rfl

/-- An abort leaves memories in canonical form (log 6). -/
theorem State.abort_out_wf (k : ErrKind) (s : State) : (s.abort k).out.wf := Memory.wf_ofCells _

theorem State.abort_dict_wf (k : ErrKind) (s : State) : (s.abort k).dict.wf := Dict.wf_ofEntries _

end Sys2Proof.Machine
end

