-- ==== Sys2Proof/Laws/Ops.lean ====
section
/-! SUPPORT. What each shared operation of Machine/Ops.lean can do, said once. -/

namespace Sys2Proof.Machine

/-! ### InRead -/

theorem State.exhausted_iff (s : State) : s.exhausted = true ↔ s.inLen ≤ s.ipos := by simp [State.exhausted]

theorem State.not_exhausted_iff (s : State) : s.exhausted = false ↔ s.ipos < s.inLen := by simp [State.exhausted]

theorem State.inRead_none {s : State} (h : s.inLen ≤ s.ipos) : s.inRead = none := by
  simp [State.inRead, (State.exhausted_iff s).2 h]

theorem State.inRead_some {s : State} (h : s.ipos < s.inLen) :
    s.inRead = some (s.inByte s.ipos, { s with ipos := s.ipos + 1 }) := by
  simp [State.inRead, (State.not_exhausted_iff s).2 h]

theorem State.inReadRequired_raise {s : State} (h : s.inLen ≤ s.ipos) :
    s.inReadRequired = .raise .truncatedStream := by
  simp [State.inReadRequired, State.inRead_none h]

theorem State.inReadRequired_ok {s : State} (h : s.ipos < s.inLen) :
    s.inReadRequired = .ok (s.inByte s.ipos) { s with ipos := s.ipos + 1 } := by
  simp [State.inReadRequired, State.inRead_some h]

/-- A required byte is read, or the stream is exhausted. -/
theorem State.inReadRequired_cases (s : State) :
    (s.ipos < s.inLen ∧ s.inReadRequired = .ok (s.inByte s.ipos) { s with ipos := s.ipos + 1 }) ∨
      (s.inLen ≤ s.ipos ∧ s.inReadRequired = .raise .truncatedStream) := by
  rcases Nat.lt_or_ge s.ipos s.inLen with h | h
  · exact .inl ⟨h, State.inReadRequired_ok h⟩
  · exact .inr ⟨h, State.inReadRequired_raise h⟩

/-! ### OutAppend, EMIT and runs -/

/-- A run is the emission of as many copies. -/
theorem State.appendRun_eq_emit (b : Byte) (n : Nat) (s : State) :
    s.appendRun b n = s.emit (List.replicate n b) := by
  induction n generalizing s with
  | zero => rfl
  | succ n ih =>
    simp only [State.appendRun, List.replicate_succ, State.emit]
    congr 1
    funext _ s'
    exact ih s'

theorem State.outAppend_ok {s : State} (b : Byte) (h : s.outFull = false) :
    s.outAppend b = .ok () { s with out := s.out.write s.olen b, olen := s.olen + 1 } := by
  simp [State.outAppend, h]

theorem State.outAppend_raise {s : State} (b : Byte) (h : s.outFull = true) :
    s.outAppend b = .raise .outputOverflow := by
  simp [State.outAppend, h]

theorem State.Appended.nil (s : State) : s.Appended [] s where
  olen := by simp
  bytes := by simp
  others := by simp

theorem Memory.read_write {m : Memory} (hm : m.wf) (a c : Nat) (b : Byte) :
    (m.write a b).read c = if c = a then b else m.read c := by
  unfold Memory.read Memory.write
  split
  · rename_i hb
    rw [Cells.find_erase hm.1]
    split
    · simp [hb]
    · rfl
  · rw [Cells.find_insert]
    split <;> rfl

/-- What an emission that completes has done. -/
theorem State.emit_eq_ok {str : List Byte} {s t : State} {a : Unit} (hs : s.out.wf) (h : s.emit str = .ok a t) :
    s.Appended str t ∧ t = { s with out := t.out, olen := t.olen } ∧ t.out.wf ∧
      (s.OutBelow s.olen → t.OutBelow t.olen) := by
  induction str generalizing s with
  | nil =>
    simp only [State.emit, Res.ok.injEq] at h
    obtain ⟨-, rfl⟩ := h
    exact ⟨State.Appended.nil s, rfl, hs, id⟩
  | cons b rest ih =>
    cases hf : s.outFull with
    | true => simp [State.emit, State.outAppend_raise b hf] at h
    | false =>
      simp only [State.emit, State.outAppend_ok b hf, Res.bind_ok] at h
      obtain ⟨happ, heq, hwf, hbelow⟩ := ih (Memory.wf_write hs s.olen b) h
      refine ⟨⟨?_, ?_, ?_⟩, ?_, hwf, ?_⟩
      · have := happ.olen; simp at this ⊢; omega
      · intro i hi
        cases i with
        | zero =>
          have := happ.others s.olen (by simp)
          simp only [Nat.add_zero, List.getElem_cons_zero]
          rw [this, Memory.read_write hs, if_pos rfl]
        | succ i =>
          have := happ.bytes i (by simpa using hi)
          simp only [List.getElem_cons_succ]
          rw [← this]
          simp only
          congr 1
          omega
      · intro c hc
        have := happ.others c (by simp at hc ⊢; omega)
        rw [this, Memory.read_write hs, if_neg (by simp at hc; omega)]
      · rw [heq]
      · intro hb
        apply hbelow
        intro c hc
        rcases Memory.mem_write hc with h | h
        · simp [h]
        · have := hb c h; simp; omega

/-- An emission completes where there is room. -/
theorem State.emit_ok_of_room {str : List Byte} {s : State} (h : s.Room str.length) : ∃ t, s.emit str = .ok () t := by
  induction str generalizing s with
  | nil => exact ⟨s, rfl⟩
  | cons b rest ih =>
    have hf : s.outFull = false := by
      simp only [State.outFull, decide_eq_false_iff_not]
      intro hc
      have := h _ hc
      simp at this
    simp only [State.emit, State.outAppend_ok b hf, Res.bind_ok]
    apply ih
    intro cap hc
    have := h cap hc
    simp at this ⊢
    omega

/-- An emission that meets the capacity raises `OutputOverflow` (60_exceptions R306). -/
theorem State.emit_raise_of_noRoom {str : List Byte} {s : State} (h : s.NoRoom str.length) :
    s.emit str = .raise .outputOverflow := by
  induction str generalizing s with
  | nil =>
    obtain ⟨cap, -, h1, h2⟩ := h
    simp at h2
    omega
  | cons b rest ih =>
    obtain ⟨cap, hc, h1, h2⟩ := h
    cases hf : s.outFull with
    | true => simp [State.emit, State.outAppend_raise b hf]
    | false =>
      simp only [State.emit, State.outAppend_ok b hf, Res.bind_ok]
      apply ih
      have hne : cap ≠ s.olen := by
        rintro rfl
        simp [State.outFull, hc] at hf
      exact ⟨cap, hc, by simp; omega, by simp at h2 ⊢; omega⟩

/-- An emission either completes or raises `OutputOverflow`; it never stops. -/
theorem State.emit_cases (str : List Byte) (s : State) :
    (∃ t, s.emit str = .ok () t) ∨ s.emit str = .raise .outputOverflow := by
  induction str generalizing s with
  | nil => exact .inl ⟨s, rfl⟩
  | cons b rest ih =>
    cases hf : s.outFull with
    | true => exact .inr (by simp [State.emit, State.outAppend_raise b hf])
    | false =>
      simp only [State.emit, State.outAppend_ok b hf, Res.bind_ok]
      exact ih _

/-! ### The abort -/

/-- What an abort leaves readable (60_exceptions R310, 10_state R23). -/
theorem State.aborted_abort (k : ErrKind) (s : State) : s.Aborted k (s.abort k) where
  stState := rfl
  stErr := rfl
  format := rfl
  payloadSize := rfl
  cfg := rfl
  src := rfl
  pending := rfl

/-- An abort keeps the invariant: it leaves no running call. -/
theorem State.inv_abort {s : State} (k : ErrKind) (h : s.MemOk) : (s.abort k).Inv where
  mem := ⟨State.abort_out_wf k s, State.abort_dict_wf k s, h.src, h.pending⟩
  status := ⟨by cases k <;> simp [ErrKind.code], by cases k <;> simp [ErrKind.code]⟩
  run := by simp

/-- The state at power-on meets the invariant. -/
theorem State.inv_powerOn {calls : List Call} (draws : Nat) (h : ∀ c ∈ calls, c.src.wf = true) :
    (State.powerOn calls draws).Inv where
  mem := by
    refine ⟨Memory.wf_ofCells _, Dict.wf_ofEntries _, ?_, h⟩
    show (Source.free draws).wf = true
    unfold Source.free
    split
    · rfl
    · exact Source.wf_ofBytes _
  status := ⟨by simp [State.powerOn], by simp [State.powerOn]⟩
  run := by simp [State.powerOn]

/-- The normal end of a call keeps the invariant. -/
theorem State.inv_finish {s : State} (h : s.MemOk) : s.finish.Inv where
  mem := ⟨h.out, h.dict, h.src, h.pending⟩
  status := ⟨by simp, by simp⟩
  run := by simp

end Sys2Proof.Machine
end

