-- ==== Sys2Proof/Laws/BitReaders.lean ====
section
/-! SUPPORT. What each operation of the bit readers `RMSB` and `R16` of Machine/Readers.lean can do, said once. -/

namespace Sys2Proof.Machine

/-! ### RMSB -/

/-- A state with another stream cursor and other registers of `RMSB`. -/
def State.withRmsb (s : State) (i : Nat) (c : Byte) (n : BitVec 4) : State :=
  { s with ipos := i, cur := c, bitcnt := n }

/-- A state that differs from another in `ipos` and the registers of `RMSB` only. -/
def State.OnlyRmsb (s t : State) : Prop := t = s.withRmsb t.ipos t.cur t.bitcnt

theorem State.OnlyRmsb.refl (s : State) : s.OnlyRmsb s := rfl

theorem State.OnlyRmsb.trans {s t u : State} (h : s.OnlyRmsb t) (h' : t.OnlyRmsb u) : s.OnlyRmsb u := by
  unfold State.OnlyRmsb at *
  rw [h', h]
  rfl

/-- `RMSB.BIT` takes a bit of `cur`, or of the next byte of the stream, or raises `TruncatedStream` at the end of the
stream (41_bit_readers R156). -/
theorem State.rmsbBit_cases (s : State) :
    (s.bitcnt ≠ 0 ∧ s.rmsbBit = .ok (s.cur.getLsbD 7) (s.withRmsb s.ipos (s.cur <<< 1) (s.bitcnt - 1))) ∨
    (s.bitcnt = 0 ∧ s.ipos < s.inLen ∧
      s.rmsbBit = .ok ((s.inByte s.ipos).getLsbD 7) (s.withRmsb (s.ipos + 1) (s.inByte s.ipos <<< 1) 7)) ∨
    (s.rmsbEos = true ∧ s.rmsbBit = .raise .truncatedStream) := by
  by_cases hb : s.bitcnt = 0
  · rcases s.inReadRequired_cases with ⟨hlt, hr⟩ | ⟨hge, hr⟩
    · refine .inr (.inl ⟨hb, hlt, ?_⟩)
      simp only [State.rmsbBit, if_pos hb, hr, Res.bind_ok]
      simp [State.rmsbTake, State.withRmsb]
    · refine .inr (.inr ⟨?_, ?_⟩)
      · simp [State.rmsbEos, hb, (State.exhausted_iff s).2 hge]
      · simp only [State.rmsbBit, if_pos hb, hr, Res.bind_raise]
  · exact .inl ⟨hb, by simp only [State.rmsbBit, if_neg hb]; rfl⟩

/-- What a delivered bit changes (41_bit_readers R156). -/
theorem State.rmsbBit_ok {s t : State} {b : Bool} (h : s.rmsbBit = .ok b t) :
    s.OnlyRmsb t ∧ t.rmsbBitsLeft + 1 = s.rmsbBitsLeft ∧ s.ipos ≤ t.ipos ∧ (s.ipos ≤ s.inLen → t.ipos ≤ t.inLen) ∧
      (s.bitcnt.toNat ≤ 7 → t.bitcnt.toNat ≤ 7) ∧ s.rmsbEos = false := by
  rcases s.rmsbBit_cases with ⟨hb, hr⟩ | ⟨hb, hlt, hr⟩ | ⟨-, hr⟩ <;> rw [hr] at h
  · cases h
    have hn : s.bitcnt.toNat ≠ 0 := fun hc => hb (BitVec.eq_of_toNat_eq (by simpa using hc))
    have : (s.bitcnt - 1).toNat = s.bitcnt.toNat - 1 := by
      rw [BitVec.toNat_sub]; have := s.bitcnt.isLt; simp; omega
    refine ⟨rfl, ?_, Nat.le_refl _, fun h => h, ?_, ?_⟩
    · show (s.bitcnt - 1).toNat + 8 * (s.inLen - s.ipos) + 1 = s.bitcnt.toNat + 8 * (s.inLen - s.ipos)
      omega
    · show _ → (s.bitcnt - 1).toNat ≤ 7
      omega
    · simpa [State.rmsbEos] using fun hc => absurd hc hb
  · cases h
    have hn : s.bitcnt.toNat = 0 := by rw [hb]; rfl
    refine ⟨rfl, ?_, Nat.le_succ _, fun _ => hlt, fun _ => by simp [State.withRmsb], ?_⟩
    · show (7 : BitVec 4).toNat + 8 * (s.inLen - (s.ipos + 1)) + 1 = s.bitcnt.toNat + 8 * (s.inLen - s.ipos)
      have : (7 : BitVec 4).toNat = 7 := rfl
      omega
    · simp [State.rmsbEos, State.exhausted, hlt]
  · cases h

/-- A bit is delivered unless the stream is used up. -/
theorem State.rmsbBit_of_not_eos {s : State} (h : s.rmsbEos = false) : ∃ b t, s.rmsbBit = .ok b t := by
  rcases s.rmsbBit_cases with ⟨-, hr⟩ | ⟨-, -, hr⟩ | ⟨he, -⟩
  · exact ⟨_, _, hr⟩
  · exact ⟨_, _, hr⟩
  · simp [h] at he

theorem State.rmsbEos_iff (s : State) : s.rmsbEos = true ↔ s.rmsbBitsLeft = 0 := by
  simp only [State.rmsbEos, State.rmsbBitsLeft, State.exhausted, Bool.and_eq_true, decide_eq_true_eq]
  constructor
  · rintro ⟨h1, h2⟩
    rw [h1]; simp; omega
  · intro h
    exact ⟨BitVec.eq_of_toNat_eq (by simp; omega), by omega⟩

/-! ### R16 -/

/-- A state with another stream cursor and other registers of `R16`. -/
def State.withR16 (s : State) (i : Nat) (w : BitVec 16) (c v : BitVec 5) : State :=
  { s with ipos := i, w := w, cnt := c, valid := v }

/-- A state that differs from another in `ipos` and the registers of `R16` only. -/
def State.OnlyR16 (s t : State) : Prop := t = s.withR16 t.ipos t.w t.cnt t.valid

theorem State.OnlyR16.refl (s : State) : s.OnlyR16 s := rfl

theorem State.OnlyR16.trans {s t u : State} (h : s.OnlyR16 t) (h' : t.OnlyR16 u) : s.OnlyR16 u := by
  unfold State.OnlyR16 at *
  rw [h', h]
  rfl

/-- What `R16.FILL` leaves, by how many bytes the stream still has (41_bit_readers R158). -/
theorem State.r16Fill_eq (s : State) :
    s.r16Fill =
      if s.ipos + 1 < s.inLen then s.withR16 (s.ipos + 2) (word16 (s.inByte s.ipos) (s.inByte (s.ipos + 1))) 16 16
      else if s.ipos < s.inLen then s.withR16 (s.ipos + 1) ((s.inByte s.ipos).setWidth 16) 16 8
      else s.withR16 s.ipos 0 16 0 := by
  by_cases h0 : s.ipos < s.inLen
  · have e0 := State.inRead_some h0
    by_cases h1 : s.ipos + 1 < s.inLen
    · have e1 := State.inRead_some (s := ({ s with ipos := s.ipos + 1 } : State)) h1
      rw [if_pos h1]
      simp only [State.r16Fill, e0, e1]
      rfl
    · have e1 := State.inRead_none (s := ({ s with ipos := s.ipos + 1 } : State)) (Nat.le_of_not_lt h1)
      rw [if_neg h1, if_pos h0]
      simp only [State.r16Fill, e0, e1]
      rfl
  · have e0 := State.inRead_none (s := s) (Nat.le_of_not_lt h0)
    rw [if_neg (by omega), if_neg h0]
    simp only [State.r16Fill, e0]
    rfl

/-- After a fill the word has 16 bits, the real ones first (41_bit_readers R158). -/
theorem State.r16Fill_spec {s : State} (hi : s.ipos ≤ s.inLen) :
    s.OnlyR16 s.r16Fill ∧ s.ipos ≤ s.r16Fill.ipos ∧ s.r16Fill.ipos ≤ s.inLen ∧ s.r16Fill.cnt = 16 ∧
      s.r16Fill.valid.toNat = 8 * (s.r16Fill.ipos - s.ipos) ∧ s.r16Fill.valid.toNat ≤ 16 ∧
      s.r16Fill.w.toNat < 2 ^ s.r16Fill.valid.toNat := by
  rw [State.r16Fill_eq]
  split
  · rename_i h
    refine ⟨rfl, by simp [State.withR16], h, rfl, ?_, by simp [State.withR16], ?_⟩
    · simp [State.withR16]
    · exact BitVec.isLt _
  · split
    · rename_i h
      refine ⟨rfl, by simp [State.withR16], h, rfl, ?_, by simp [State.withR16], ?_⟩
      · simp [State.withR16]
      · have := (s.inByte s.ipos).isLt
        simp [State.withR16]
        omega
    · exact ⟨rfl, Nat.le_refl _, hi, rfl, by simp [State.withR16], by simp [State.withR16], by simp [State.withR16]⟩

/-- What a delivered bit changes (41_bit_readers R159). -/
theorem State.r16Bit_ok {s t : State} {b : Bool} (hd : s.DietOk) (hi : s.ipos ≤ s.inLen) (h : s.r16Bit = .ok b t) :
    s.OnlyR16 t ∧ t.DietOk ∧ s.ipos ≤ t.ipos ∧ t.ipos ≤ t.inLen ∧ t.r16BitsLeft + 1 = s.r16BitsLeft := by
  unfold State.r16Bit at h
  split at h
  · cases h
  · rename_i hv
    have hvn : s.valid.toNat ≠ 0 := fun hc => hv (BitVec.eq_of_toNat_eq (by simpa using hc))
    have hv1 : (s.valid - 1).toNat = s.valid.toNat - 1 := by
      rw [BitVec.toNat_sub]; have := s.valid.isLt; simp; omega
    have hc1 : (s.cnt - 1).toNat = s.cnt.toNat - 1 := by
      rw [BitVec.toNat_sub]; have := s.cnt.isLt; have := hd.cnt; simp; omega
    have hcv := hd.valid
    have htake : s.r16Take = s.withR16 s.ipos (s.w >>> 1) (s.cnt - 1) (s.valid - 1) := rfl
    simp only [Res.ok.injEq] at h
    obtain ⟨-, h⟩ := h
    split at h
    · rename_i hz
      have hz' : s.cnt.toNat = 1 := by
        have : (s.cnt - 1).toNat = 0 := by
          have : s.cnt - 1 = 0 := hz
          rw [this]; rfl
        have := hd.cnt
        omega
      obtain ⟨h1, h2, h3, h4, h5, h6, h7⟩ := State.r16Fill_spec (s := s.r16Take) hi
      rw [h] at h1 h2 h3 h4 h5 h6 h7
      have hlen : s.r16Take.inLen = s.inLen := rfl
      have hip : s.r16Take.ipos = s.ipos := rfl
      have honly : s.OnlyR16 t := State.OnlyR16.trans (t := s.r16Take) rfl h1
      have htl : t.inLen = s.inLen := by rw [honly]; rfl
      refine ⟨honly, ⟨?_, ?_, ?_, h7⟩, by omega, by omega, ?_⟩
      · rw [honly]; exact hd.idx
      · rw [h4]; decide
      · rw [h4]; exact h6
      · simp only [State.r16BitsLeft]
        omega
    · rename_i hz
      subst h
      have hcn : s.cnt.toNat - 1 ≠ 0 := by
        intro hc
        apply hz
        show s.cnt - 1 = 0
        exact BitVec.eq_of_toNat_eq (by rw [hc1, hc]; rfl)
      refine ⟨rfl, ⟨hd.idx, ?_, ?_, ?_⟩, Nat.le_refl _, hi, ?_⟩
      · show 1 ≤ (s.cnt - 1).toNat ∧ (s.cnt - 1).toNat ≤ 16
        have := hd.cnt
        omega
      · show (s.valid - 1).toNat ≤ (s.cnt - 1).toNat
        omega
      · show (s.w >>> 1).toNat < 2 ^ (s.valid - 1).toNat
        rw [hv1, BitVec.toNat_ushiftRight, Nat.shiftRight_eq_div_pow]
        have h2 : 2 ^ s.valid.toNat = 2 ^ (s.valid.toNat - 1) * 2 := by
          rw [← Nat.pow_succ]; congr 1; omega
        have := hd.pad
        omega
      · show (s.valid - 1).toNat + 8 * (s.inLen - s.ipos) + 1 = s.valid.toNat + 8 * (s.inLen - s.ipos)
        omega

/-- A bit is delivered or `TruncatedStream` is raised. -/
theorem State.r16Bit_cases (s : State) :
    (s.valid = 0 ∧ s.r16Bit = .raise .truncatedStream) ∨ (s.valid ≠ 0 ∧ ∃ t, s.r16Bit = .ok (s.w.getLsbD 0) t) := by
  by_cases hv : s.valid = 0
  · exact .inl ⟨hv, by simp [State.r16Bit, hv]⟩
  · exact .inr ⟨hv, _, by simp only [State.r16Bit, if_neg hv]; rfl⟩

/-- What a raw byte changes (41_bit_readers R161). -/
theorem State.r16Raw_ok {s t : State} {v : Byte} (h : s.r16Raw = .ok v t) :
    t = { s with ipos := s.ipos + 1 } ∧ v = s.inByte s.ipos ∧ s.ipos < s.inLen := by
  unfold State.r16Raw at h
  rcases s.inReadRequired_cases with ⟨hlt, hr⟩ | ⟨-, hr⟩ <;> rw [hr] at h
  · cases h; exact ⟨rfl, rfl, hlt⟩
  · cases h

end Sys2Proof.Machine
end

