-- ==== Sys2Proof/Laws/Diet.lean ====
section
/-! SUPPORT. What the shared operations of Machine/Diet.lean can do, said once. -/

namespace Sys2Proof.Machine

/-- The state after a byte is written at the cursor (44_diet R262). -/
def State.put (s : State) (b : Byte) : State := { s with out := s.out.write s.idx.toNat b, idx := s.idx + 1 }

theorem State.put_idx {s : State} (b : Byte) (h : s.idx.toNat < s.payloadSize.toNat) :
    (s.put b).idx.toNat = s.idx.toNat + 1 := by
  show (s.idx + 1).toNat = _
  have := s.payloadSize.isLt
  rw [BitVec.toNat_add]
  simp
  omega

/-- A byte is written below `PAYLOAD_SIZE` (44_diet R262). -/
theorem State.dietPut_ok {s : State} (b : Byte) (h : s.idx.toNat < s.payloadSize.toNat) :
    s.dietPut b = .ok () (s.put b) := by
  simp only [State.dietPut, State.outWrite, if_pos h, Res.bind_ok]
  rfl

/-- The state after `n` bytes are copied from `src` on. -/
def State.copyBytes : Nat → Nat → State → State
  | 0, _, s => s
  | n + 1, src, s => (s.put (s.out.read src)).copyBytes n (src + 1)

/-- The copy loop copies as many bytes as asked for, or up to `PAYLOAD_SIZE` (44_diet R270). -/
theorem State.dietCopyLoop_ok {s : State} (h : s.idx.toNat ≤ s.payloadSize.toNat) (count src : Nat) :
    s.dietCopyLoop count src = .ok () (s.copyBytes (min count (s.payloadSize.toNat - s.idx.toNat)) src) := by
  induction count generalizing s src with
  | zero => simp [State.dietCopyLoop, State.copyBytes]
  | succ count ih =>
    simp only [State.dietCopyLoop]
    by_cases he : s.idx = s.payloadSize
    · rw [if_pos he, he]
      simp [State.copyBytes]
    · have hlt : s.idx.toNat < s.payloadSize.toNat := by
        have : s.idx.toNat ≠ s.payloadSize.toNat := fun hc => he (BitVec.eq_of_toNat_eq hc)
        omega
      rw [if_neg he, State.dietPut_ok _ hlt, Res.bind_ok]
      have hi := State.put_idx (s.outRead src) hlt
      have hp : (s.put (s.outRead src)).payloadSize = s.payloadSize := rfl
      rw [ih (by rw [hi, hp]; omega), hi, hp]
      have hm : min (count + 1) (s.payloadSize.toNat - s.idx.toNat) =
          min count (s.payloadSize.toNat - (s.idx.toNat + 1)) + 1 := by omega
      rw [hm]
      rfl

/-- What copying leaves: only `OUT` and the cursor change; each new byte is the byte `back` places before it
(44_diet R270). -/
theorem State.copyBytes_spec {s : State} (hw : s.out.wf) (n src : Nat) (hs : src < s.idx.toNat)
    (hn : s.idx.toNat + n ≤ s.payloadSize.toNat) :
    let t := s.copyBytes n src
    t = { s with out := t.out, idx := t.idx } ∧ t.idx.toNat = s.idx.toNat + n ∧ t.out.wf ∧
      (∀ a, a < s.idx.toNat ∨ s.idx.toNat + n ≤ a → t.out.read a = s.out.read a) ∧
      (∀ k, k < n → t.out.read (s.idx.toNat + k) = t.out.read (src + k)) ∧
      (s.OutBelow s.idx.toNat → t.OutBelow t.idx.toNat) := by
  induction n generalizing s src with
  | zero => exact ⟨rfl, rfl, hw, fun _ _ => rfl, fun k hk => absurd hk (Nat.not_lt_zero k), fun h => h⟩
  | succ n ih =>
    intro t
    have hlt : s.idx.toNat < s.payloadSize.toNat := by omega
    have hi := State.put_idx (s.out.read src) hlt
    have hw' : (s.put (s.out.read src)).out.wf := Memory.wf_write hw _ _
    have hr : ∀ a, (s.put (s.out.read src)).out.read a = if a = s.idx.toNat then s.out.read src else s.out.read a :=
      fun a => Memory.read_write hw _ _ _
    have ht : t = (s.put (s.out.read src)).copyBytes n (src + 1) := rfl
    obtain ⟨h1, h2, h3, h4, h5, h6⟩ := ih hw' (src + 1) (by omega) (by rw [hi]; show _ ≤ s.payloadSize.toNat; omega)
    rw [← ht] at h1 h2 h3 h4 h5 h6
    rw [hi] at h2 h4 h5 h6
    refine ⟨?_, by omega, h3, ?_, ?_, ?_⟩
    · rw [h1]; rfl
    · intro a ha
      rw [h4 a (by omega), hr, if_neg (by omega)]
    · intro k hk
      cases k with
      | zero =>
        rw [Nat.add_zero, Nat.add_zero, h4 _ (by omega), hr, if_pos rfl, h4 src (by omega), hr, if_neg (by omega)]
      | succ k =>
        have := h5 k (by omega)
        have e1 : s.idx.toNat + (k + 1) = s.idx.toNat + 1 + k := by omega
        have e2 : src + (k + 1) = src + 1 + k := by omega
        rw [e1, e2]
        exact this
    · intro hb
      apply h6
      intro c hc
      rcases Memory.mem_write hc with h | h
      · omega
      · have := hb c h; omega

/-- A source index outside `[0, idx)` raises `MalformedBackreference` (44_diet R270). -/
theorem State.dietCopy_raise {s : State} {offset : Int} (count : Nat)
    (h : (s.idx.toNat : Int) + offset < 0 ∨ (s.idx.toNat : Int) ≤ s.idx.toNat + offset) :
    s.dietCopy offset count = .raise .malformedBackreference := by
  simp only [State.dietCopy]
  rw [if_pos h]

/-- A source index inside `[0, idx)` copies (44_diet R270). -/
theorem State.dietCopy_ok {s : State} {offset : Int} (count : Nat) (hi : s.idx.toNat ≤ s.payloadSize.toNat)
    (h0 : 0 ≤ (s.idx.toNat : Int) + offset) (h1 : (s.idx.toNat : Int) + offset < s.idx.toNat) :
    s.dietCopy offset count =
      .ok () (s.copyBytes (min count (s.payloadSize.toNat - s.idx.toNat)) ((s.idx.toNat : Int) + offset).toNat) := by
  simp only [State.dietCopy]
  rw [if_neg (by omega), State.dietCopyLoop_ok hi]

end Sys2Proof.Machine
end

