-- ==== Sys2Proof/Laws/Huffman.lean ====
section
/-! SUPPORT. What the shared operations of Machine/Huffman.lean can do, said once. -/

namespace Sys2Proof.Machine

/-- `HUFF.NODE` below `nnodes` gives the stored node (43_huffman_rle R232). -/
theorem State.huffNode_ok {s : State} {i : Nat} {v : BitVec 16} (hi : i < s.nnodes.toNat) (hv : s.node[i]? = some v) :
    s.huffNode i = .ok (s.cfg.nodeDecode.apply v) s := by
  simp [State.huffNode, Nat.not_le.2 hi, hv]

/-- `HUFF.NODE` at or above `nnodes` raises `MalformedTree` (43_huffman_rle R232). -/
theorem State.huffNode_raise {s : State} {i : Nat} (hi : s.nnodes.toNat ≤ i) : s.huffNode i = .raise .malformedTree := by
  simp [State.huffNode, hi]

/-- With all nodes stored, `HUFF.NODE` gives a node or raises `MalformedTree`, and changes nothing. -/
theorem State.huffNode_cases {s : State} (h : s.node.length = s.nnodes.toNat) (i : Nat) :
    s.huffNode i = .raise .malformedTree ∨ ∃ n, s.huffNode i = .ok n s := by
  by_cases hi : i < s.nnodes.toNat
  · exact .inr ⟨_, State.huffNode_ok hi (List.getElem?_eq_getElem (by omega))⟩
  · exact .inl (State.huffNode_raise (by omega))

/-- What a traversal, or part of one, may have done to the stream: bits were taken off `RMSB`, at least `n` of them. -/
structure State.TookBits (n : Nat) (s t : State) : Prop where
  only : s.OnlyRmsb t
  bits : t.rmsbBitsLeft + n ≤ s.rmsbBitsLeft
  fwd : s.ipos ≤ t.ipos
  ipos : s.ipos ≤ s.inLen → t.ipos ≤ t.inLen
  bitcnt : s.bitcnt.toNat ≤ 7 → t.bitcnt.toNat ≤ 7

theorem State.TookBits.refl (s : State) : s.TookBits 0 s :=
  ⟨.refl s, Nat.le_refl _, Nat.le_refl _, fun h => h, fun h => h⟩

theorem State.TookBits.trans {s t u : State} {n m : Nat} (h : s.TookBits n t) (h' : t.TookBits m u) :
    s.TookBits (n + m) u :=
  ⟨h.only.trans h'.only, by have := h.bits; have := h'.bits; omega, Nat.le_trans h.fwd h'.fwd, fun hi => h'.ipos (h.ipos hi),
    fun hb => h'.bitcnt (h.bitcnt hb)⟩

theorem State.TookBits.node {s t : State} {n : Nat} (h : s.TookBits n t) : t.node = s.node := by rw [h.only]; rfl

theorem State.TookBits.nnodes {s t : State} {n : Nat} (h : s.TookBits n t) : t.nnodes = s.nnodes := by rw [h.only]; rfl

theorem State.TookBits.cfg {s t : State} {n : Nat} (h : s.TookBits n t) : t.cfg = s.cfg := by rw [h.only]; rfl

theorem State.TookBits.of_bit {s t : State} {b : Bool} (h : s.rmsbBit = .ok b t) : s.TookBits 1 t := by
  obtain ⟨h1, h2, h3, h4, h5, -⟩ := State.rmsbBit_ok h
  exact ⟨h1, by omega, h3, h4, h5⟩

/-- What a micro-operation that only takes bits may answer: it completes, or raises one of two kinds; it never stops. -/
def State.HuffAnswers {α : Type} (n : α → Nat) (s : State) (r : Res α) : Prop :=
  r = .raise .malformedTree ∨ r = .raise .truncatedStream ∨ ∃ a t, r = .ok a t ∧ s.TookBits (n a) t

/-- How many bits an answer of `HUFF.SYM` stands for at least. -/
def symBits (r : Option Symbol) : Nat := if r.isSome then 1 else 0

/-- The traversal loop takes bits only. -/
theorem State.huffWalk_answers {s : State} (h : s.node.length = s.nnodes.toNat) (passes index : Nat) :
    s.HuffAnswers symBits (s.huffWalk passes index) := by
  induction passes generalizing s index with
  | zero => exact .inr (.inr ⟨_, _, rfl, .refl s⟩)
  | succ passes ih =>
    simp only [State.huffWalk]
    cases he : s.rmsbEos with
    | true => exact .inr (.inr ⟨_, _, rfl, .refl s⟩)
    | false =>
      obtain ⟨b, s1, hb⟩ := State.rmsbBit_of_not_eos he
      have ht := State.TookBits.of_bit hb
      simp only [Bool.false_eq_true, if_false, hb, Res.bind_ok]
      have hlen : s1.node.length = s1.nnodes.toNat := by rw [ht.node, ht.nnodes]; exact h
      rcases State.huffNode_cases hlen (index + b.toNat) with hn | ⟨n, hn⟩
      · rw [hn]; exact .inl rfl
      · rw [hn]
        cases n with
        | leaf sym => exact .inr (.inr ⟨some sym, s1, rfl, ht⟩)
        | internal next =>
          rcases ih hlen next with hw | hw | ⟨a, t, hw, ht'⟩
          · exact .inl hw
          · exact .inr (.inl hw)
          · refine .inr (.inr ⟨a, t, hw, ?_⟩)
            have := ht.trans ht'
            exact ⟨this.only, by have := this.bits; omega, this.fwd, this.ipos, this.bitcnt⟩

/-- Where `HUFF.NODE` answers, nothing changed, whatever the tree. -/
theorem State.huffNode_same {s t : State} {i : Nat} {n : HuffNode} (h : s.huffNode i = .ok n t) : t = s := by
  unfold State.huffNode at h
  split at h
  · cases h
  · split at h
    · injection h with _ h; exact h.symm
    · cases h

/-- Where the traversal loop answers, bits were taken and nothing else changed, whatever the tree. -/
theorem State.huffWalk_took {s t : State} {passes index : Nat} {r : Option Symbol}
    (h : s.huffWalk passes index = .ok r t) : s.TookBits 0 t := by
  induction passes generalizing s index with
  | zero => simp only [State.huffWalk, Res.ok.injEq] at h; rw [← h.2]; exact .refl s
  | succ passes ih =>
    simp only [State.huffWalk] at h
    split at h
    · simp only [Res.ok.injEq] at h; rw [← h.2]; exact .refl s
    · cases hb : s.rmsbBit with
      | raise k => rw [hb] at h; cases h
      | fault f => rw [hb] at h; cases h
      | ok b s1 =>
        have ht := State.TookBits.of_bit hb
        rw [hb, Res.bind_ok] at h
        cases hn : s1.huffNode (index + b.toNat) with
        | raise k => rw [hn] at h; cases h
        | fault f => rw [hn] at h; cases h
        | ok n s2 =>
          rw [hn, Res.bind_ok, State.huffNode_same hn] at h
          have h0 : s.TookBits 0 s1 := ⟨ht.only, by have := ht.bits; omega, ht.fwd, ht.ipos, ht.bitcnt⟩
          cases n with
          | leaf sym => simp only [Res.ok.injEq] at h; rw [← h.2]; exact h0
          | internal next => exact h0.trans (ih h)

/-- Where `HUFF.SYM` answers, bits were taken and nothing else changed, whatever the tree. -/
theorem State.huffSym_took {s t : State} {r : Option Symbol} (h : s.huffSym = .ok r t) : s.TookBits 0 t := by
  unfold State.huffSym at h
  split at h
  · simp only [Res.ok.injEq] at h; rw [← h.2]; exact .refl s
  · unfold State.huffRoot at h
    split at h
    · cases hn : s.huffNode 0 with
      | raise k => rw [hn] at h; cases h
      | fault f => rw [hn] at h; cases h
      | ok n s1 =>
        rw [hn, State.huffNode_same hn, Res.bind_ok] at h
        cases n with
        | leaf a => cases h
        | internal i => exact State.huffWalk_took h
    · exact State.huffWalk_took h

/-- The index a traversal starts from, in the words of `State.StartsAt`. -/
theorem State.huffRoot_of_startsAt {s : State} {index : Nat} (h : s.StartsAt index) : s.huffRoot = .ok index s := by
  unfold State.StartsAt at h
  unfold State.huffRoot
  cases hr : s.cfg.rootExplicit with
  | true =>
    rw [hr] at h
    simp only [if_true] at h
    obtain ⟨h0, v, hv, ha⟩ := h
    simp [State.huffNode_ok h0 hv, ha]
  | false =>
    rw [hr] at h
    simp at h
    simp [h]

theorem State.huffRoot_cases {s : State} (h : s.node.length = s.nnodes.toNat) :
    s.huffRoot = .raise .malformedTree ∨ ∃ i, s.huffRoot = .ok i s := by
  unfold State.huffRoot
  split
  · rcases State.huffNode_cases h 0 with hn | ⟨n, hn⟩
    · exact .inl (by rw [hn]; rfl)
    · rw [hn]
      cases n with
      | leaf a => exact .inl rfl
      | internal i => exact .inr ⟨i, rfl⟩
  · exact .inr ⟨0, rfl⟩

/-- `HUFF.SYM` takes bits only (43_huffman_rle R233). -/
theorem State.huffSym_answers {s : State} (h : s.node.length = s.nnodes.toNat) : s.HuffAnswers symBits s.huffSym := by
  unfold State.huffSym
  cases he : s.rmsbEos with
  | true => exact .inr (.inr ⟨_, _, rfl, .refl s⟩)
  | false =>
    rcases State.huffRoot_cases h with hr | ⟨i, hr⟩
    · exact .inl (by rw [hr]; rfl)
    · rw [hr]
      exact State.huffWalk_answers h _ _

/-- `HUFF.SYMX` takes bits only (43_huffman_rle R234). -/
theorem State.huffSymX_answers {s : State} (h : s.node.length = s.nnodes.toNat) :
    s.HuffAnswers (fun _ => 1) s.huffSymX := by
  unfold State.huffSymX
  rcases State.huffSym_answers h with hr | hr | ⟨a, t, hr, ht⟩ <;> rw [hr]
  · exact .inl rfl
  · exact .inr (.inl rfl)
  · cases a with
    | none => exact .inr (.inl rfl)
    | some a => exact .inr (.inr ⟨a, t, rfl, ht⟩)

/-! ### The tree section -/

/-- A 16-bit field is two bytes of the stream, the low one first (43_huffman_rle R231). -/
theorem State.inRead16_ok {s : State} (h : s.ipos + 2 ≤ s.inLen) :
    s.inRead16 = .ok (word16 (s.inByte s.ipos) (s.inByte (s.ipos + 1))) { s with ipos := s.ipos + 2 } := by
  have e0 := State.inReadRequired_ok (s := s) (by omega)
  have e1 := State.inReadRequired_ok (s := ({ s with ipos := s.ipos + 1 } : State)) (show s.ipos + 1 < s.inLen by omega)
  simp only [State.inRead16, e0, Res.bind_ok, e1]
  rfl

/-- The node words are read in index order (43_huffman_rle R231). -/
theorem State.readNodes_ok {s : State} {n : Nat} (h : s.ipos + 2 * n ≤ s.inLen) :
    s.readNodes n = .ok () { s with
      ipos := s.ipos + 2 * n
      node := s.node ++ (List.range n).map fun k =>
        word16 (s.inByte (s.ipos + 2 * k)) (s.inByte (s.ipos + 2 * k + 1)) } := by
  induction n generalizing s with
  | zero => simp [State.readNodes]
  | succ n ih =>
    simp only [State.readNodes, State.inRead16_ok (s := s) (by omega), Res.bind_ok]
    rw [ih (by show s.ipos + 2 + 2 * n ≤ s.inLen; omega)]
    rw [List.range_succ_eq_map]
    have e2 : ∀ k, s.ipos + 2 * (k + 1) = s.ipos + 2 + 2 * k := by intro k; omega
    have e3 : ∀ (i : Nat) (l : List (BitVec 16)), State.inByte i
        ({ s with ipos := s.ipos + 2, node := l } : State) = s.inByte i := fun _ _ => rfl
    simp only [e3, List.map_cons, List.map_map, Function.comp_def, Nat.mul_zero, Nat.add_zero, List.append_assoc,
      List.singleton_append, Nat.succ_eq_add_one, e2]

/-- `HUFF.PARSE_TREE` stores the node words and leaves the cursor behind them, or raises `TruncatedStream`
(43_huffman_rle R231). -/
theorem State.parseTree_cases (s : State) :
    let n := (word16 (s.inByte s.ipos) (s.inByte (s.ipos + 1))).toNat / 2
    (s.ipos + 2 + 2 * n ≤ s.inLen ∧ s.parseTree = .ok () { s with
        ipos := s.ipos + 2 + 2 * n
        nnodes := BitVec.ofNat 15 n
        node := (List.range n).map fun k =>
          word16 (s.inByte (s.ipos + 2 + 2 * k)) (s.inByte (s.ipos + 2 + 2 * k + 1)) }) ∨
    (s.inLen < s.ipos + 2 + 2 * n ∧ s.parseTree = .raise .truncatedStream) := by
  intro n
  unfold State.parseTree
  by_cases h2 : s.inLen - s.ipos < 2
  · exact .inr ⟨by omega, by rw [if_pos h2]⟩
  · rw [if_neg h2, State.inRead16_ok (by omega), Res.bind_ok]
    have hl : ({ s with ipos := s.ipos + 2 } : State).inLen = s.inLen := rfl
    unfold State.parseNodes
    simp only [hl]
    show (_ ∧ (if s.inLen - (s.ipos + 2) < 2 * n then _ else _) = _) ∨
      (_ ∧ (if s.inLen - (s.ipos + 2) < 2 * n then _ else _) = _)
    by_cases hn : s.inLen - (s.ipos + 2) < 2 * n
    · exact .inr ⟨by omega, by rw [if_pos hn]⟩
    · refine .inl ⟨by omega, ?_⟩
      rw [if_neg hn]
      have := State.readNodes_ok (s := ({ s with ipos := s.ipos + 2, nnodes := BitVec.ofNat 15 n, node := [] } : State))
        (n := n) (show s.ipos + 2 + 2 * n ≤ s.inLen by omega)
      exact this

end Sys2Proof.Machine
end

