-- ==== Sys2Proof/Laws/Fetch.lean ====
section
/-! SUPPORT. What following a reading can do: one lemma for each of the three kinds of stream it is used on. -/

namespace Sys2Proof

/-- A reading that asks for bits and raw bytes only (a DIET token). -/
def Reading.noSym : Reading → Prop
  | .done _ => True
  | .bit next => ∀ b, (next b).noSym
  | .raw next => ∀ v, (next v).noSym
  | .sym _ => False

/-- A reading that asks for raw bytes only (a container header), `n` of them. -/
def Reading.onlyRaw : Nat → Reading → Prop
  | n, .done _ => n = 0
  | _, .bit _ => False
  | n + 1, .raw next => ∀ v, (next v).onlyRaw n
  | 0, .raw _ => False
  | _, .sym _ => False

/-- A reading that asks for symbols only (the extension symbols of a run). -/
def Reading.onlySym : Reading → Prop
  | .done _ => True
  | .bit _ => False
  | .raw _ => False
  | .sym next => ∀ a, (next a).onlySym

/-- Every instruction a reading can end in has a property. -/
def Reading.yields (P : Instr → Prop) : Reading → Prop
  | .done i => P i
  | .bit next => ∀ b, (next b).yields P
  | .raw next => ∀ v, (next v).yields P
  | .sym next => ∀ a, (next a).yields P

theorem BitTree.reading_yields {α : Type} {P : Instr → Prop} (tree : BitTree α) {next : α → Reading}
    (h : ∀ a ∈ tree.leaves, (next a).yields P) : (tree.reading next).yields P := by
  induction tree with
  | leaf a => exact h a (by simp [BitTree.leaves])
  | bit zero one hz ho =>
    intro b
    cases b
    · exact hz fun a ha => h a (by simp [BitTree.leaves, ha])
    · exact ho fun a ha => h a (by simp [BitTree.leaves, ha])

theorem skipRaw_yields {P : Instr → Prop} {next : Reading} (h : next.yields P) (n : Nat) :
    (skipRaw n next).yields P := by
  induction n with
  | zero => exact h
  | succ n ih => exact fun _ => ih

theorem BitTree.reading_noSym {α : Type} (tree : BitTree α) {next : α → Reading} (h : ∀ a, (next a).noSym) :
    (tree.reading next).noSym := by
  induction tree with
  | leaf a => exact h a
  | bit zero one hz ho =>
    intro b
    cases b
    · exact hz
    · exact ho

theorem dietReading_noSym (cfg : Cfg) : (dietReading cfg).noSym := by
  intro b
  cases b with
  | true => exact fun _ => trivial
  | false =>
    intro lo sel
    cases sel with
    | true =>
      refine BitTree.reading_noSym _ fun hi => BitTree.reading_noSym _ fun leaf => ?_
      cases leaf with
      | exact n => exact trivial
      | rawPlus base => exact fun _ => trivial
    | false =>
      intro c
      cases c with
      | true => exact fun _ _ _ => trivial
      | false =>
        simp only [Bool.false_eq_true, if_false]
        split <;> exact trivial

theorem skipRaw_onlyRaw {next : Reading} {m : Nat} (h : next.onlyRaw m) (n : Nat) : (skipRaw n next).onlyRaw (n + m) := by
  induction n with
  | zero => simpa [skipRaw] using h
  | succ n ih =>
    have : n + 1 + m = (n + m) + 1 := by omega
    rw [this]
    exact fun _ => ih

/-- A header has as many bytes as its layout says (30_encoding R94, R95). -/
theorem headerReading_onlyRaw (x : Ctx) (b0 b1 : Byte) :
    (headerReading x b0 b1).onlyRaw (if x.isDietSig b0 b1 then x.cfg.dietHeaderLen else ttfPayloadOffset) := by
  unfold headerReading
  split
  · exact skipRaw_onlyRaw (next := .raw fun h => .raw fun l0 => .raw fun l1 => .done (.routeDiet h l0 l1)) (m := 3)
      (fun _ _ _ => rfl) _
  · exact fun _ _ _ _ => rfl

theorem huffReading_onlySym (a : Symbol) : (huffReading a).onlySym := by
  unfold huffReading
  split
  · exact trivial
  · split
    · exact fun _ => trivial
    · split
      · exact fun _ _ => trivial
      · exact trivial

namespace Machine

/-- The instruction that following a reading gives is one the reading can end in. -/
theorem State.follow_yields {P : Instr → Prop} {r : Reading} {s t : State} {i : Instr} (h : r.yields P)
    (hf : s.follow r = .ok i t) : P i := by
  induction r generalizing s with
  | done j => simp only [State.follow, Res.ok.injEq] at hf; rw [← hf.1]; exact h
  | bit next ih =>
    obtain ⟨b, s1, -, hf⟩ := Res.bind_eq_ok.1 hf
    exact ih b (h b) hf
  | raw next ih =>
    obtain ⟨v, s1, -, hf⟩ := Res.bind_eq_ok.1 hf
    exact ih v (h v) hf
  | sym next ih =>
    obtain ⟨a, s1, -, hf⟩ := Res.bind_eq_ok.1 hf
    exact ih a (h a) hf

/-- Following a header reading with all its bytes present takes exactly them (40_dispatcher R132, R133). -/
theorem State.follow_onlyRaw {r : Reading} {n : Nat} {s : State} (h : r.onlyRaw n) (hi : s.ipos + n ≤ s.inLen) :
    ∃ i, s.follow r = .ok i { s with ipos := s.ipos + n } := by
  induction n generalizing r s with
  | zero =>
    cases r with
    | done i => exact ⟨i, rfl⟩
    | bit next => exact absurd h (by simp [Reading.onlyRaw])
    | raw next => exact absurd h (by simp [Reading.onlyRaw])
    | sym next => exact absurd h (by simp [Reading.onlyRaw])
  | succ n ih =>
    cases r with
    | done i => exact absurd h (by simp [Reading.onlyRaw])
    | bit next => exact absurd h (by simp [Reading.onlyRaw])
    | raw next =>
      have h' : ∀ v, (next v).onlyRaw n := h
      have e := State.inReadRequired_ok (s := s) (by omega)
      obtain ⟨i, hf⟩ := ih (r := next (s.inByte s.ipos)) (s := { s with ipos := s.ipos + 1 }) (h' _)
        (by show s.ipos + 1 + n ≤ s.inLen; omega)
      refine ⟨i, ?_⟩
      simp only [State.follow, State.r16Raw, e, Res.bind_ok, hf]
      have : s.ipos + 1 + n = s.ipos + (n + 1) := by omega
      rw [this]
    | sym next => exact absurd h (by simp [Reading.onlyRaw])

/-- Following the reading of a DIET token takes bits and bytes off the stream only, or raises `TruncatedStream`. -/
theorem State.follow_noSym {r : Reading} {s : State} (h : r.noSym) (hd : s.DietOk) (hi : s.ipos ≤ s.inLen) :
    s.follow r = .raise .truncatedStream ∨
      ∃ i t, s.follow r = .ok i t ∧ s.OnlyR16 t ∧ t.DietOk ∧ s.ipos ≤ t.ipos ∧ t.ipos ≤ t.inLen ∧
        t.r16BitsLeft ≤ s.r16BitsLeft := by
  induction r generalizing s with
  | done i => exact .inr ⟨i, s, rfl, .refl s, hd, Nat.le_refl _, hi, Nat.le_refl _⟩
  | bit next ih =>
    rcases s.r16Bit_cases with ⟨-, hb⟩ | ⟨-, s1, hb⟩
    · exact .inl (by simp only [State.follow, hb, Res.bind_raise])
    · obtain ⟨a1, a2, a3, a4, a5⟩ := State.r16Bit_ok hd hi hb
      rcases ih (s.w.getLsbD 0) (s := s1) (h _) a2 a4 with hf | ⟨i, t, hf, b1, b2, b3, b4, b5⟩
      · exact .inl (by simp only [State.follow, hb, Res.bind_ok, hf])
      · exact .inr ⟨i, t, by simp only [State.follow, hb, Res.bind_ok, hf], a1.trans b1, b2, by omega, b4, by omega⟩
  | raw next ih =>
    rcases s.inReadRequired_cases with ⟨hlt, he⟩ | ⟨-, he⟩
    · have hd' : State.DietOk { s with ipos := s.ipos + 1 } := ⟨hd.idx, hd.cnt, hd.valid, hd.pad⟩
      rcases ih _ (s := { s with ipos := s.ipos + 1 }) (h (s.inByte s.ipos)) hd' hlt with
        hf | ⟨i, t, hf, b1, b2, b3, b4, b5⟩
      · exact .inl (by simp only [State.follow, State.r16Raw, he, Res.bind_ok, hf])
      · refine .inr ⟨i, t, by simp only [State.follow, State.r16Raw, he, Res.bind_ok, hf], ?_, b2, ?_, b4, ?_⟩
        · exact State.OnlyR16.trans (t := { s with ipos := s.ipos + 1 }) rfl b1
        · have : s.ipos + 1 ≤ t.ipos := b3
          omega
        · have : t.r16BitsLeft ≤ s.valid.toNat + 8 * (s.inLen - (s.ipos + 1)) := b5
          simp only [State.r16BitsLeft] at this ⊢
          omega
    · exact .inl (by simp only [State.follow, State.r16Raw, he, Res.bind_raise])
  | sym next ih => exact absurd h (by simp [Reading.noSym])

/-- Following the reading of the extension symbols takes bits off the stream only, or raises an error kind. -/
theorem State.follow_onlySym {r : Reading} {s : State} (h : r.onlySym) (hn : s.node.length = s.nnodes.toNat) :
    s.HuffAnswers (fun _ => 0) (s.follow r) := by
  induction r generalizing s with
  | done i => exact .inr (.inr ⟨i, s, rfl, .refl s⟩)
  | bit next ih => exact absurd h (by simp [Reading.onlySym])
  | raw next ih => exact absurd h (by simp [Reading.onlySym])
  | sym next ih =>
    rcases State.huffSymX_answers hn with hr | hr | ⟨a, s1, hr, ht⟩
    · exact .inl (by simp only [State.follow, hr, Res.bind_raise])
    · exact .inr (.inl (by simp only [State.follow, hr, Res.bind_raise]))
    · have hf : s.follow (.sym next) = s1.follow (next a) := by simp only [State.follow, hr, Res.bind_ok]
      rw [hf]
      rcases ih a (h a) (s := s1) (by rw [ht.node, ht.nnodes]; exact hn) with hw | hw | ⟨b, t, hw, ht'⟩
      · exact .inl hw
      · exact .inr (.inl hw)
      · refine .inr (.inr ⟨b, t, hw, ?_⟩)
        have := ht.trans ht'
        exact ⟨this.only, by have := this.bits; omega, this.fwd, this.ipos, this.bitcnt⟩

end Machine

end Sys2Proof
end

