-- ==== Sys2Proof/Laws/Lzw.lean ====
section
/-! SUPPORT. What the shared operations of Machine/Lzw.lean can do, said once, under the invariant of 42_lzw R204. -/

namespace Sys2Proof.Machine

/-! ### The dictionary -/

theorem Dict.read_of_lt {c : Nat} {d : Dict} (h : c < 256) : d.read c = some [BitVec.ofNat 8 c] := by
  simp [Dict.read, h]

/-- A written entry is read back, and every other entry is as before (10_state R31). -/
theorem Dict.read_write {d : Dict} {a : Nat} (c : Nat) (str : List Byte) (ha : 256 ≤ a) :
    (d.write a str).read c = if c = a then some str else d.read c := by
  unfold Dict.read Dict.write
  rw [if_neg (by omega : ¬ a < 256)]
  by_cases hc : c < 256
  · rw [if_pos hc, if_pos hc, if_neg (by omega)]
  · rw [if_neg hc, if_neg hc, Cells.find_insert]

/-- Every code below `dictsize` but the two sentinel codes names an entry (42_lzw R204). -/
theorem State.LzwOk.present {s : State} (h : s.LzwOk) {c : Nat} (hc : c < s.dictsize.toNat) (h0 : c ≠ 0x100)
    (h1 : c ≠ 0x101) : ∃ str, s.dict.read c = some str ∧ str ≠ [] ∧ (0x102 ≤ c → 2 ≤ str.length ∧ str.length ≤ c - 0x100)
      ∧ (c < 256 → str.length = 1) := by
  by_cases h256 : c < 256
  · exact ⟨_, Dict.read_of_lt h256, by simp, by omega, by simp⟩
  · have hm : c ∈ s.dict.map Prod.fst := by
      rw [h.codes, List.mem_range']
      exact ⟨c - dictInit, by simp only [dictInit]; omega, by simp only [dictInit]; omega⟩
    obtain ⟨str, hstr⟩ := Option.isSome_iff_exists.1 (Cells.find_isSome.2 hm)
    have hlen := h.lengths _ (Cells.find_mem hstr)
    refine ⟨str, by simp [Dict.read, h256, hstr], ?_, fun _ => hlen, by omega⟩
    rintro rfl
    simp at hlen

/-- The codes of the listed entries are below `dictsize`. -/
theorem State.LzwOk.below {s : State} (h : s.LzwOk) : ∀ e ∈ s.dict, e.1 < s.dictsize.toNat := by
  intro e he
  have hm : e.1 ∈ s.dict.map Prod.fst := List.mem_map_of_mem he
  rw [h.codes, List.mem_range'] at hm
  obtain ⟨i, hi, hi'⟩ := hm
  simp only [dictInit] at hi hi'
  omega

/-- The reset values of the LZW unit meet the invariant. -/
theorem State.LzwOk.of_reset {s : State} (h : s.LzwAtReset) : s.LzwOk := by
  obtain ⟨h1, h2, h3, h4, h5⟩ := h
  refine ⟨?_, ?_, ?_, ?_, ?_, ?_, ?_, ?_, ?_⟩
  all_goals simp [h1, h2, h3, h5, nbitMin, nbitMax, dictInit, dictCap]

/-! ### APPEND and WIDTH -/

/-- What an append leaves (42_lzw R200). -/
theorem State.lzwAppend_spec {s : State} {str : List Byte} (h : s.LzwOk) (hd : s.dict.wf) (hstr : str ≠ []) :
    ∃ t, s.lzwAppend str = .ok () t ∧
      t = { s with dict := t.dict, dictsize := t.dictsize, nbit := t.nbit } ∧ s.Learned str t ∧ t.LzwOk ∧ t.dict.wf ∧
      s.dictsize.toNat ≤ t.dictsize.toNat ∧ (s.appends = false → t = s) := by
  cases ha : s.appends with
  | false =>
    refine ⟨s, by simp [State.lzwAppend, ha], rfl, ⟨by simp [ha], by simp [ha], by simp, by simp [ha]⟩, h, hd,
      Nat.le_refl _, fun _ => rfl⟩
  | true =>
    have hpv : s.pv = true ∧ s.dictsize.toNat < dictCap := by simpa [State.appends] using ha
    obtain ⟨hp1, hp2, hp3⟩ := h.prev hpv.1
    have hne0 : s.prev.toNat ≠ 0x100 := fun hc => hp2 (BitVec.eq_of_toNat_eq (by simpa using hc))
    have hne1 : s.prev.toNat ≠ 0x101 := fun hc => hp3 (BitVec.eq_of_toNat_eq (by simpa using hc))
    obtain ⟨p, hp, hpne, hplen, hplen1⟩ := h.present hp1 hne0 hne1
    have hn := h.dictsize
    have hcap := hpv.2
    simp only [dictInit, dictCap] at hn hcap
    have hb := h.nbit
    simp only [nbitMin, nbitMax] at hb
    obtain ⟨b, bs, rfl⟩ := List.exists_cons_of_ne_nil hstr
    have hsz : (BitVec.ofNat 13 (s.dictsize.toNat + 1)).toNat = s.dictsize.toNat + 1 := by
      rw [BitVec.toNat_ofNat]; omega
    have hrun : s.lzwAppend (b :: bs) = .ok () (s.lzwLearn (p ++ [b])).lzwWiden := by
      simp [State.lzwAppend, ha, State.dictRead, hp]
    have hwrite : s.dict.write s.dictsize.toNat (p ++ [b]) = s.dict ++ [(s.dictsize.toNat, p ++ [b])] := by
      unfold Dict.write
      rw [if_neg (by omega), Cells.insert_last h.below]
    have hread : ∀ c, (s.lzwLearn (p ++ [b])).dict.read c =
        if c = s.dictsize.toNat then some (p ++ [b]) else s.dict.read c := by
      intro c
      rw [State.lzwLearn_dict, Dict.read_write _ _ (by omega)]
    have hw : ∃ m, (s.lzwLearn (p ++ [b])).lzwWiden = { s.lzwLearn (p ++ [b]) with nbit := m } ∧
        m.toNat = if s.dictsize.toNat + 1 = 2 ^ s.nbit.toNat ∧ s.nbit.toNat < nbitMax then s.nbit.toNat + 1
          else s.nbit.toNat := by
      unfold State.lzwWiden
      simp only [State.lzwLearn_dictsize, State.lzwLearn_nbit, hsz]
      split
      · refine ⟨_, rfl, ?_⟩
        rw [BitVec.toNat_ofNat]
        simp only [nbitMax] at *
        omega
      · exact ⟨s.nbit, by cases s; rfl, rfl⟩
    obtain ⟨m, hweq, hm⟩ := hw
    refine ⟨_, hrun, ?_, ?_, ?_, ?_, ?_, ?_⟩
    · rw [hweq]; rfl
    · rw [hweq]
      refine ⟨?_, ?_, ?_, ?_⟩
      · simp only [ha, if_true]; exact hsz
      · intro _ q hq
        rw [hp] at hq
        cases hq
        show Dict.read _ (s.lzwLearn (p ++ [b])).dict = _
        rw [hread, if_pos rfl]; rfl
      · intro c hc
        show Dict.read _ (s.lzwLearn (p ++ [b])).dict = _
        have hne : c ≠ s.dictsize.toNat := by
          rcases hc with hc | hc
          · simp [ha] at hc
          · exact hc
        rw [hread, if_neg hne]
      · simp only [ha, true_and]; exact hm
    · rw [hweq]
      have hsz' : ({ s.lzwLearn (p ++ [b]) with nbit := m } : State).dictsize.toNat = s.dictsize.toNat + 1 := hsz
      have hdict : ({ s.lzwLearn (p ++ [b]) with nbit := m } : State).dict = s.dict ++ [(s.dictsize.toNat, p ++ [b])] :=
        hwrite
      have hlow := h.widthLow
      have hhigh := h.widthHigh
      simp only [nbitMin, nbitMax] at hlow hhigh hm
      have hmm : (9 ≤ m.toNat ∧ m.toNat ≤ 12) ∧ (m.toNat = 9 ∨ 2 ^ (m.toNat - 1) ≤ s.dictsize.toNat + 1) ∧
          (m.toNat = 12 ∨ s.dictsize.toNat + 1 < 2 ^ m.toNat) := by
        generalize s.nbit.toNat = k at *
        generalize m.toNat = j at *
        obtain ⟨hb1, hb2⟩ := hb
        interval_cases k <;> (split at hm <;> subst hm <;> omega)
      refine ⟨hmm.1, ?_, ?_, ?_, ?_, ?_, ?_, ?_, ?_⟩
      · rw [hsz']; simp only [dictInit, dictCap]; omega
      · rw [hsz']; exact hmm.2.1
      · rw [hsz']; exact hmm.2.2
      · intro hc
        have : s.pv = false := hc
        simp [hpv.1] at this
      · intro _
        rw [hsz']
        exact ⟨by show s.prev.toNat < _; omega, hp2, hp3⟩
      · rw [hsz', hdict, List.map_append, h.codes]
        simp only [List.map_cons, List.map_nil]
        obtain ⟨k, hk⟩ : ∃ k, s.dictsize.toNat = dictInit + k := ⟨s.dictsize.toNat - dictInit, by simp only [dictInit]; omega⟩
        rw [hk, Nat.add_assoc, Nat.add_sub_cancel_left, Nat.add_sub_cancel_left, List.range'_1_concat]
      · rw [hdict]
        intro e he
        rcases List.mem_append.1 he with he | he
        · exact h.lengths e he
        · simp only [List.mem_singleton] at he
          subst he
          simp only [List.length_append, List.length_cons, List.length_nil]
          by_cases h256 : s.prev.toNat < 256
          · have := hplen1 h256; omega
          · have := hplen (by omega); omega
      · intro e he
        rw [hdict] at he
        rcases List.mem_append.1 he with he | he
        · obtain ⟨p', q, b', h1, h2, h3⟩ := h.grown e he
          refine ⟨p', q, b', h1, ?_, h3⟩
          show Dict.read _ (s.lzwLearn (p ++ [b])).dict = _
          rw [hread, if_neg (by have := h.below e he; omega)]
          exact h2
        · simp only [List.mem_singleton] at he
          subst he
          refine ⟨s.prev.toNat, p, b, hp1, ?_, rfl⟩
          show Dict.read _ (s.lzwLearn (p ++ [b])).dict = _
          rw [hread, if_neg (by omega)]
          exact hp
    · rw [hweq]; exact Dict.wf_write hd _ _
    · rw [hweq]
      show _ ≤ (BitVec.ofNat 13 (s.dictsize.toNat + 1)).toNat
      omega
    · intro hc; simp at hc

/-! ### LZW.TAIL -/

/-- `LZW.TAIL` completes where `OUT` has room for the string (42_lzw R200, R201). -/
theorem State.lzwTail_ok {s : State} {str : List Byte} {cw : Code} (h : s.LzwOk) (hd : s.dict.wf) (ho : s.out.wf)
    (hstr : str ≠ []) (hroom : s.Room str.length) :
    ∃ t, s.lzwTail str cw = .ok () t ∧ s.TailDone str cw t := by
  obtain ⟨s1, h1, heq, hl, -, -, -, -⟩ := State.lzwAppend_spec h hd hstr
  have hout : s1.out = s.out := by rw [heq]
  have holen : s1.olen = s.olen := by rw [heq]
  obtain ⟨s2, h2⟩ := State.emit_ok_of_room (s := s1) (str := str) (by
    intro cap hc
    rw [holen]
    exact hroom cap (by rw [heq] at hc; exact hc))
  obtain ⟨happ, heq2, -, -⟩ := State.emit_eq_ok (by rw [hout]; exact ho) h2
  refine ⟨{ s2 with prev := cw, pv := true }, by simp [State.lzwTail, h1, h2], ?_⟩
  have e : s2 = { s with dict := s1.dict, dictsize := s1.dictsize, nbit := s1.nbit, out := s2.out, olen := s2.olen } := by
    rw [heq2, heq]
  refine ⟨⟨?_, ?_, ?_, ?_⟩, ⟨?_, ?_, ?_⟩, rfl, rfl, ?_, ?_, ?_, ?_, ?_⟩
  · rw [e]; exact hl.size
  · rw [e]; exact hl.entry
  · rw [e]; exact hl.others
  · rw [e]; exact hl.width
  · have := happ.olen; rw [holen] at this; exact this
  · intro i hi; have := happ.bytes i hi; rw [holen] at this; exact this
  · intro a ha; have := happ.others a (by rw [holen]; exact ha); rw [hout] at this; exact this
  · rw [e]; constructor <;> rfl
  · rw [e]; constructor <;> rfl
  · rw [e]; constructor <;> rfl
  · rw [e]
  · rw [e]

/-- `LZW.TAIL` raises `OutputOverflow` where `OUT` has no room for the string (60_exceptions R306). -/
theorem State.lzwTail_raise {s : State} {str : List Byte} {cw : Code} (h : s.LzwOk) (hd : s.dict.wf)
    (hstr : str ≠ []) (hroom : s.NoRoom str.length) : s.lzwTail str cw = .raise .outputOverflow := by
  obtain ⟨s1, h1, heq, -, -, -, -, -⟩ := State.lzwAppend_spec h hd hstr
  have h2 : s1.emit str = .raise .outputOverflow := by
    apply State.emit_raise_of_noRoom
    obtain ⟨cap, hc, h1, h2⟩ := hroom
    exact ⟨cap, by rw [heq]; exact hc, by rw [heq]; exact h1, by rw [heq]; exact h2⟩
  simp [State.lzwTail, h1, h2]

/-- `LZW.TAIL` completes or raises `OutputOverflow`; where it completes, the LZW unit stays in order. The code must name
an entry of the dictionary as the tail leaves it. -/
theorem State.lzwTail_cases {s : State} {str : List Byte} {cw : Code} (h : s.LzwOk) (hd : s.dict.wf) (ho : s.out.wf)
    (hstr : str ≠ []) (hc0 : cw ≠ 0x100) (hc1 : cw ≠ 0x101)
    (hcw : cw.toNat < s.dictsize.toNat ∨ (s.appends = true ∧ cw.toNat = s.dictsize.toNat)) :
    s.lzwTail str cw = .raise .outputOverflow ∨
      ∃ t, s.lzwTail str cw = .ok () t ∧ t.LzwOk ∧ t.dict.wf ∧ t.out.wf ∧ (s.OutBelow s.olen → t.OutBelow t.olen) ∧
        t = { s with
          dict := t.dict, dictsize := t.dictsize, nbit := t.nbit, out := t.out, olen := t.olen
          prev := t.prev, pv := t.pv } := by
  obtain ⟨s1, h1, heq, hl, hok, hdw, hle, -⟩ := State.lzwAppend_spec h hd hstr
  rcases State.emit_cases str s1 with ⟨s2, h2⟩ | h2
  · right
    obtain ⟨-, heq2, how, hbel⟩ := State.emit_eq_ok (by rw [heq]; exact ho) h2
    refine ⟨{ s2 with prev := cw, pv := true }, by simp [State.lzwTail, h1, h2], ?_, ?_, how, ?_, ?_⟩
    · rw [heq2]
      refine ⟨hok.nbit, hok.dictsize, hok.widthLow, hok.widthHigh, by intro hc; simp at hc, ?_, hok.codes, hok.lengths,
        hok.grown⟩
      intro _
      refine ⟨?_, hc0, hc1⟩
      show cw.toNat < s1.dictsize.toNat
      rcases hcw with hcw | ⟨ha, hcw⟩
      · omega
      · have := hl.size; rw [ha] at this; simp only [if_true] at this; omega
    · rw [heq2]; exact hdw
    · intro hb
      apply hbel
      rw [heq]; exact hb
    · rw [heq2, heq]
  · left
    simp [State.lzwTail, h1, h2]

end Sys2Proof.Machine
end

