-- ==== Sys2Proof/Laws/Readers.lean ====
section
/-! SUPPORT. What each reader operation of Machine/Readers.lean can do, said once. -/

namespace Sys2Proof.Machine

/-! ### R24 -/

theorem State.r24Fetch_real {s : State} (h : s.ipos < s.inLen) :
    s.r24Fetch = (s.inByte s.ipos, { s with ipos := s.ipos + 1, navail := BitVec.ofNat 5 (s.navail.toNat + 8) }) := by
  simp [State.r24Fetch, State.inRead_some h]

theorem State.r24Fetch_pad {s : State} (h : s.inLen ≤ s.ipos) : s.r24Fetch = (0, s) := by
  simp [State.r24Fetch, State.inRead_none h]

theorem State.r24RefillOne_real {s : State} (h : s.ipos < s.inLen) :
    s.r24RefillOne = { s with
      missing := BitVec.ofNat 5 (s.missing.toNat - 8)
      ipos := s.ipos + 1
      navail := BitVec.ofNat 5 (s.navail.toNat + 8)
      buf := s.buf ||| ((s.inByte s.ipos).setWidth 24 <<< (s.missing.toNat - 8)) } := by
  have hf := State.r24Fetch_real (s := ({ s with missing := BitVec.ofNat 5 (s.missing.toNat - 8) } : State)) h
  simp only [State.r24RefillOne, hf]
  rfl

theorem State.r24RefillOne_pad {s : State} (h : s.inLen ≤ s.ipos) :
    s.r24RefillOne = { s with missing := BitVec.ofNat 5 (s.missing.toNat - 8) } := by
  have hf := State.r24Fetch_pad (s := ({ s with missing := BitVec.ofNat 5 (s.missing.toNat - 8) } : State)) h
  simp only [State.r24RefillOne, hf]
  simp

/-- A state that differs from another in `ipos` and the registers of `R24` only. -/
def State.OnlyR24 (s t : State) : Prop :=
  t = { s with ipos := t.ipos, buf := t.buf, missing := t.missing, navail := t.navail }

theorem State.OnlyR24.refl (s : State) : s.OnlyR24 s := rfl

theorem State.OnlyR24.trans {s t u : State} (h : s.OnlyR24 t) (h' : t.OnlyR24 u) : s.OnlyR24 u := by
  unfold State.OnlyR24 at *
  rw [h', h]

theorem State.OnlyR24.inLen {s t : State} (h : s.OnlyR24 t) : t.inLen = s.inLen := by
  unfold State.OnlyR24 at h
  rw [h]
  rfl

theorem State.OnlyR24.inByte {s t : State} (h : s.OnlyR24 t) (i : Nat) : t.inByte i = s.inByte i := by
  unfold State.OnlyR24 at h
  rw [h]
  rfl

theorem State.OnlyR24.inBit {s t : State} (h : s.OnlyR24 t) (p : Nat) : t.inBit p = s.inBit p := by
  simp [State.inBit, h.inByte]

/-- The shape of the window while a codeword is taken: as R24Ok, but `missing` may exceed 7. -/
structure State.R24Shape (s : State) : Prop where
  ipos : s.ipos ≤ s.inLen
  navail : s.navail.toNat + s.missing.toNat ≤ 24
  pad : ∀ i, i < 24 - s.navail.toNat → s.buf.getLsbD i = false
  full : s.ipos < s.inLen → s.navail.toNat + s.missing.toNat = 24
  window : s.WindowOk

theorem State.R24Shape.of_ok {s : State} (h : s.R24Ok) (hw : s.WindowOk) (hi : s.ipos ≤ s.inLen) : s.R24Shape where
  ipos := hi
  navail := h.navail
  pad := h.pad
  full := fun hlt => h.full ((State.not_exhausted_iff s).2 hlt)
  window := hw

theorem State.R24Shape.ok {s : State} (h : s.R24Shape) (hm : s.missing.toNat ≤ 7) : s.R24Ok where
  missing := hm
  navail := h.navail
  pad := h.pad
  full := fun hne => h.full ((State.not_exhausted_iff s).1 hne)

theorem BitVec.toNat_ofNat5 {n : Nat} (h : n < 32) : (BitVec.ofNat 5 n).toNat = n := by
  simp [BitVec.toNat_ofNat]; omega

/-- Taking `n` bits off the window moves the cursor by `n` (41_bit_readers R153). -/
theorem State.r24Take_shape {s : State} {n : Nat} (h : s.R24Shape) (hn : n ≤ s.navail.toNat)
    (hm : s.missing.toNat + n < 32) :
    (s.r24Take n).R24Shape ∧ (s.r24Take n).bitPos = s.bitPos + n := by
  have ha : (s.r24Take n).navail.toNat = s.navail.toNat - n := by
    simp; have := h.navail; omega
  have hmm : (s.r24Take n).missing.toNat = s.missing.toNat + n := by
    simp; omega
  have hpos : (s.r24Take n).bitPos = s.bitPos + n := by
    simp only [State.bitPos, ha, State.r24Take_ipos]
    have := h.window.1
    omega
  refine ⟨⟨h.ipos, ?_, ?_, ?_, ?_, ?_⟩, hpos⟩
  · have := h.navail; omega
  · intro i hi
    rw [ha] at hi
    simp only [State.r24Take_buf, BitVec.getLsbD_shiftLeft]
    by_cases hin : i < n
    · simp [hin]
    · have := h.pad (i - n) (by have := h.navail; omega)
      simp [this]
  · intro hlt; have := h.full hlt; omega
  · rw [ha]; have := h.window.1; simp; omega
  · intro j hj
    rw [ha] at hj
    have := h.navail
    simp only [State.r24Take_buf, BitVec.getLsbD_shiftLeft]
    have hw := h.window.2 (j + n) (by omega)
    rw [hpos]
    have e1 : 23 - j - n = 23 - (j + n) := by omega
    have e2 : s.bitPos + n + j = s.bitPos + (j + n) := by omega
    rw [e1, hw, e2]
    have h1 : decide (23 - j < 24) = true := by simp; omega
    have h2 : decide (23 - j < n) = false := by simp; omega
    rw [h1, h2]
    rfl

/-- One refill pass leaves the cursor where it is (41_bit_readers R153). -/
theorem State.r24RefillOne_shape {s : State} (h : s.R24Shape) (hm : 8 ≤ s.missing.toNat) :
    s.r24RefillOne.R24Shape ∧ s.r24RefillOne.bitPos = s.bitPos ∧
      s.r24RefillOne.missing.toNat = s.missing.toNat - 8 ∧ s.ipos ≤ s.r24RefillOne.ipos ∧
      s.OnlyR24 s.r24RefillOne := by
  have hM : s.missing.toNat < 32 := s.missing.isLt
  have hA : s.navail.toNat < 32 := s.navail.isLt
  have hleft : (BitVec.ofNat 5 (s.missing.toNat - 8)).toNat = s.missing.toNat - 8 :=
    BitVec.toNat_ofNat5 (by omega)
  rcases Nat.lt_or_ge s.ipos s.inLen with hlt | hge
  · have hsum := h.full hlt
    have hnav : (BitVec.ofNat 5 (s.navail.toNat + 8)).toNat = s.navail.toNat + 8 := BitVec.toNat_ofNat5 (by omega)
    have hr := State.r24RefillOne_real hlt
    have hpos : s.r24RefillOne.bitPos = s.bitPos := by
      simp only [State.bitPos, hr, hnav]; omega
    refine ⟨⟨?_, ?_, ?_, ?_, ?_, ?_⟩, hpos, ?_, ?_, ?_⟩
    · rw [hr]; exact hlt
    · simp only [hr, hnav, hleft]; omega
    · intro i hi
      simp only [hr, hnav] at hi ⊢
      rw [BitVec.getLsbD_or, h.pad i (by omega), BitVec.getLsbD_shiftLeft]
      have : decide (i < s.missing.toNat - 8) = true := by simp; omega
      simp [this]
    · intro _; simp only [hr, hnav, hleft]; omega
    · simp only [hr, hnav]; have := h.window.1; omega
    · intro j hj
      rw [hpos]
      simp only [hr, hnav] at hj ⊢
      have hbit : ∀ p, State.inBit p { s with
          missing := BitVec.ofNat 5 (s.missing.toNat - 8)
          ipos := s.ipos + 1
          navail := BitVec.ofNat 5 (s.navail.toNat + 8)
          buf := s.buf ||| ((s.inByte s.ipos).setWidth 24 <<< (s.missing.toNat - 8)) } = s.inBit p := fun _ => rfl
      rw [hbit, BitVec.getLsbD_or, BitVec.getLsbD_shiftLeft]
      by_cases hja : j < s.navail.toNat
      · rw [h.window.2 j hja]
        have : (BitVec.setWidth 24 (s.inByte s.ipos)).getLsbD (23 - j - (s.missing.toNat - 8)) = false := by
          rw [BitVec.getLsbD_setWidth]
          have : (s.inByte s.ipos).getLsbD (23 - j - (s.missing.toNat - 8)) = false :=
            BitVec.getLsbD_of_ge _ _ (by omega)
          simp [this]
        simp [this]
      · rw [h.pad (23 - j) (by omega)]
        have hk : ∃ k, j = s.navail.toNat + k ∧ k < 8 := ⟨j - s.navail.toNat, by omega, by omega⟩
        obtain ⟨k, rfl, hk8⟩ := hk
        have hd1 : decide (23 - (s.navail.toNat + k) < 24) = true := by simp; omega
        have hd2 : decide (23 - (s.navail.toNat + k) < s.missing.toNat - 8) = false := by simp; omega
        have he : 23 - (s.navail.toNat + k) - (s.missing.toNat - 8) = 7 - k := by omega
        have hp : s.bitPos + (s.navail.toNat + k) = 8 * s.ipos + k := by
          simp only [State.bitPos]; have := h.window.1; omega
        rw [hd1, hd2, he, hp, BitVec.getLsbD_setWidth]
        have hd3 : decide (7 - k < 24) = true := by simp; omega
        rw [hd3]
        simp only [State.inBit]
        have h1 : (8 * s.ipos + k) / 8 = s.ipos := by omega
        have h2 : (8 * s.ipos + k) % 8 = k := by omega
        rw [h1, h2]
        rfl
    · rw [hr]; exact hleft
    · rw [hr]; simp
    · unfold State.OnlyR24; rw [hr]
  · have hr := State.r24RefillOne_pad hge
    refine ⟨⟨?_, ?_, ?_, ?_, ?_⟩, ?_, ?_, ?_, ?_⟩
    · rw [hr]; exact h.ipos
    · simp only [hr, hleft]; have := h.navail; omega
    · rw [hr]; exact h.pad
    · intro hlt; rw [hr] at hlt; exact absurd hge (by simp [State.inLen] at hlt ⊢; omega)
    · rw [hr]; exact h.window
    · rw [hr]; rfl
    · rw [hr]; exact hleft
    · rw [hr]
    · unfold State.OnlyR24; rw [hr]

/-- The refill loop leaves `missing` below 8 and the cursor where it is (41_bit_readers R153). -/
theorem State.r24Refill_shape {s : State} (h : s.R24Shape) (passes : Nat) (hm : s.missing.toNat < 8 * (passes + 1)) :
    (s.r24Refill passes).R24Shape ∧ (s.r24Refill passes).bitPos = s.bitPos ∧
      (s.r24Refill passes).missing.toNat ≤ 7 ∧ s.ipos ≤ (s.r24Refill passes).ipos ∧
      s.OnlyR24 (s.r24Refill passes) := by
  induction passes generalizing s with
  | zero => exact ⟨h, rfl, by simp only [State.r24Refill]; omega, by simp [State.r24Refill], rfl⟩
  | succ passes ih =>
    simp only [State.r24Refill]
    split
    · exact ⟨h, rfl, by omega, Nat.le_refl _, rfl⟩
    · rename_i h8
      obtain ⟨h1, h2, h3, h4, h5⟩ := State.r24RefillOne_shape h (by omega)
      obtain ⟨g1, g2, g3, g4, g5⟩ := ih h1 (by omega)
      exact ⟨g1, g2.trans h2, g3, Nat.le_trans h4 g4, h5.trans g5⟩

/-- What the window gives as a codeword: its top `n` bits, the first most significant. -/
theorem State.r24Top_getLsbD (s : State) {n j : Nat} (hn : n ≤ 12) (hj : j < n) :
    (s.r24Top n).getLsbD (n - 1 - j) = s.buf.getLsbD (23 - j) := by
  simp only [State.r24Top, BitVec.getLsbD_setWidth, BitVec.getLsbD_ushiftRight]
  have h1 : decide (n - 1 - j < 12) = true := by simp; omega
  have h2 : 24 - n + (n - 1 - j) = 23 - j := by omega
  rw [h1, h2]
  rfl

theorem State.r24Top_lt (s : State) {n : Nat} (hn : n ≤ 12) : (s.r24Top n).toNat < 2 ^ n := by
  simp only [State.r24Top, BitVec.toNat_setWidth, BitVec.toNat_ushiftRight]
  refine Nat.lt_of_le_of_lt (Nat.mod_le _ _) ?_
  rw [Nat.shiftRight_eq_div_pow]
  have := s.buf.isLt
  rw [Nat.div_lt_iff_lt_mul (by positivity), ← pow_add]
  have : n + (24 - n) = 24 := by omega
  rw [this]
  omega

/-- One refill pass changes `ipos` and the registers of `R24` only. -/
theorem State.r24RefillOne_only (s : State) : s.OnlyR24 s.r24RefillOne := by
  unfold State.OnlyR24
  rcases Nat.lt_or_ge s.ipos s.inLen with hlt | hge
  · rw [State.r24RefillOne_real hlt]
  · rw [State.r24RefillOne_pad hge]

/-- The refill loop changes `ipos` and the registers of `R24` only. -/
theorem State.r24Refill_only (passes : Nat) (s : State) : s.OnlyR24 (s.r24Refill passes) := by
  induction passes generalizing s with
  | zero => exact .refl s
  | succ passes ih =>
    simp only [State.r24Refill]
    split
    · exact .refl s
    · exact s.r24RefillOne_only.trans (ih _)

/-- `R24.GETCW` changes `ipos` and its own registers only. -/
theorem State.r24GetCw_only {s t : State} {n : Nat} {cw : Code} (h : s.r24GetCw n = .ok cw t) :
    s.OnlyR24 t ∧ n ≤ s.navail.toNat ∧ cw = s.r24Top n := by
  unfold State.r24GetCw at h
  split at h
  · cases h
  · rename_i hn
    simp only [Res.ok.injEq] at h
    obtain ⟨rfl, rfl⟩ := h
    exact ⟨State.OnlyR24.trans (t := s.r24Take n) rfl (State.r24Refill_only 3 _), by omega, rfl⟩

/-- The window before priming: nothing in it, 24 bits to fetch. -/
def State.r24Empty (s : State) : State := { s with buf := 0, missing := 24, navail := 0 }

theorem State.r24Empty_shape {s : State} (hi : s.ipos ≤ s.inLen) : s.r24Empty.R24Shape where
  ipos := hi
  navail := by simp [State.r24Empty]
  pad := by simp [State.r24Empty]
  full := by simp [State.r24Empty]
  window := ⟨by simp [State.r24Empty], by simp [State.r24Empty]⟩

/-- A state with other registers of `R24` and another stream cursor. -/
def State.withR24 (s : State) (i : Nat) (b : BitVec 24) (m n : BitVec 5) : State :=
  { s with ipos := i, buf := b, missing := m, navail := n }

theorem State.withR24_fetch (s : State) (i : Nat) (b : BitVec 24) (m n : BitVec 5) :
    (s.withR24 i b m n).r24Fetch =
      if i < s.inLen then (s.inByte i, s.withR24 (i + 1) b m (BitVec.ofNat 5 (n.toNat + 8)))
      else (0, s.withR24 i b m n) := by
  split
  · rename_i h; exact State.r24Fetch_real (s := s.withR24 i b m n) h
  · rename_i h; exact State.r24Fetch_pad (s := s.withR24 i b m n) (Nat.le_of_not_lt h)

theorem State.withR24_refillOne (s : State) (i : Nat) (b : BitVec 24) (m n : BitVec 5) :
    (s.withR24 i b m n).r24RefillOne =
      if i < s.inLen then
        s.withR24 (i + 1) (b ||| ((s.inByte i).setWidth 24 <<< (m.toNat - 8))) (BitVec.ofNat 5 (m.toNat - 8))
          (BitVec.ofNat 5 (n.toNat + 8))
      else s.withR24 i b (BitVec.ofNat 5 (m.toNat - 8)) n := by
  split
  · rename_i h; exact State.r24RefillOne_real (s := s.withR24 i b m n) h
  · rename_i h; exact State.r24RefillOne_pad (s := s.withR24 i b m n) (Nat.le_of_not_lt h)

/-- What priming leaves, by how many bytes the stream still has (41_bit_readers R151). -/
theorem State.r24Prime_eq (s : State) :
    s.r24Prime =
      if s.ipos + 2 < s.inLen then
        s.withR24 (s.ipos + 3) (((s.inByte s.ipos).setWidth 24 <<< 16) ||| ((s.inByte (s.ipos + 1)).setWidth 24 <<< 8) |||
          (s.inByte (s.ipos + 2)).setWidth 24) 0 24
      else if s.ipos + 1 < s.inLen then
        s.withR24 (s.ipos + 2) (((s.inByte s.ipos).setWidth 24 <<< 16) ||| ((s.inByte (s.ipos + 1)).setWidth 24 <<< 8)) 0 16
      else if s.ipos < s.inLen then s.withR24 (s.ipos + 1) ((s.inByte s.ipos).setWidth 24 <<< 16) 0 8
      else s.withR24 s.ipos 0 0 0 := by
  have hc : s.r24Prime = (let f0 := (s.withR24 s.ipos 0 0 0).r24Fetch
    let f1 := f0.2.r24Fetch
    let f2 := f1.2.r24Fetch
    ({ f2.2 with buf := (f0.1.setWidth 24 <<< 16) ||| (f1.1.setWidth 24 <<< 8) ||| f2.1.setWidth 24 } : State)) := rfl
  rw [hc]
  simp only [State.withR24_fetch]
  by_cases h0 : s.ipos < s.inLen
  · by_cases h1 : s.ipos + 1 < s.inLen
    · by_cases h2 : s.ipos + 2 < s.inLen
      · simp only [h0, h1, h2, if_true, State.withR24_fetch]
        rfl
      · simp only [h0, h1, h2, if_true, if_false, State.withR24_fetch]
        simp [State.withR24]
    · have h2 : ¬ s.ipos + 2 < s.inLen := by omega
      simp only [h0, h1, h2, if_true, if_false, State.withR24_fetch]
      simp [State.withR24]
  · have h1 : ¬ s.ipos + 1 < s.inLen := by omega
    have h2 : ¬ s.ipos + 2 < s.inLen := by omega
    simp only [h0, h1, h2, if_false, State.withR24_fetch]
    simp [State.withR24]

/-- The three fetches of `R24.PRIME` are three refill passes over an empty window (41_bit_readers R151, R153). -/
theorem State.r24Prime_eq_refill (s : State) :
    s.r24Prime = s.r24Empty.r24RefillOne.r24RefillOne.r24RefillOne := by
  have he : s.r24Empty = s.withR24 s.ipos 0 24 0 := rfl
  have h16 : s.ipos + 1 + 1 = s.ipos + 2 := rfl
  rw [he, State.r24Prime_eq]
  by_cases h0 : s.ipos < s.inLen
  · by_cases h1 : s.ipos + 1 < s.inLen
    · by_cases h2 : s.ipos + 2 < s.inLen
      · simp only [State.withR24_refillOne, h0, h1, h2, h16, if_true]
        simp
      · simp only [State.withR24_refillOne, h0, h1, h2, h16, if_true, if_false]
        simp
    · have h2 : ¬ s.ipos + 2 < s.inLen := by omega
      simp only [State.withR24_refillOne, h0, h1, h2, if_true, if_false]
      simp
  · have h1 : ¬ s.ipos + 1 < s.inLen := by omega
    have h2 : ¬ s.ipos + 2 < s.inLen := by omega
    simp only [State.withR24_refillOne, h0, h1, h2, if_false]
    simp

/-- Priming (41_bit_readers R151): the window starts at the next byte of the stream. -/
theorem State.r24Prime_shape {s : State} (hi : s.ipos ≤ s.inLen) :
    s.r24Prime.R24Shape ∧ s.r24Prime.missing = 0 ∧ s.r24Prime.bitPos = 8 * s.ipos ∧ s.ipos ≤ s.r24Prime.ipos ∧
      s.OnlyR24 s.r24Prime := by
  rw [State.r24Prime_eq_refill]
  obtain ⟨a1, a2, a3, a4, a5⟩ := State.r24RefillOne_shape (State.r24Empty_shape hi) (by simp [State.r24Empty])
  have e3 : s.r24Empty.missing.toNat = 24 := rfl
  obtain ⟨b1, b2, b3, b4, b5⟩ := State.r24RefillOne_shape a1 (by omega)
  obtain ⟨c1, c2, c3, c4, c5⟩ := State.r24RefillOne_shape b1 (by omega)
  refine ⟨c1, ?_, ?_, ?_, ?_⟩
  · apply BitVec.eq_of_toNat_eq
    rw [c3, b3, a3, e3]
    rfl
  · rw [c2, b2, a2]
    simp [State.bitPos, State.r24Empty]
  · have : s.r24Empty.ipos = s.ipos := rfl
    omega
  · exact State.OnlyR24.trans (t := s.r24Empty) rfl (a5.trans (b5.trans c5))

end Sys2Proof.Machine
end

