-- ==== Sys2Proof/Laws/Step.lean ====
section
/-! SUPPORT. What a step is, by where the machine stands, and what running several steps is. -/

namespace Sys2Proof.Machine

/-- Between two calls a step starts the next call of the host, or waits (log 2). -/
theorem step_between {s : State} (h : s.stState ≠ .run) : step s = s.betweenCalls := by
  cases hs : s.stState with
  | run => exact absurd hs h
  | idle => simp only [step, State.fetch, hs]
  | done => simp only [step, State.fetch, hs]
  | err => simp only [step, State.fetch, hs]

/-- A step that executes an instruction is the meaning of it. -/
theorem step_of_execute {s t : State} {i : Instr} (h : s.fetch = .execute i t) : step s = exec i t := by
  simp only [step, h]

/-- A step that ends in its fetch. -/
theorem step_of_ended {s : State} {o : Host.Outcome State Fault Refusal} (h : s.fetch = .ended o) : step s = o := by
  simp only [step, h]

theorem fetch_none {s : State} (h : s.stState = .run) (hf : s.format = .none) : s.fetch = s.fetchHeader := by
  simp only [State.fetch, h, hf]

theorem fetch_lzw {s : State} (h : s.stState = .run) (hf : s.format = .lzw) : s.fetch = s.fetchLzw := by
  simp only [State.fetch, h, hf]

theorem fetch_huff {s : State} (h : s.stState = .run) (hf : s.format = .huff) : s.fetch = s.fetchHuff := by
  simp only [State.fetch, h, hf]

theorem fetch_diet {s : State} (h : s.stState = .run) (hf : s.format = .diet) : s.fetch = s.fetchDiet := by
  simp only [State.fetch, h, hf]

/-- One step, then the others. -/
theorem run_succ {s t : State} (k : Nat) (h : step s = .next t) : core.run (k + 1) s = core.run k t := by
  have h' : core.step s = .next t := h
  simp only [Host.Core.run, h']

theorem run_zero (s : State) : core.run 0 s = .next s := rfl

end Sys2Proof.Machine
end

