-- ==== Sys2Proof/Laws/Frames.lean ====
section
/-! SUPPORT. What no micro-operation of a running call writes: `FORMAT`, `PAYLOAD_SIZE`, `STATUS`, `CFG`, `SRC`, the host's
list and the model's counter. True of every state. -/

namespace Sys2Proof.Machine

theorem State.SameCall.refl (s : State) : s.SameCall s := ⟨rfl, rfl, rfl, rfl, rfl, rfl, rfl, rfl⟩

theorem State.SameCall.trans {s t u : State} (h : s.SameCall t) (h' : t.SameCall u) : s.SameCall u :=
  ⟨h'.format.trans h.format, h'.payloadSize.trans h.payloadSize, h'.stState.trans h.stState, h'.stErr.trans h.stErr,
    h'.cfg.trans h.cfg, h'.src.trans h.src, h'.pending.trans h.pending, h'.draws.trans h.draws⟩

/-- A micro-operation that leaves the call alone wherever it answers. -/
def Res.KeepsCall {α : Type} (s : State) (r : Res α) : Prop := ∀ a t, r = .ok a t → s.SameCall t

theorem Res.KeepsCall.of_ok {α : Type} {s t : State} {a : α} (h : s.SameCall t) : Res.KeepsCall s (.ok a t) := by
  intro b u hu
  cases hu
  exact h

theorem Res.KeepsCall.of_raise {α : Type} (s : State) (k : ErrKind) : Res.KeepsCall s (.raise k : Res α) := by
  intro a t h
  cases h

theorem Res.KeepsCall.of_fault {α : Type} (s : State) (f : Fault) : Res.KeepsCall s (.fault f : Res α) := by
  intro a t h
  cases h

theorem Res.KeepsCall.bind {α β : Type} {s : State} {r : Res α} {next : α → State → Res β} (h : Res.KeepsCall s r)
    (h' : ∀ a t, r = .ok a t → Res.KeepsCall t (next a t)) : Res.KeepsCall s (r.bind next) := by
  cases r with
  | ok a t => exact fun b u hu => (h a t rfl).trans (h' a t rfl b u hu)
  | raise k => exact .of_raise s k
  | fault f => exact .of_fault s f

theorem State.inReadRequired_keeps (s : State) : Res.KeepsCall s s.inReadRequired := by
  rcases s.inReadRequired_cases with ⟨-, h⟩ | ⟨-, h⟩ <;> rw [h]
  · exact .of_ok ⟨rfl, rfl, rfl, rfl, rfl, rfl, rfl, rfl⟩
  · exact .of_raise _ _

theorem State.r16Bit_keeps (s : State) : Res.KeepsCall s s.r16Bit := by
  unfold State.r16Bit
  split
  · exact .of_raise _ _
  · refine .of_ok ?_
    split
    · rw [State.r16Fill_eq]
      split
      · exact ⟨rfl, rfl, rfl, rfl, rfl, rfl, rfl, rfl⟩
      · split <;> exact ⟨rfl, rfl, rfl, rfl, rfl, rfl, rfl, rfl⟩
    · exact ⟨rfl, rfl, rfl, rfl, rfl, rfl, rfl, rfl⟩

theorem State.TookBits.sameCall {s t : State} {n : Nat} (h : s.TookBits n t) : s.SameCall t := by
  rw [h.only]
  exact ⟨rfl, rfl, rfl, rfl, rfl, rfl, rfl, rfl⟩

theorem State.huffSym_keeps (s : State) : Res.KeepsCall s s.huffSym := fun _ _ h => (State.huffSym_took h).sameCall

theorem State.huffSymX_keeps (s : State) : Res.KeepsCall s s.huffSymX := by
  refine s.huffSym_keeps.bind fun a t _ => ?_
  cases a with
  | none => exact .of_raise _ _
  | some sym => exact .of_ok (.refl t)

theorem State.r24GetCw_keeps (s : State) (n : Nat) : Res.KeepsCall s (s.r24GetCw n) := by
  intro a t h
  obtain ⟨o, -, -⟩ := State.r24GetCw_only h
  unfold State.OnlyR24 at o
  rw [o]
  exact ⟨rfl, rfl, rfl, rfl, rfl, rfl, rfl, rfl⟩

/-- The readers leave the call alone along any reading. -/
theorem State.follow_keeps (r : Reading) (s : State) : Res.KeepsCall s (s.follow r) := by
  induction r generalizing s with
  | done i => exact .of_ok (.refl s)
  | bit next ih => exact s.r16Bit_keeps.bind fun b t _ => ih b t
  | raw next ih => exact s.inReadRequired_keeps.bind fun v t _ => ih v t
  | sym next ih => exact s.huffSymX_keeps.bind fun a t _ => ih a t

theorem State.outAppend_keeps (b : Byte) (s : State) : Res.KeepsCall s (s.outAppend b) := by
  unfold State.outAppend
  split
  · exact .of_raise _ _
  · exact .of_ok ⟨rfl, rfl, rfl, rfl, rfl, rfl, rfl, rfl⟩

theorem State.emit_keeps (str : List Byte) (s : State) : Res.KeepsCall s (s.emit str) := by
  induction str generalizing s with
  | nil => exact .of_ok (.refl s)
  | cons b rest ih => exact (s.outAppend_keeps b).bind fun _ t _ => ih t

theorem State.appendRun_keeps (b : Byte) (n : Nat) (s : State) : Res.KeepsCall s (s.appendRun b n) := by
  rw [State.appendRun_eq_emit]
  exact s.emit_keeps _

theorem State.dictRead_keeps (c : Nat) (s : State) : Res.KeepsCall s (s.dictRead c) := by
  unfold State.dictRead
  split
  · exact .of_ok (.refl s)
  · exact .of_fault _ _

theorem State.dietPut_keeps (b : Byte) (s : State) : Res.KeepsCall s (s.dietPut b) := by
  unfold State.dietPut State.outWrite
  split
  · exact .of_ok ⟨rfl, rfl, rfl, rfl, rfl, rfl, rfl, rfl⟩
  · exact .of_fault _ _

theorem State.dietCopyLoop_keeps (count src : Nat) (s : State) : Res.KeepsCall s (s.dietCopyLoop count src) := by
  induction count generalizing src s with
  | zero => exact .of_ok (.refl s)
  | succ count ih =>
    simp only [State.dietCopyLoop]
    split
    · exact .of_ok (.refl s)
    · exact (s.dietPut_keeps _).bind fun _ t _ => ih (src + 1) t

theorem State.dietCopy_keeps (offset : Int) (count : Nat) (s : State) : Res.KeepsCall s (s.dietCopy offset count) := by
  simp only [State.dietCopy]
  split
  · exact .of_raise _ _
  · exact s.dietCopyLoop_keeps _ _

theorem State.lzwWiden_sameCall (s : State) : s.SameCall s.lzwWiden := by
  unfold State.lzwWiden
  split
  · exact ⟨rfl, rfl, rfl, rfl, rfl, rfl, rfl, rfl⟩
  · exact .refl s

theorem State.lzwAppend_keeps (str : List Byte) (s : State) : Res.KeepsCall s (s.lzwAppend str) := by
  unfold State.lzwAppend
  split
  · refine (s.dictRead_keeps _).bind fun p t _ => .of_ok (State.SameCall.trans ?_ (State.lzwWiden_sameCall _))
    exact ⟨rfl, rfl, rfl, rfl, rfl, rfl, rfl, rfl⟩
  · exact .of_ok (.refl s)

theorem State.lzwTail_keeps (str : List Byte) (cw : Code) (s : State) : Res.KeepsCall s (s.lzwTail str cw) :=
  (s.lzwAppend_keeps str).bind fun _ t _ => (t.emit_keeps str).bind fun _ _ _ =>
    .of_ok ⟨rfl, rfl, rfl, rfl, rfl, rfl, rfl, rfl⟩

theorem State.lzwEntry_keeps (c : Code) (s : State) : Res.KeepsCall s (s.lzwEntry c) :=
  (s.dictRead_keeps _).bind fun str t _ => t.lzwTail_keeps str c

/-- What a meaning leaves of a call that was running: `FORMAT`, `PAYLOAD_SIZE`, `CFG`, `SRC` and the host's list. -/
structure State.SameInput (s t : State) : Prop where
  format : t.format = s.format
  payloadSize : t.payloadSize = s.payloadSize
  cfg : t.cfg = s.cfg
  src : t.src = s.src
  pending : t.pending = s.pending

theorem State.SameCall.sameInput {s t : State} (h : s.SameCall t) : s.SameInput t :=
  ⟨h.format, h.payloadSize, h.cfg, h.src, h.pending⟩

theorem State.SameInput.trans {s t u : State} (h : s.SameInput t) (h' : t.SameInput u) : s.SameInput u :=
  ⟨h'.format.trans h.format, h'.payloadSize.trans h.payloadSize, h'.cfg.trans h.cfg, h'.src.trans h.src,
    h'.pending.trans h.pending⟩

/-- A micro-operation that leaves the call alone makes a meaning that leaves the input alone. -/
theorem Res.KeepsCall.outcome {s t : State} {r : Res Unit} (h : Res.KeepsCall s r) (ht : r.outcome s = .next t) :
    s.SameInput t := by
  cases r with
  | ok a u => cases ht; exact (h a t rfl).sameInput
  | raise k => cases ht; exact ⟨rfl, rfl, rfl, rfl, rfl⟩
  | fault f => cases ht

/-- `FINISH` and `raise K` leave the input alone. -/
theorem State.sameInput_finish (s : State) : s.SameInput s.finish := ⟨rfl, rfl, rfl, rfl, rfl⟩

theorem State.sameInput_abort (k : ErrKind) (s : State) : s.SameInput (s.abort k) := ⟨rfl, rfl, rfl, rfl, rfl⟩

end Sys2Proof.Machine
end

