-- ==== Sys2Proof/Tests/Slice0.lean ====
section
/-! SUPPORT. The model's own tests, with expected values from spec/95_test_vectors.md or worked out by hand from the rule
named beside each; and a witness for the hypotheses of each statement of Certificates/Slice0/Obligations.lean. -/

namespace Sys2Proof.Tests

open Sys2Proof.Machine

/-! ### Helpers -/

/-- Something of the next state; nothing where the machine stops. -/
def got {α : Type} (o : Host.Outcome State Fault Refusal) (f : State → α) : Option α :=
  match o with
  | .next t => some (f t)
  | .fault _ => none
  | .refused _ => none

/-- The instruction a list of items decodes to, when nothing is left over. -/
def read (x : Ctx) (items : List Item) : Option Instr :=
  match decode x items with
  | .ok (i, []) => some i
  | .ok (_, _ :: _) => none
  | .error _ => none

def cw (n : Nat) : Item := .cw (BitVec.ofNat 12 n)

def sym (n : Nat) : Item := .sym (BitVec.ofNat 15 n)

/-- Bits of a DIET token, as a number written with the first bit first. -/
def bits : List Nat → List Item := List.map fun b => .bit (b == 1)

def raws : List Byte → List Item := List.map .raw

/-- The LZW context of 95 V-LZW-15. -/
def lzwCtx : Ctx := { Ctx.afterReset .lzw with dictsize := 0x104, pv := true }

def altCtx : Ctx := { lzwCtx with cfg := { Cfg.initial with altLzw := true } }

def huffCtx : Ctx := Ctx.afterReset .huff

def dietCtx : Ctx := Ctx.afterReset .diet

def noneCtx : Ctx := Ctx.afterReset .none

/-- A fresh LZW call over a stream. -/
def lzwOn (stream : List Byte) : State :=
  ({ State.reset with format := .lzw, payloadSize := 4, src := .ofBytes stream } : State).r24Prime

/-- An LZW call in `alt_lzw` mode. -/
def altOn (stream : List Byte) : State := { lzwOn stream with cfg := { Cfg.initial with altLzw := true } }

/-- An LZW call that has decoded `LIT 41, LIT 42` (95 V-LZW-10). -/
def lzwAB : State :=
  { lzwOn [0x20, 0x90] with
    dictsize := 0x103, pv := true, prev := 0x42, dict := [(0x102, [0x41, 0x42])], out := [(0, 0x41), (1, 0x42)], olen := 2 }

/-- The nodes of the tree T2 of 95 section 4. -/
def treeT2 : List (BitVec 16) :=
  [0x0002, 0x0006, 0x000A, 0x000E, 0x0012, 0x0016, 0x001A, 0x000B, 0x0207, 0x0201, 0x0203, 0x0003, 0x0001, 0x0041, 0x01FF]

/-- A fresh Huffman call over a bit stream, with the tree T2. -/
def huffOn (stream : List Byte) : State :=
  { State.reset with format := .huff, payloadSize := 4, nnodes := 15, node := treeT2, src := .ofBytes stream }

/-- A fresh DIET call over a stream. -/
def dietOn (size : BitVec 21) (stream : List Byte) : State :=
  ({ State.reset with format := .diet, payloadSize := size, src := .ofBytes stream } : State).r16Prime

/-- A DIET call that has written `<61 62>` (95 V-DIET-2). -/
def dietAB (size : BitVec 21) : State := { dietOn size [0x00] with out := [(0, 0x61), (1, 0x62)], idx := 2 }

/-- A `decode` call after its `START`. -/
def fileOn (stream : List Byte) : State := { State.reset with src := .ofBytes stream }

/-- A block whose last call ended in an error, with a call waiting. -/
def waiting (c : Call) : State := { State.reset with stState := .err, stErr := 3, ipos := 9, pending := [c] }

/-! ### WellFormed refuses -/

theorem test_wf_format : Instr.wellFormed huffCtx (.lit 0x41) = false := by decide
theorem test_wf_clear_alt : Instr.wellFormed altCtx .clear = false := by decide
theorem test_wf_end_alt : Instr.wellFormed altCtx .endLzw = false := by decide
theorem test_wf_clearAlt_normal : Instr.wellFormed lzwCtx .clearAlt = false := by decide
theorem test_wf_endAlt_normal : Instr.wellFormed lzwCtx .endLzwAlt = false := by decide
theorem test_wf_ref_low : Instr.wellFormed lzwCtx (.ref 0x101) = false := by decide
theorem test_wf_ref_high : Instr.wellFormed lzwCtx (.ref 0x104) = false := by decide
theorem test_wf_kwkwk_not_next : Instr.wellFormed lzwCtx (.kwkwk 0x105) = false := by decide
theorem test_wf_kwkwk_no_context : Instr.wellFormed (Ctx.afterReset .lzw) (.kwkwk 0x102) = false := by decide
theorem test_wf_kwkwk_low : Instr.wellFormed { lzwCtx with dictsize := 0x41 } (.kwkwk 0x41) = false := by decide
theorem test_wf_illegal_learned : Instr.wellFormed lzwCtx (.illegal 0x103) = false := by decide
theorem test_wf_illegal_next : Instr.wellFormed lzwCtx (.illegal 0x104) = false := by decide
theorem test_wf_illegal_low : Instr.wellFormed lzwCtx (.illegal 0x100) = false := by decide
theorem test_wf_run_hi : Instr.wellFormed huffCtx (.run 0 3) = false := by decide
theorem test_wf_run_count : Instr.wellFormed huffCtx (.run 1 1) = false := by decide
theorem test_wf_run8_hi : Instr.wellFormed huffCtx (.run8 0 5) = false := by decide
theorem test_wf_run16_hi : Instr.wellFormed huffCtx (.run16 0 5 6) = false := by decide
theorem test_wf_short_sentinel : Instr.wellFormed dietCtx (.short 0xFF) = false := by decide
theorem test_wf_long_hi : Instr.wellFormed dietCtx (.long 0 0x00 1) = false := by decide
theorem test_wf_long_count_low : Instr.wellFormed dietCtx (.long 0 0xFF 0) = false := by decide
theorem test_wf_long_count_high : Instr.wellFormed dietCtx (.long 0 0xFF 271) = false := by decide
theorem test_wf_routeDiet_offset :
    Instr.wellFormed { noneCtx with cfg := { Cfg.initial with dietPayloadOffset := 4 } } (.routeDiet 0 1 0) = false := by
  decide
theorem test_wf_routeTtfLzw_sig :
    Instr.wellFormed { noneCtx with cfg := { Cfg.initial with dietSig := 0x1001 } } (.routeTtfLzw 0x01 1 0) = false := by
  decide
theorem test_wf_routeTtfHuff_type : Instr.wellFormed noneCtx (.routeTtfHuff 0 0x10 1 0) = false := by decide
theorem test_wf_routeTtfHuff_sig : Instr.wellFormed noneCtx (.routeTtfHuff 0xB4 0x4C 1 0) = false := by decide

/-! ### Decoding: words written out from spec/30_encoding.md -/

theorem test_decode_lit : read lzwCtx [cw 0b000001111110] = some (.lit 0x7E) := by decide
theorem test_decode_lit_last : read lzwCtx [cw 0b000011111111] = some (.lit 0xFF) := by decide
theorem test_decode_clear : read lzwCtx [cw 0b000100000000] = some .clear := by decide
theorem test_decode_end : read lzwCtx [cw 0b000100000001] = some .endLzw := by decide
theorem test_decode_clear_alt : read altCtx [cw 0b000100000001] = some .clearAlt := by decide
theorem test_decode_end_alt : read altCtx [cw 0b000100000000] = some .endLzwAlt := by decide
theorem test_decode_ref : read lzwCtx [cw 0b000100000010] = some (.ref 0x102) := by decide
theorem test_decode_kwkwk : read lzwCtx [cw 0b000100000100] = some (.kwkwk 0x104) := by decide
theorem test_decode_illegal : read lzwCtx [cw 0b000111111111] = some (.illegal 0x1FF) := by decide
/-- At the cap the last code is learned (42_lzw R202). -/
theorem test_decode_ref_at_cap : read { lzwCtx with dictsize := 4096 } [cw 0xFFF] = some (.ref 0xFFF) := by decide
theorem test_decode_litsym : read huffCtx [sym 0b000000010000001] = some (.litsym 0x81) := by decide
theorem test_decode_run : read huffCtx [sym 0b100000100000010] = some (.run 0x41 2) := by decide
theorem test_decode_run8 : read huffCtx [sym 0b000001100000000, sym 0x0205] = some (.run8 3 0x0205) := by decide
theorem test_decode_run16 :
    read huffCtx [sym 0b111111100000001, sym 0x0012, sym 0x7F34] = some (.run16 0x7F 0x12 0x7F34) := by decide
theorem test_decode_literal : read dietCtx (bits [1] ++ raws [0x80]) = some (.literal 0x80) := by decide
theorem test_decode_short : read dietCtx (bits [0] ++ raws [0x01] ++ bits [0, 0]) = some (.short 0x01) := by decide
theorem test_decode_sentinel : read dietCtx (bits [0] ++ raws [0xFF] ++ bits [0, 0]) = some .sentinel := by decide
theorem test_decode_shortx :
    read dietCtx (bits [0] ++ raws [0x01] ++ bits [0, 1, 1, 0, 0]) = some (.shortx 0x01 4) := by decide
/-- 44_diet R268 by hand: data bit 0, no extension gives `0xFE`; 44_diet R269: `0 0 1` gives 3. -/
theorem test_decode_long :
    read dietCtx (bits [0] ++ raws [0x01] ++ bits [1, 0, 1, 0, 0, 1]) = some (.long 0x01 0xFE 3) := by decide
/-- The raw byte of the last count class comes after its six bits (30_encoding R104). -/
theorem test_decode_long_raw :
    read dietCtx (bits [0] ++ raws [0x01] ++ bits [1, 1, 1, 0, 0, 0, 0, 0, 1] ++ raws [0xFF]) =
      some (.long 0x01 0xFF 270) := by decide
theorem test_decode_routeDiet :
    read noneCtx (raws [0xB4, 0x4C, 9, 9, 9, 9, 9, 9, 9, 9, 9, 9, 9, 9, 0x0C, 0x02, 0x01]) =
      some (.routeDiet 0x0C 0x02 0x01) := by decide
theorem test_decode_routeTtfLzw : read noneCtx (raws [0x2A, 0x10, 0x02, 0x01]) = some (.routeTtfLzw 0x2A 0x02 0x01) := by
  decide
theorem test_decode_routeTtfHuff :
    read noneCtx (raws [0x2A, 0x00, 0x02, 0x01]) = some (.routeTtfHuff 0x2A 0x00 0x02 0x01) := by decide

/-! ### Words of the opcode table, placed as the first instruction (log 3) -/

theorem test_table_codeword : decodeTableWord 16 0x041 = some (.lit 0x41) := by decide
theorem test_table_symbol : decodeTableWord 16 0x4103 = some (.run 0x41 3) := by decide
theorem test_table_token : decodeTableWord 24 0xFE0000 = some (.short 0xFE) := by decide
theorem test_table_header : decodeTableWord 8 0x10 = some (.routeTtfLzw 0 0 0) := by decide
theorem test_place_codeword :
    got (step (State.reset.withFetchWord 16 0x041)) (fun t => (t.out, t.olen)) = some ([(0, 0x41)], 1) := by decide
theorem test_place_symbol :
    got (step (State.reset.withFetchWord 16 0x4103)) (fun t => (t.stState, t.olen)) = some (.run, 3) := by decide
theorem test_place_token :
    got (step (State.reset.withFetchWord 24 0x7A0001)) (fun t => (t.out, t.idx)) = some ([(0, 0x7A)], 1) := by decide
theorem test_place_header :
    got (step (State.reset.withFetchWord 8 0x10)) (fun t => (t.format, t.stState)) = some (.lzw, .done) := by decide

/-! ### Readers -/

/-- 95 V-R24-1, the first two rows. -/
theorem test_r24_prime :
    (fun s : State => (s.buf, s.missing, s.navail, s.ipos)) (lzwOn [0xAB, 0xCD, 0xEF, 0x12, 0x34, 0x56, 0x78, 0x9A]) =
      (0xABCDEF, 0, 24, 3) := by decide

/-- 95 V-RMSB-1, the first four bits. -/
theorem test_rmsb : ((huffOn [0xA0, 0x01]).takesRmsb [true, false, true, false]).isSome = true := by decide

/-! ### LZW -/

/-- 95 V-LZW-8, first codeword. -/
theorem test_lit_first :
    got (step (lzwOn [0x20, 0x90, 0x80])) (fun t => (t.out, t.pv, t.prev, t.dictsize)) =
      some ([(0, 0x41)], true, 0x41, 0x102) := by decide

/-- 42_lzw R200 by hand: the append that reaches `0x200` widens the codeword. -/
theorem test_lit_widens :
    got (exec (.lit 0x42) { lzwOn [0x00] with dictsize := 0x1FF, pv := true, prev := 0x41 })
      (fun t => (t.dictsize, t.nbit, t.dict)) = some (0x200, 10, [(0x1FF, [0x41, 0x42])]) := by decide

/-- 42_lzw R197 by hand: the learned entries go, `OUT` and `prev` stay. -/
theorem test_clear :
    got (exec .clear lzwAB) (fun t => (t.dict, t.dictsize, t.pv, t.olen, t.prev)) = some ([], 0x102, false, 2, 0x42) := by
  decide

/-- 95 V-LZW-5. -/
theorem test_end : got (step (lzwOn [0x80, 0x80])) (fun t => (t.stState, t.result.isSome)) = some (.done, true) := by decide

/-- 95 V-LZW-3, first codeword. -/
theorem test_clear_alt :
    got (step (altOn [0x80, 0x90, 0x48])) (fun t => (t.stState, t.dictsize)) = some (.run, 0x102) := by decide

/-- 95 V-LZW-5 with `ALT_LZW = 1`. -/
theorem test_end_alt : got (step (altOn [0x80, 0x00])) (fun t => t.stState) = some .done := by decide

/-- 95 V-LZW-10, step 3. -/
theorem test_ref :
    got (exec (.ref 0x102) lzwAB) (fun t => (t.dict, t.out.take 0 4, t.olen, t.prev)) =
      some ([(0x102, [0x41, 0x42]), (0x103, [0x42, 0x41])], [0x41, 0x42, 0x41, 0x42], 4, 0x102) := by decide

/-- 42_lzw R196 by hand on the same state: the string is `<42 42>`. -/
theorem test_kwkwk :
    got (exec (.kwkwk 0x103) lzwAB) (fun t => (t.dict.read 0x103, t.out.take 0 4, t.dictsize)) =
      some (some [0x42, 0x42], [0x41, 0x42, 0x42, 0x42], 0x104) := by decide

/-- 95 V-LZW-7: the first codeword is `dictsize` without a previous context. -/
theorem test_illegal : got (step (lzwOn [0x81, 0x40, 0x40])) (fun t => (t.stState, t.stErr)) = some (.err, 2) := by decide

/-- 95 V-LZW-14: the capacity is met inside the string. -/
theorem test_out_cap :
    got (exec (.ref 0x102) { lzwAB with cfg := { Cfg.initial with outCap := some 3 } }) (fun t => (t.stState, t.stErr)) =
      some (.err, 6) := by decide

/-! ### Huffman+RLE -/

/-- 95 S4, first symbol, as the path `000` of T2. -/
theorem test_litsym :
    got (step (huffOn [0x04])) (fun t => (t.out, t.olen, t.last, t.bitcnt)) = some ([(0, 0x05)], 1, 0x05, 5) := by decide

/-- 95 S4, second symbol. -/
theorem test_run :
    got (exec (.run 1 3) { huffOn [] with out := [(0, 5)], olen := 1, last := 5 }) (fun t => (t.out.take 0 5, t.olen)) =
      some ([5, 5, 5, 5, 0], 4) := by decide

/-- 43_huffman_rle R237 by hand: the high part of the extension symbol is ignored. -/
theorem test_run8 :
    got (exec (.run8 1 0x0205) { huffOn [] with last := 7 }) (fun t => (t.olen, t.out.read 4, t.last)) =
      some (5, 7, 7) := by decide

/-- 43_huffman_rle R238 by hand: the first extension symbol is the high byte. -/
theorem test_run16 :
    run16Count 0x0201 0x0003 = 259 ∧ got (exec (.run16 1 0x0200 0x0103) (huffOn [])) (fun t => t.olen) = some 3 := by
  decide

/-- 43_huffman_rle R239: the end of the stream is a normal end. -/
theorem test_huff_eos : got (step (huffOn [])) (fun t => (t.stState, t.stErr)) = some (.done, 0) := by decide

/-- The examples of 43_huffman_rle R232, read with the default `HUFF_NODE_DECODE`. -/
theorem test_node_default :
    Cfg.initial.nodeDecode.apply 0x0083 = .leaf 0x0041 ∧ Cfg.initial.nodeDecode.apply 0x0002 = .internal 1 := by decide

/-! ### DIET -/

/-- 95 V-DIET, `b:1 B:7A`. -/
theorem test_literal :
    got (step (dietOn 3 [0x01, 0x00, 0x7A])) (fun t => (t.out, t.idx, t.ipos)) = some ([(0, 0x7A)], 1, 3) := by decide

/-- Offset -2, repeat 2. -/
theorem test_short : got (exec (.short 0xFE) (dietAB 4)) (fun t => (t.out.take 0 4, t.idx)) =
    some ([0x61, 0x62, 0x61, 0x62], 4) := by decide

/-- The same copy cut at `PAYLOAD_SIZE` (decision D25). -/
theorem test_short_cut : got (exec (.short 0xFE) (dietAB 3)) (fun t => (t.out.take 0 4, t.idx)) =
    some ([0x61, 0x62, 0x61, 0x00], 3) := by decide

theorem test_sentinel : got (exec .sentinel (dietAB 4)) (fun t => t.result.map Except.toOption) =
    some (some (some [0x61, 0x62, 0x00, 0x00])) := by decide

/-- `t = 7`, `lo = 0xFE`: offset `0xFEFE - 0x10000 = -258`. -/
theorem test_shortx :
    got (exec (.shortx 0xFE 7) { dietOn 400 [] with out := [(42, 0xAA), (43, 0xBB)], idx := 300 })
      (fun t => (t.out.take 300 3, t.idx)) = some ([0xAA, 0xBB, 0x00], 302) := by decide

/-- 95 V-DIET-4: offset -1, three bytes. -/
theorem test_long : got (exec (.long 0xFF 0xFF 1) (dietAB 9)) (fun t => (t.out.take 0 6, t.idx)) =
    some ([0x61, 0x62, 0x62, 0x62, 0x62, 0x00], 5) := by decide

/-- The source index is `idx - 3 < 0`. -/
theorem test_long_before_start :
    got (exec (.long 0xFD 0xFF 1) (dietAB 9)) (fun t => (t.stState, t.stErr)) = some (.err, 4) := by decide

/-! ### Container routes and calls -/

theorem test_route_diet :
    got (step (fileOn [0xB4, 0x4C, 0, 0, 0, 0, 0, 0, 0, 0, 0, 0, 0, 0, 0x06, 0x03, 0x02, 0xCD, 0xAB]))
      (fun t => (t.format, t.payloadSize, t.w, t.valid, t.ipos)) = some (.diet, 0x10203, 0xABCD, 16, 19) := by decide

theorem test_route_ttf_lzw :
    got (step (fileOn [0xF1, 0x10, 0x34, 0x12, 0x80, 0x80])) (fun t => (t.format, t.payloadSize, t.buf, t.navail)) =
      some (.lzw, 0x11234, 0x808000, 16) := by decide

/-- The tree T1 of 95 section 4. -/
theorem test_route_ttf_huff :
    got (step (fileOn [0x00, 0x11, 0x04, 0x00, 0x06, 0x00, 0x02, 0x00, 0x83, 0x00, 0x85, 0x00, 0x00]))
      (fun t => (t.format, t.nnodes, t.node, t.ipos)) = some (.huff, 3, [0x0002, 0x0083, 0x0085], 12) := by decide

theorem test_no_source : got (step State.reset) (fun t => (t.stState, t.stErr)) = some (.err, 1) := by decide

theorem test_start :
    got (step (waiting ⟨Cfg.initial, .ofBytes [0x00], .decode⟩)) (fun t => (t.stState, t.stErr, t.ipos, t.pending)) =
      some (.run, 0, 0, []) := by decide

/-! ### Witnesses: states that meet the invariant -/

/-- A running LZW call is in order when these parts of it are. -/
theorem inv_lzw {s : State} (hf : s.format = .lzw) (hm : s.out.wf ∧ s.dict.wf ∧ s.src.wf = true ∧ s.pending = [])
    (hs : s.stState = .run ∧ s.stErr = 0) (hi : s.ipos ≤ s.inLen) (hr : s.R24Ok) (hw : s.WindowOk) (hl : s.LzwOk)
    (hz : s.RmsbAtReset ∧ s.HuffAtReset ∧ s.R16AtReset ∧ s.idx = 0) (ho : s.OutBelow s.olen) : s.Inv where
  mem := ⟨hm.1, hm.2.1, hm.2.2.1, by simp [hm.2.2.2]⟩
  status := ⟨by simp [hs], by simp [hs]⟩
  run _ := ⟨hi, by simp [hf, hr, hw], by simp [hf, hl], fun _ => hz.1, by simpa [hf] using hz.2.1, fun _ => hz.2.2.1,
    by simp [hf, hz.2.2.2], by simpa [hf] using ho, by simp [hf]⟩

/-- A running Huffman call is in order when these parts of it are. -/
theorem inv_huff {s : State} (hf : s.format = .huff) (hm : s.out.wf ∧ s.dict.wf ∧ s.src.wf = true ∧ s.pending = [])
    (hs : s.stState = .run ∧ s.stErr = 0) (hi : s.ipos ≤ s.inLen) (hh : s.HuffOk)
    (hz : s.R24AtReset ∧ s.LzwAtReset ∧ s.R16AtReset ∧ s.idx = 0) (ho : s.OutBelow s.olen) : s.Inv where
  mem := ⟨hm.1, hm.2.1, hm.2.2.1, by simp [hm.2.2.2]⟩
  status := ⟨by simp [hs], by simp [hs]⟩
  run _ := ⟨hi, by simpa [hf] using hz.1, by simpa [hf] using hz.2.1, by simp [hf], by simp [hf, hh], fun _ => hz.2.2.1,
    by simp [hf, hz.2.2.2], by simpa [hf] using ho, by simp [hf]⟩

/-- A running DIET call is in order when these parts of it are. -/
theorem inv_diet {s : State} (hf : s.format = .diet) (hm : s.out.wf ∧ s.dict.wf ∧ s.src.wf = true ∧ s.pending = [])
    (hs : s.stState = .run ∧ s.stErr = 0) (hi : s.ipos ≤ s.inLen) (hd : s.DietOk)
    (hz : s.R24AtReset ∧ s.LzwAtReset ∧ s.RmsbAtReset ∧ s.HuffAtReset)
    (ho : s.OutBelow s.idx.toNat ∧ s.olen = 0) : s.Inv where
  mem := ⟨hm.1, hm.2.1, hm.2.2.1, by simp [hm.2.2.2]⟩
  status := ⟨by simp [hs], by simp [hs]⟩
  run _ := ⟨hi, by simpa [hf] using hz.1, by simpa [hf] using hz.2.1, fun _ => hz.2.2.1, by simpa [hf] using hz.2.2.2,
    by simp [hf], by simp [hf, hd], by simpa [hf] using ho, by simp [hf]⟩

/-- A call that has not read its header is in order when these parts of it are. -/
theorem inv_none {s : State} (hf : s.format = .none) (hm : s.out = [] ∧ s.dict.wf ∧ s.src.wf = true ∧ s.pending = [])
    (hs : s.stState = .run ∧ s.stErr = 0)
    (hz : s.R24AtReset ∧ s.LzwAtReset ∧ s.RmsbAtReset ∧ s.HuffAtReset ∧ s.R16AtReset ∧ s.idx = 0)
    (h0 : s.ipos = 0 ∧ s.payloadSize = 0 ∧ s.olen = 0) : s.Inv where
  mem := ⟨by rw [hm.1]; exact Memory.wf_nil, hm.2.1, hm.2.2.1, by simp [hm.2.2.2]⟩
  status := ⟨by simp [hs], by simp [hs]⟩
  run _ := ⟨by simp [h0.1], by simpa [hf] using hz.1, by simpa [hf] using hz.2.1, fun _ => hz.2.2.1,
    by simpa [hf] using hz.2.2.2.1, fun _ => hz.2.2.2.2.1, by simpa [hf] using hz.2.2.2.2.2, by simp [hf, hm.1],
    fun _ => h0⟩

theorem inv_file (stream : List Byte) : (fileOn stream).Inv :=
  inv_none rfl ⟨rfl, Dict.wf_nil, Source.wf_ofBytes stream, rfl⟩ ⟨rfl, rfl⟩
    ⟨⟨rfl, rfl, rfl⟩, ⟨rfl, rfl, rfl, rfl, rfl⟩, ⟨rfl, rfl⟩, ⟨rfl, rfl, rfl⟩, ⟨rfl, rfl, rfl⟩, rfl⟩ ⟨rfl, rfl, rfl⟩

/-- The stream of 95 V-LZW-8. -/
def lzwLits : State := lzwOn [0x20, 0x90, 0x80]

theorem inv_lzwLits : lzwLits.Inv :=
  inv_lzw rfl (by decide) (by decide) (by decide) ⟨by decide, by decide, by decide, by decide⟩
    ⟨by decide, by decide⟩ (State.LzwOk.of_reset (by decide)) (by decide) (by decide)

theorem lzwOk_AB : lzwAB.LzwOk :=
  ⟨by decide, by decide, by decide, by decide, by decide, by decide, by decide, by decide, by
    intro e he
    obtain rfl : e = (0x102, [0x41, 0x42]) := by simpa [lzwAB] using he
    exact ⟨0x41, [0x41], 0x42, by decide, by decide, rfl⟩⟩

theorem inv_lzwAB : lzwAB.Inv :=
  inv_lzw rfl (by decide) (by decide) (by decide) ⟨by decide, by decide, by decide, by decide⟩
    ⟨by decide, by decide⟩ lzwOk_AB (by decide) (by decide)

/-- The same call with a capacity. -/
def lzwCap (cap : Nat) : State := { lzwAB with cfg := { Cfg.initial with outCap := some cap } }

theorem inv_lzwCap (cap : Nat) : (lzwCap cap).Inv :=
  inv_lzw rfl (show lzwAB.out.wf ∧ lzwAB.dict.wf ∧ lzwAB.src.wf = true ∧ lzwAB.pending = [] by decide)
    (show lzwAB.stState = .run ∧ lzwAB.stErr = 0 by decide) (show lzwAB.ipos ≤ lzwAB.inLen by decide)
    ⟨show lzwAB.missing.toNat ≤ 7 by decide, show lzwAB.navail.toNat + lzwAB.missing.toNat ≤ 24 by decide,
      show ∀ i, i < 24 - lzwAB.navail.toNat → lzwAB.buf.getLsbD i = false by decide,
      show lzwAB.exhausted = false → lzwAB.navail.toNat + lzwAB.missing.toNat = 24 by decide⟩
    (show lzwAB.WindowOk from ⟨by decide, by decide⟩)
    ⟨lzwOk_AB.nbit, lzwOk_AB.dictsize, lzwOk_AB.widthLow, lzwOk_AB.widthHigh, lzwOk_AB.fresh, lzwOk_AB.prev, lzwOk_AB.codes,
      lzwOk_AB.lengths, lzwOk_AB.grown⟩
    (show lzwAB.RmsbAtReset ∧ lzwAB.HuffAtReset ∧ lzwAB.R16AtReset ∧ lzwAB.idx = 0 by decide)
    (show lzwAB.OutBelow lzwAB.olen by decide)

/-- An LZW call whose dictionary is full: every learned entry is `<00 00>`. -/
def lzwFull : State :=
  { lzwOn [0x00, 0x00] with
    nbit := 12, dictsize := 0x1000, pv := true, prev := 0
    dict := (List.range' dictInit (4096 - dictInit)).map fun c => (c, [0, 0]) }

theorem inv_lzwFull : lzwFull.Inv := by
  have hmem : ∀ e ∈ lzwFull.dict, e.2 = [0, 0] ∧ dictInit ≤ e.1 := by
    intro e he
    obtain ⟨c, hc, rfl⟩ := List.mem_map.1 he
    exact ⟨rfl, (List.mem_range'_1.1 hc).1⟩
  refine inv_lzw rfl ⟨by decide, ⟨?_, fun e he => ?_⟩, by decide, rfl⟩ ⟨rfl, rfl⟩ (by decide)
    ⟨by decide, by decide, by decide, by decide⟩ ⟨by decide, by decide⟩
    ⟨by decide, by decide, .inr (by decide), .inl (by decide), by decide, by decide, ?_, fun e he => ?_, fun e he => ?_⟩
    ⟨by decide, by decide, by decide, by decide⟩ (by decide)
  · exact List.pairwise_map.2 (List.pairwise_lt_range' (s := dictInit) (n := 4096 - dictInit))
  · have := (hmem e he).2; simp only [dictInit] at this; omega
  · show List.map Prod.fst (List.map _ _) = _
    rw [List.map_map]
    exact List.map_id _
  · have := hmem e he
    rw [this.1]
    simp only [dictInit] at this
    simp only [List.length_cons, List.length_nil]
    omega
  · have := hmem e he
    simp only [dictInit] at this
    exact ⟨0, [0], 0, by omega, by rw [Dict.read_of_lt (by decide)]; rfl, this.1⟩

/-- A Huffman call over the stream of 95 S4 (paths `000` and `001`). -/
def huffRun : State := huffOn [0x04]

theorem inv_huffRun : huffRun.Inv :=
  inv_huff rfl (by decide) (by decide) (by decide) ⟨by decide, by decide⟩ (by decide) (by decide)

/-- A DIET call over the stream of 95 V-DIET-1. -/
def dietRun : State := dietOn 3 [0x01, 0x00, 0x7A, 0xFF]

theorem inv_dietRun : dietRun.Inv :=
  inv_diet rfl (by decide) (by decide) (by decide) ⟨by decide, by decide, by decide, by decide⟩ (by decide) (by decide)

theorem inv_dietAB : (dietAB 4).Inv :=
  inv_diet rfl (by decide) (by decide) (by decide) ⟨by decide, by decide, by decide, by decide⟩ (by decide) (by decide)

/-- A TTF header with type byte `0x10`. -/
def ttfFile : State := fileOn [0xF1, 0x10, 0x34, 0x12]

/-! ### Witnesses: encoding -/

theorem witness_DecodeOfEncode : Instr.wellFormed dietCtx (.long 0x12 0xE0 270) = true := by decide

theorem witness_EveryCodewordHasOneMeaning : lzwCtx.format = .lzw := rfl

/-- Both modes, a learned code, the next code, codes above it, and the first code without a previous context. -/
theorem witness_LzwOpcodeMap :
    lzwCtx.cfg.altLzw = false ∧ altCtx.cfg.altLzw = true ∧ (0xFF : Code).toNat ≤ 0xFF ∧
    (0x102 ≤ (0x103 : Code).toNat ∧ (0x103 : Code).toNat < lzwCtx.dictsize.toNat) ∧
    (0x102 ≤ (0x104 : Code).toNat ∧ (0x104 : Code).toNat = lzwCtx.dictsize.toNat ∧ lzwCtx.pv = true ∧
      lzwCtx.dictsize.toNat < 4096) ∧
    (0x102 ≤ (0x105 : Code).toNat ∧ lzwCtx.dictsize.toNat < (0x105 : Code).toNat) ∧
    (0x102 ≤ (0x102 : Code).toNat ∧ (0x102 : Code).toNat = (Ctx.afterReset .lzw).dictsize.toNat ∧
      (Ctx.afterReset .lzw).pv = false) := by decide

theorem witness_HuffmanOpcodeMap : huffCtx.format = .huff ∧ (1 : BitVec 7) ≠ 0 ∧ 2 ≤ (2 : Byte).toNat := by decide

/-- The longest path of each parameter's default, with and without a raw byte (44_diet R268, R269). -/
theorem witness_DietTokenFormats :
    dietCtx.format = .diet ∧ (0xFE : Byte) ≠ 0xFF ∧
    leafAt [true, false, false, true, false, true, false, true] dietCtx.cfg.longOffsetHi = some 0xEF ∧
    leafAt [false, false, false, false, false, false, true, false, true] dietCtx.cfg.longCount = some (.exact 12) ∧
    leafAt [false, false, false, false, false, true] dietCtx.cfg.longCount = some (.rawPlus 15) := by decide

/-- Both type bytes beside a signature that differs, and the signature itself at the front of 14 skipped bytes. -/
theorem witness_ContainerHeaders :
    noneCtx.format = .none ∧ (0x10 : Byte) ++ (0x00 : Byte) ≠ noneCtx.cfg.dietSig ∧
    (0x11 : Byte) ++ (0x00 : Byte) ≠ noneCtx.cfg.dietSig ∧
    [0xB4, 0x4C, (0 : Byte), 0, 0, 0, 0, 0, 0, 0, 0, 0, 0, 0].length + 3 = noneCtx.cfg.dietPayloadOffset ∧
    (0x4C : Byte) ++ (0xB4 : Byte) = noneCtx.cfg.dietSig := by decide

/-- The least offset that has a layout: the size bytes are the first three, signature bytes included. -/
theorem witness_ContainerHeaders_least :
    let c : Cfg := { Cfg.initial with dietPayloadOffset := 3 }
    ([] : List Byte).length + 3 = c.dietPayloadOffset ∧ (0x4C : Byte) ++ (0xB4 : Byte) = c.dietSig := by decide

theorem witness_LongCountTable : dietCtx.format = .diet ∧ dietCtx.cfg = Cfg.initial := ⟨rfl, rfl⟩

theorem witness_LongOffsetTable : dietCtx.format = .diet ∧ dietCtx.cfg = Cfg.initial := ⟨rfl, rfl⟩

/-! ### Witnesses: the step -/

/-- What the statement that a step runs the decoded instruction asks of a state and items. -/
def StepWitness (s : State) (items : List Item) (i : Instr) : Prop :=
  s.Inv ∧ s.stState = .run ∧ (s.format = .diet → s.idx ≠ s.payloadSize) ∧ read s.ctx items = some i ∧
    (s.takes items).isSome = true

theorem witness_StepRuns_lzw : StepWitness lzwLits [cw 0x041] (.lit 0x41) :=
  ⟨inv_lzwLits, rfl, by decide, by decide, by decide⟩

theorem witness_StepRuns_huff : StepWitness huffRun [sym 0x0005] (.litsym 0x05) :=
  ⟨inv_huffRun, rfl, by decide, by decide, by decide⟩

theorem witness_StepRuns_diet : StepWitness dietRun (bits [1] ++ raws [0x7A]) (.literal 0x7A) :=
  ⟨inv_dietRun, rfl, by decide, by decide, by decide⟩

theorem witness_StepRuns_header :
    StepWitness ttfFile (raws [0xF1, 0x10, 0x34, 0x12]) (.routeTtfLzw 0xF1 0x34 0x12) :=
  ⟨inv_file _, rfl, by decide, by decide, by decide⟩

/-- A fetch that gives an instruction. -/
def fetched (s : State) : Option Instr :=
  match s.fetch with
  | .execute i _ => some i
  | .ended _ => none

theorem witness_FetchedWellFormed :
    dietRun.Inv ∧ dietRun.stState = .run ∧ fetched dietRun = some (.literal 0x7A) :=
  ⟨inv_dietRun, rfl, by decide⟩

/-- With `DIET_PAYLOAD_OFFSET = 2` the size bytes are the first three (log 15). -/
theorem witness_FetchedWellFormed_offset :
    let s : State := { fileOn [0xB4, 0x4C, 0x01] with cfg := { Cfg.initial with dietPayloadOffset := 2 } }
    s.Inv ∧ s.stState = .run ∧ fetched s = some (.routeDiet 0xB4 0x4C 0x01) :=
  ⟨inv_none rfl ⟨rfl, Dict.wf_nil, Source.wf_ofBytes _, rfl⟩ ⟨rfl, rfl⟩
    ⟨⟨rfl, rfl, rfl⟩, ⟨rfl, rfl, rfl, rfl, rfl⟩, ⟨rfl, rfl⟩, ⟨rfl, rfl, rfl⟩, ⟨rfl, rfl, rfl⟩, rfl⟩ ⟨rfl, rfl, rfl⟩,
    rfl, by decide⟩

/-! ### Witnesses: memories and readers -/

theorem witness_EqualReads : Memory.wf [(3, 0x41)] ∧ ∀ a, Memory.read a [(3, 0x41)] = Memory.read a [(3, 0x41)] :=
  ⟨by decide, fun _ => rfl⟩

/-- 16 bits are left: enough for a codeword of 9 to 12 bits. -/
theorem witness_CodewordReader_delivers :
    (lzwOn [0x80, 0x80]).R24Ok ∧ (lzwOn [0x80, 0x80]).WindowOk ∧ (lzwOn [0x80, 0x80]).ipos ≤ (lzwOn [0x80, 0x80]).inLen ∧
      (lzwOn [0x80, 0x80]).bitPos + 12 ≤ 8 * (lzwOn [0x80, 0x80]).inLen :=
  ⟨⟨by decide, by decide, by decide, by decide⟩, ⟨by decide, by decide⟩, by decide, by decide⟩

/-- 8 bits are left: one too few (95 V-R24-2). -/
theorem witness_CodewordReader_raises :
    (lzwOn [0x80]).R24Ok ∧ (lzwOn [0x80]).WindowOk ∧ (lzwOn [0x80]).ipos ≤ (lzwOn [0x80]).inLen ∧
      8 * (lzwOn [0x80]).inLen < (lzwOn [0x80]).bitPos + 9 :=
  ⟨⟨by decide, by decide, by decide, by decide⟩, ⟨by decide, by decide⟩, by decide, by decide⟩

theorem witness_MsbReader :
    ({ huffRun with bitcnt := 1 } : State).bitcnt ≠ 0 ∧
    (huffRun.bitcnt = 0 ∧ huffRun.exhausted = false) ∧
    ((huffOn []).bitcnt = 0 ∧ (huffOn []).exhausted = true) := by decide

/-- No real bit; two bits left; the last bit with two bytes, one byte and no byte after it; a fresh word. -/
theorem witness_LsbReader :
    (dietOn 3 []).valid = 0 ∧
    (let s : State := { dietOn 3 [1, 0] with cnt := 2, valid := 2 }; s.valid ≠ 0 ∧ s.cnt ≠ 1) ∧
    (let s : State := { dietOn 3 [1, 0, 2, 0] with cnt := 1, valid := 1 };
      s.valid ≠ 0 ∧ s.cnt = 1 ∧ s.ipos + 2 ≤ s.inLen) ∧
    (let s : State := { dietOn 3 [1, 0, 2] with cnt := 1, valid := 1 };
      s.valid ≠ 0 ∧ s.cnt = 1 ∧ s.ipos + 1 = s.inLen) ∧
    (let s : State := { dietOn 3 [1, 0] with cnt := 1, valid := 1 };
      s.valid ≠ 0 ∧ s.cnt = 1 ∧ s.inLen ≤ s.ipos) ∧
    ((dietOn 3 [1, 0]).valid = 16 ∧ (dietOn 3 [1, 0]).cnt = 16) := by decide

/-! ### Witnesses: LZW -/

theorem room_lzwCap {cap n : Nat} (h : 2 + n ≤ cap) : (lzwCap cap).Room n := by
  intro c hc
  have hc' : some cap = some c := hc
  injection hc' with hc'
  show 2 + n ≤ c
  omega

theorem noRoom_lzwCap {cap n : Nat} (h : 2 ≤ cap) (h' : cap < 2 + n) : (lzwCap cap).NoRoom n := ⟨cap, rfl, h, h'⟩

/-- Room for exactly one byte, and for none. -/
theorem witness_LitResult :
    ((lzwCap 3).Inv ∧ (lzwCap 3).stState = .run ∧ (lzwCap 3).format = .lzw ∧ (lzwCap 3).Room 1) ∧
    ((lzwCap 2).Inv ∧ (lzwCap 2).stState = .run ∧ (lzwCap 2).format = .lzw ∧ (lzwCap 2).NoRoom 1) :=
  ⟨⟨inv_lzwCap 3, rfl, rfl, room_lzwCap (by decide)⟩, inv_lzwCap 2, rfl, rfl, noRoom_lzwCap (by decide) (by decide)⟩

/-- The code `0x102` of `<41 42>`: room for exactly two bytes, and for one. -/
theorem witness_RefResult :
    ((lzwCap 4).Inv ∧ (lzwCap 4).stState = .run ∧ (lzwCap 4).format = .lzw ∧ 0x102 ≤ (0x102 : Code).toNat ∧
      (0x102 : Code).toNat < (lzwCap 4).dictsize.toNat ∧ (lzwCap 4).Room 2) ∧
    ((lzwCap 3).Inv ∧ (0x102 : Code).toNat < (lzwCap 3).dictsize.toNat ∧ (lzwCap 3).NoRoom 2) :=
  ⟨⟨inv_lzwCap 4, rfl, rfl, by decide, by decide, room_lzwCap (by decide)⟩, inv_lzwCap 3, by decide,
    noRoom_lzwCap (by decide) (by decide)⟩

/-- The code `0x103 = dictsize` after `<42>`. -/
theorem witness_KwkwkResult :
    ((lzwCap 4).Inv ∧ (lzwCap 4).stState = .run ∧ (lzwCap 4).format = .lzw ∧
      (0x103 : Code).toNat = (lzwCap 4).dictsize.toNat ∧ (lzwCap 4).pv = true ∧ (lzwCap 4).dictsize.toNat < 4096 ∧
      (lzwCap 4).dict.read (lzwCap 4).prev.toNat = some [0x42] ∧ (lzwCap 4).Room 2) ∧
    ((lzwCap 3).Inv ∧ (0x103 : Code).toNat = (lzwCap 3).dictsize.toNat ∧ (lzwCap 3).NoRoom 2) :=
  ⟨⟨inv_lzwCap 4, rfl, rfl, by decide, by decide, by decide, by decide, room_lzwCap (by decide)⟩, inv_lzwCap 3, by decide,
    noRoom_lzwCap (by decide) (by decide)⟩

theorem witness_EndResult : lzwAB.format = .lzw := rfl

/-- 95 V-LZW-8 with no byte at all, and with eight bits left. -/
theorem witness_LzwStreamWithoutEnd :
    ((lzwOn []).stState = .run ∧ (lzwOn []).format = .lzw ∧ (lzwOn []).navail.toNat < (lzwOn []).nbit.toNat) ∧
    (lzwOn [0x80]).navail.toNat + 1 = (lzwOn [0x80]).nbit.toNat := by decide

theorem witness_DictionaryIsFrozen :
    lzwFull.Inv ∧ lzwFull.stState = .run ∧ lzwFull.format = .lzw ∧ lzwFull.dictsize.toNat = 4096 ∧
      got (exec (decodeLzw lzwFull.ctx 0x041) lzwFull) (fun t => t.stState) = some .run ∧
      (0x041 : Code) ≠ clearCode lzwFull.cfg.altLzw :=
  ⟨inv_lzwFull, rfl, rfl, rfl, rfl, by decide⟩

/-! ### Witnesses: Huffman+RLE -/

theorem room_unbounded {s : State} {n : Nat} (h : s.cfg.outCap = none) : s.Room n := by
  intro c hc
  rw [h] at hc
  cases hc

/-- A Huffman call with a capacity and nothing appended yet. -/
def huffCap (cap : Nat) : State := { huffRun with cfg := { Cfg.initial with outCap := some cap } }

theorem witness_LitsymResult :
    (huffRun.out.wf ∧ huffRun.Room 1) ∧ ((huffCap 0).out.wf ∧ (huffCap 0).NoRoom 1) :=
  ⟨⟨by decide, room_unbounded rfl⟩, by decide, 0, rfl, by decide, by decide⟩

/-- Each kind of run; a run of no bytes always has room, one of 65535 bytes does not fit 65534. -/
theorem witness_RunResults :
    (huffRun.out.wf ∧ huffRun.Room (2 : Byte).toNat) ∧ (huffCap 0).Room ((0 : Symbol).toNat % 256) ∧
    ((huffCap 65534).out.wf ∧
      (huffCap 65534).NoRoom ((0x7FFF : Symbol).toNat % 256 * 256 + (0x7FFF : Symbol).toNat % 256)) :=
  ⟨⟨by decide, room_unbounded rfl⟩, by intro c _; exact Nat.zero_le c, by decide, 65534, rfl, by decide, by decide⟩

/-- Node 15 of 15 nodes, the last one stored, and a word of each tag. -/
theorem witness_TreeNodes :
    huffRun.nnodes.toNat ≤ 15 ∧ (14 < huffRun.nnodes.toNat ∧ huffRun.node[14]? = some 0x01FF) ∧
    (0x0002 : BitVec 16).getLsbD 0 = false ∧ (0x0083 : BitVec 16).getLsbD 0 = true := by decide

theorem startsAt_huff (stream : List Byte) : (huffOn stream).StartsAt 1 :=
  ⟨by show 0 < (15 : BitVec 15).toNat; decide, 0x0002, rfl, rfl⟩

/-- The path `001` of T2 gives `0x0103`. -/
theorem witness_Traversal_path :
    (huffOn [0x20]).StartsAt 1 ∧ (huffOn [0x20]).pathSymbol 1 [false, false, true] = some 0x0103 ∧
      ((huffOn [0x20]).takesRmsb [false, false, true]).isSome = true :=
  ⟨startsAt_huff _, by decide, by decide⟩

/-- Eight bits are two paths and two bits of a third; before the first bit the end of the stream is reached at once when
there is none. -/
theorem witness_Traversal_end :
    (huffOn []).rmsbEos = true ∧
    (let s : State := { huffOn [0x04] with ipos := 1, cur := 0x00, bitcnt := 2 };
      s.StartsAt 1 ∧ (s.pathIndex 1 [false, false]).isSome = true ∧
        (s.takesRmsb [false, false]).map State.rmsbEos = some true) :=
  ⟨by decide, startsAt_huff [0x04], by decide, by decide⟩

/-- No nodes; a leaf as root; a root that names the pair 1, 2 of a tree that holds node 1 only. -/
theorem witness_Traversal_malformed :
    (let s : State := { huffRun with nnodes := 0, node := [] };
      s.rmsbEos = false ∧ s.cfg.rootExplicit = true ∧ s.nnodes.toNat = 0) ∧
    (let s : State := { huffRun with nnodes := 1, node := [0x0083] };
      s.rmsbEos = false ∧ s.cfg.rootExplicit = true ∧ 0 < s.nnodes.toNat ∧ s.node[0]? = some 0x0083 ∧
        s.cfg.nodeDecode.apply 0x0083 = .leaf 0x0041) ∧
    (let s : State := { huffOn [0x80] with nnodes := 2, node := [0x0002, 0x0083] };
      s.StartsAt 1 ∧ s.pathIndex 1 [] = some 1 ∧
        (match s.rmsbBit with
          | .ok b _ => some b
          | .raise _ => none
          | .fault _ => none) = some true ∧
        s.nnodes.toNat ≤ 1 + true.toNat) :=
  ⟨by decide, by decide, ⟨by decide, 0x0002, rfl, rfl⟩, by decide, by decide, by decide⟩

/-- The symbol a traversal gives. -/
def symbolOf (s : State) : Option (Option Symbol) :=
  match s.huffSym with
  | .ok a _ => some a
  | .raise _ => none
  | .fault _ => none

/-- The state after a traversal. -/
def afterSymbol (s : State) : State :=
  match s.huffSym with
  | .ok _ t => t
  | .raise _ => s
  | .fault _ => s

/-- The error kind a traversal raises. -/
def raised (s : State) : Option ErrKind :=
  match s.huffSym with
  | .ok _ _ => none
  | .raise k => some k
  | .fault _ => none

/-- A traversal that finds no bit, and one that raises. -/
theorem witness_EndOfTheBitStream :
    ((huffOn []).stState = .run ∧ (huffOn []).format = .huff ∧ symbolOf (huffOn []) = some none) ∧
    raised { huffRun with nnodes := 0, node := [] } = some .malformedTree := by decide

/-- T2: `010` (`0x0100`) and no more bits; `010`, `100` (`0x0001`); `011` (`0x0101`) and no more bits; `011`, `100` and no
more bits; `011`, `100`, `100`. -/
theorem witness_RunExtension :
    (let s : State := { huffOn [0x00] with ipos := 1, cur := 0x40, bitcnt := 3 };
      s.out.wf ∧ s.stState = .run ∧ s.format = .huff ∧
      symbolOf s = some (some 0x0100) ∧ symHi 0x0100 ≠ 0 ∧ symLo 0x0100 = 0 ∧ symbolOf (afterSymbol s) = some none) ∧
    (let s : State := { huffOn [0x00] with ipos := 1, cur := 0x50, bitcnt := 6 };
      symbolOf s = some (some 0x0100) ∧ symbolOf (afterSymbol s) = some (some 0x0001)) ∧
    (let s : State := { huffOn [0x00] with ipos := 1, cur := 0x60, bitcnt := 3 };
      symbolOf s = some (some 0x0101) ∧ symHi 0x0101 ≠ 0 ∧ symLo 0x0101 = 1 ∧
        symbolOf (afterSymbol s) = some none) ∧
    (let s : State := { huffOn [0x00] with ipos := 1, cur := 0x70, bitcnt := 6 };
      symbolOf s = some (some 0x0101) ∧ symbolOf (afterSymbol s) = some (some 0x0001) ∧
        symbolOf (afterSymbol (afterSymbol s)) = some none) ∧
    (let s : State := { huffOn [0x72, 0x00] with ipos := 1, cur := 0x72, bitcnt := 8 };
      symbolOf s = some (some 0x0101) ∧ symbolOf (afterSymbol s) = some (some 0x0001) ∧
        symbolOf (afterSymbol (afterSymbol s)) = some (some 0x0001)) := by decide

/-- A root that names the pair 1, 2, where node 1 is the symbol `0x0100` or `0x0101`, and there is no node 2: the extension
symbol, the first or the second, raises. -/
theorem witness_RunExtension_raised :
    (let s : State := { huffOn [0x40] with nnodes := 2, node := [0x0002, 0x0201] };
      symbolOf s = some (some 0x0100) ∧ raised (afterSymbol s) = some .malformedTree) ∧
    (let s : State := { huffOn [0x20] with nnodes := 2, node := [0x0002, 0x0203] };
      symbolOf s = some (some 0x0101) ∧ symbolOf (afterSymbol s) = some (some 0x0101) ∧
        raised (afterSymbol (afterSymbol s)) = some .malformedTree) := by decide

/-! ### Witnesses: DIET -/

/-- The first bit of a token. -/
def firstBit (s : State) : Option Bool :=
  match s.r16Bit with
  | .ok b _ => some b
  | .raise _ => none
  | .fault _ => none

/-- The state after the first bit of a token. -/
def afterBit (s : State) : State :=
  match s.r16Bit with
  | .ok _ t => t
  | .raise _ => s
  | .fault _ => s

/-- One byte is left to write; a set bit with a raw byte after it, and with none. -/
theorem witness_LiteralResult :
    ((dietAB 3).out.wf ∧ (dietAB 3).idx.toNat + 1 = (dietAB 3).payloadSize.toNat) ∧
    (dietRun.out.wf ∧ dietRun.idx.toNat < dietRun.payloadSize.toNat ∧ dietRun.stState = .run ∧
      dietRun.format = .diet ∧ firstBit dietRun = some true ∧ (afterBit dietRun).exhausted = false) ∧
    (firstBit (dietOn 3 [1, 0]) = some true ∧ (afterBit (dietOn 3 [1, 0])).exhausted = true) := by decide

/-- The first byte before the cursor as source (the long form reaches the last one); a short form with `t = 7` needs a
cursor of 257 or more. -/
theorem witness_BackReferencesCopy :
    ((dietAB 4).out.wf ∧ (dietAB 4).idx.toNat ≤ (dietAB 4).payloadSize.toNat ∧
      ((dietAB 4).idx.toNat : Int) + (((0xFE : Byte).toNat : Int) - 256) = 0) ∧
    ((dietAB 4).idx.toNat + ((0xFF : Byte) ++ (0xFF : Byte)).toInt = ((dietAB 4).idx.toNat : Int) - 1) ∧
    (let s : State := { dietOn 400 [] with idx := 257 };
      s.out.wf ∧ s.idx.toNat ≤ s.payloadSize.toNat ∧
        (s.idx.toNat : Int) + ((0xF7 + (7 : BitVec 3).toNat) * 256 + (0xFF : Byte).toNat - 65536) = (0 : Int)) := by
  decide

/-- One byte before the start, and the cursor itself (offset 0, which the long form alone can give). -/
theorem witness_BackReferencesCopy_outside :
    ((dietAB 4).idx.toNat : Int) + (((0xFD : Byte).toNat : Int) - 256) = -1 ∧
    ((dietAB 4).idx.toNat : Int) + ((0x00 : Byte) ++ (0x00 : Byte)).toInt = (dietAB 4).idx.toNat := by decide

theorem witness_OverlappingCopy :
    (dietAB 9).out.wf ∧ (dietAB 9).idx.toNat ≤ (dietAB 9).payloadSize.toNat ∧ 1 ≤ 2 ∧ 2 ≤ (dietAB 9).idx.toNat ∧
      (dietAB 9).idx.toNat + 7 ≤ (dietAB 9).payloadSize.toNat := by decide

theorem witness_SentinelResult : (dietAB 4).Inv ∧ (dietAB 4).stState = .run ∧ (dietAB 4).format = .diet :=
  ⟨inv_dietAB, rfl, rfl⟩

theorem witness_FullBuffer :
    (dietAB 2).stState = .run ∧ (dietAB 2).format = .diet ∧ (dietAB 2).idx = (dietAB 2).payloadSize := by decide

/-- The token of this state needs one thing more after these items, and the stream has none. -/
def outOf (s : State) (items : List Item) : Bool :=
  s.stState == .run && s.format == .diet && s.idx != s.payloadSize &&
  match s.takes items, readingAfter items (dietReading s.cfg) with
  | some t, some (.bit _) => t.valid == 0
  | some t, some (.raw _) => t.exhausted
  | _, _ => false

/-- The bits of `w` are the next `n`, then the stream has the raw byte `FE` and no more. -/
def lastBits (w : BitVec 16) (n : BitVec 5) : State :=
  { dietOn 3 [0x00, 0x00, 0xFE] with w := w, cnt := n, valid := n }

/-- No first bit; a set first bit and no raw byte; a clear one and no raw byte. -/
theorem witness_DietTooShort_start :
    outOf (dietOn 3 []) [] = true ∧ outOf (dietOn 3 [0x01, 0x00]) (bits [1]) = true ∧
    outOf (dietOn 3 [0x00, 0x00]) (bits [0]) = true := by decide

/-- No selector bit (a reader that kept a pad bit back), no form bit, no first and no third bit of `t`. -/
theorem witness_DietTooShort_short :
    outOf { lastBits 0 2 with valid := 1 } (bits [0] ++ raws [0xFE]) = true ∧
    outOf (lastBits 0 2) (bits [0] ++ raws [0xFE] ++ bits [0]) = true ∧
    outOf (lastBits 0b100 3) (bits [0] ++ raws [0xFE] ++ bits [0, 1]) = true ∧
    outOf (lastBits 0b11100 5) (bits [0] ++ raws [0xFE] ++ bits [0, 1, 1, 1]) = true := by decide

/-- No offset bit, no count bit, no raw byte of the count. -/
theorem witness_DietTooShort_long :
    outOf (lastBits 0b10 2) (bits [0] ++ raws [0xFE] ++ bits [1]) = true ∧
    outOf (lastBits 0b1110 4) (bits [0] ++ raws [0xFE] ++ bits [1, 1, 1]) = true ∧
    outOf (dietOn 3 [0x0E, 0x02, 0xFE]) (bits [0] ++ raws [0xFE] ++ bits [1, 1, 1, 0, 0, 0, 0, 0, 1]) = true := by decide

/-- A reading that raises. -/
theorem witness_DietTooShort_raise :
    (match (dietOn 3 []).follow (dietReading (dietOn 3 []).cfg) with
      | .ok _ _ => none
      | .raise k => some k
      | .fault _ => none) = some .truncatedStream := by decide

/-! ### Witnesses: container routes and calls -/

/-- No source; one byte; a DIET header and a TTF header one byte short, the DIET header also with the offset 0. -/
theorem witness_HeaderErrors :
    (State.reset.stState = .run ∧ State.reset.format = .none ∧ State.reset.src = .absent) ∧
    ((fileOn [0x00]).src ≠ .absent ∧ (fileOn [0x00]).inLen < 2) ∧
    (let s := fileOn [0xB4, 0x4C, 0, 0, 0, 0, 0, 0, 0, 0, 0, 0, 0, 0, 0, 0];
      s.src ≠ .absent ∧ 2 ≤ s.inLen ∧ s.inByte 1 ++ s.inByte 0 = s.cfg.dietSig ∧
        s.inLen + 1 = max 3 s.cfg.dietPayloadOffset) ∧
    (let s : State := { fileOn [0xB4, 0x4C] with cfg := { Cfg.initial with dietPayloadOffset := 0 } };
      s.src ≠ .absent ∧ 2 ≤ s.inLen ∧ s.inByte 1 ++ s.inByte 0 = s.cfg.dietSig ∧
        s.inLen + 1 = max 3 s.cfg.dietPayloadOffset) ∧
    (let s := fileOn [0x00, 0x10, 0x01];
      s.src ≠ .absent ∧ 2 ≤ s.inLen ∧ s.inByte 1 ++ s.inByte 0 ≠ s.cfg.dietSig ∧ s.inLen + 1 = 4) := by decide

theorem witness_ZeroSize :
    ttfFile.olen = 0 ∧ ttfPayloadSize 0xF0 0 0 = 0 ∧ dietPayloadSize 0x83 0 0 = 0 := by decide

theorem witness_LzwRoute :
    (fileOn [0x80, 0x80]).ipos ≤ (fileOn [0x80, 0x80]).inLen ∧ ttfPayloadSize 0x0F 0xFF 0xFF ≠ 0 := by decide

/-- The whole tree section of T1; the same with the last byte missing; and no byte count. -/
theorem witness_HuffmanRoute :
    (let s := fileOn [0x06, 0x00, 0x02, 0x00, 0x83, 0x00, 0x85, 0x00];
      s.ipos ≤ s.inLen ∧ ttfPayloadSize 0 1 0 ≠ 0 ∧ 3 = (word16 (s.inByte s.ipos) (s.inByte (s.ipos + 1))).toNat / 2 ∧
        s.ipos + 2 + 2 * 3 ≤ s.inLen) ∧
    (let s := fileOn [0x06, 0x00, 0x02, 0x00, 0x83, 0x00, 0x85];
      3 = (word16 (s.inByte s.ipos) (s.inByte (s.ipos + 1))).toNat / 2 ∧ s.inLen < s.ipos + 2 + 2 * 3) ∧
    (let s := fileOn [0x06];
      3 = (word16 (s.inByte s.ipos) (s.inByte (s.ipos + 1))).toNat / 2 ∧ s.inLen < s.ipos + 2) := by decide

theorem witness_DietRoute :
    dietPayloadSize 0x04 0 0 ≠ 0 ∧ (fileOn [1, 2]).ipos + 2 ≤ (fileOn [1, 2]).inLen ∧
      (fileOn [1]).ipos + 1 = (fileOn [1]).inLen ∧ (fileOn []).ipos = (fileOn []).inLen := by decide

theorem witness_StartResets : (⟨Cfg.initial, .ofBytes [0x00], .decode⟩ : Call).entry = .decode := rfl

/-- A call of a sub-operation that waits, and where its payload starts. -/
def SubWitness (c : Call) (start p : Nat) : Prop :=
  (waiting c).stState ≠ .run ∧ (waiting c).pending = [c] ∧ p = min start c.src.len

/-- No source; the payload starts at the front, at the end, and beyond the source. -/
theorem witness_SubOperations_lzw :
    SubWitness ⟨Cfg.initial, .absent, .lzwDecode 0 1⟩ 0 0 ∧
    SubWitness ⟨Cfg.initial, .ofBytes [0x80, 0x80], .lzwDecode 0 1⟩ 0 0 ∧
    SubWitness ⟨Cfg.initial, .ofBytes [0x80, 0x80], .lzwDecode 2 1⟩ 2 2 ∧
    SubWitness ⟨Cfg.initial, .ofBytes [0x80, 0x80], .lzwDecode 9 1⟩ 9 2 :=
  ⟨⟨by decide, rfl, rfl⟩, ⟨by decide, rfl, rfl⟩, ⟨by decide, rfl, rfl⟩, by decide, rfl, rfl⟩

/-- After one byte, the whole tree section of T1; the same with the last byte missing; and no byte count. -/
theorem witness_SubOperations_huff :
    (let c : Call := ⟨Cfg.initial, .ofBytes [9, 0x06, 0x00, 0x02, 0x00, 0x83, 0x00, 0x85, 0x00], .huffDecode 1 1⟩;
      SubWitness c 1 1 ∧ 3 = (word16 (c.src.read 1) (c.src.read 2)).toNat / 2 ∧ 1 + 2 + 2 * 3 ≤ c.src.len) ∧
    (let c : Call := ⟨Cfg.initial, .ofBytes [9, 0x06, 0x00, 0x02, 0x00, 0x83, 0x00, 0x85], .huffDecode 1 1⟩;
      SubWitness c 1 1 ∧ 3 = (word16 (c.src.read 1) (c.src.read 2)).toNat / 2 ∧ c.src.len < 1 + 2 + 2 * 3) ∧
    (let c : Call := ⟨Cfg.initial, .ofBytes [9, 0x06], .huffDecode 1 1⟩;
      SubWitness c 1 1 ∧ 3 = (word16 (c.src.read 1) (c.src.read 2)).toNat / 2 ∧ c.src.len < 1 + 2) :=
  ⟨⟨⟨by decide, rfl, rfl⟩, by decide, by decide⟩, ⟨⟨by decide, rfl, rfl⟩, by decide, by decide⟩,
    ⟨by decide, rfl, rfl⟩, by decide, by decide⟩

/-- Two bytes, one byte and no byte after the start. -/
theorem witness_SubOperations_diet :
    let c (n : Nat) : Call := ⟨Cfg.initial, .ofBytes [7, 8], .dietDecode n 1⟩;
    (SubWitness (c 0) 0 0 ∧ 0 + 2 ≤ (c 0).src.len) ∧ (SubWitness (c 1) 1 1 ∧ 1 + 1 = (c 1).src.len) ∧
      (SubWitness (c 2) 2 2 ∧ 2 = (c 2).src.len) :=
  ⟨⟨⟨by decide, rfl, rfl⟩, by decide⟩, ⟨⟨by decide, rfl, rfl⟩, by decide⟩, ⟨by decide, rfl, rfl⟩, by decide⟩

/-- A size of zero (log 17), in each sub-operation: an empty LZW payload, a tree of no nodes, an empty DIET payload. -/
theorem witness_SubOperations_zeroSize :
    SubWitness ⟨Cfg.initial, .ofBytes [0x80], .lzwDecode 1 0⟩ 1 1 ∧
    (let c : Call := ⟨Cfg.initial, .ofBytes [0x00, 0x00], .huffDecode 0 0⟩;
      SubWitness c 0 0 ∧ 0 = (word16 (c.src.read 0) (c.src.read 1)).toNat / 2 ∧ 0 + 2 + 2 * 0 ≤ c.src.len) ∧
    SubWitness ⟨Cfg.initial, .ofBytes [], .dietDecode 0 0⟩ 0 0 :=
  ⟨⟨by decide, rfl, rfl⟩, ⟨⟨by decide, rfl, rfl⟩, by decide, by decide⟩, by decide, rfl, rfl⟩

theorem witness_CallsAreIndependent :
    let c : Call := ⟨Cfg.initial, .ofBytes [0x00], .decode⟩
    let s' : State := { State.reset with stState := .done, olen := 7, pending := [c] }
    (waiting c).stState ≠ .run ∧ s'.stState ≠ .run ∧ (waiting c).pending ≠ [] ∧ (waiting c).pending = s'.pending ∧
      (waiting c).draws = s'.draws := by decide

theorem witness_BetweenCalls :
    let s : State := { State.reset with stState := .done }
    let c : Call := ⟨Cfg.initial, .ofBytes [0x00], .decode⟩
    (s.stState ≠ .run ∧ s.pending = []) ∧ ((waiting c).stState ≠ .run ∧ (waiting c).pending = [c]) := by decide

/-! ### Witnesses: the whole machine -/

/-- A step of a running call in each format that goes on: the invariant holds, and no error ends the call. -/
theorem witness_RunningStep :
    (lzwLits.Inv ∧ lzwLits.stState = .run ∧ lzwLits.format = .lzw ∧ got (step lzwLits) (fun t => t.stState) = some .run) ∧
    (huffRun.Inv ∧ huffRun.stState = .run ∧ huffRun.format ≠ .none ∧
      got (step huffRun) (fun t => t.stState) = some .run) ∧
    (dietRun.Inv ∧ dietRun.stState = .run ∧ dietRun.format ≠ .none ∧
      got (step dietRun) (fun t => t.stState) = some .run) ∧
    (ttfFile.Inv ∧ ttfFile.stState = .run ∧ got (step ttfFile) (fun t => t.stState) = some .run) :=
  ⟨⟨inv_lzwLits, rfl, rfl, by decide⟩, ⟨inv_huffRun, rfl, by decide, by decide⟩,
    ⟨inv_dietRun, rfl, by decide, by decide⟩, inv_file _, rfl, by decide⟩

/-- A learned entry that a step must keep (DictionaryEntriesAreNeverModified), and written bytes (WrittenOutput). -/
theorem witness_LearnedEntry :
    lzwAB.Inv ∧ lzwAB.format = .lzw ∧ lzwAB.dict.read 0x102 = some [0x41, 0x42] ∧ 1 < lzwAB.olen :=
  ⟨inv_lzwAB, rfl, by decide, by decide⟩

/-- One byte of the capacity is left; the next codeword takes it, and the one after it finds none. -/
theorem witness_Capacity :
    (lzwCap 3).Inv ∧ (lzwCap 3).stState = .run ∧ (lzwCap 3).cfg.outCap = some 3 ∧ (lzwCap 3).olen ≤ 3 ∧
      got (step (lzwCap 3)) (fun t => (t.stState, t.olen)) = some (.run, 3) :=
  ⟨inv_lzwCap 3, rfl, rfl, by decide, by decide⟩

theorem witness_PayloadSizeIsAdvisory :
    (lzwLits.stState = .run ∧ lzwLits.format = .lzw ∧ got (step lzwLits) (fun t => t.olen) = some 1) ∧
    (huffRun.stState = .run ∧ huffRun.format = .huff ∧ got (step huffRun) (fun t => t.olen) = some 1) := by decide

end Sys2Proof.Tests
end

/-! ### The items the readers deliver, and the reading that follows them -/

namespace Sys2Proof.Machine

theorem State.takesItem_bit {s t : State} {b : Bool} : s.takesItem (.bit b) = some t ↔ s.r16Bit = .ok b t := by
  cases h : s.r16Bit <;> simp [State.takesItem, h]

theorem State.takesItem_raw {s t : State} {v : Byte} : s.takesItem (.raw v) = some t ↔ s.r16Raw = .ok v t := by
  cases h : s.r16Raw <;> simp [State.takesItem, h]

theorem State.takesItem_sym {s t : State} {a : Symbol} :
    s.takesItem (.sym a) = some t ↔ s.huffSym = .ok (some a) t := by
  rcases h : s.huffSym with ⟨_ | a', s'⟩ | k | f <;> simp [State.takesItem, h]

theorem State.takes_cons {s t : State} {item : Item} {rest : List Item} :
    s.takes (item :: rest) = some t ↔ ∃ s', s.takesItem item = some s' ∧ s'.takes rest = some t := by
  cases h : s.takesItem item <;> simp [State.takes, h]

/-- A required symbol is the one the bit path delivers (43_huffman_rle R237). -/
theorem State.huffSymX_of_huffSym {s t : State} {a : Symbol} (h : s.huffSym = .ok (some a) t) :
    s.huffSymX = .ok a t := by
  simp [State.huffSymX, h]

/-- Following a reading is following what is left of it, once the readers have delivered the items before. -/
theorem State.follow_of_takes {items : List Item} {r r' : Reading} {s t : State} (ht : s.takes items = some t)
    (hr : readingAfter items r = some r') : s.follow r = t.follow r' := by
  induction items generalizing r s with
  | nil => cases ht; cases hr; rfl
  | cons item rest ih =>
    obtain ⟨s1, hs1, hrest⟩ := State.takes_cons.1 ht
    cases item with
    | bit b =>
      cases r with
      | bit next => simp only [State.follow, State.takesItem_bit.1 hs1, Res.bind_ok, ih hrest hr]
      | _ => cases hr
    | raw v =>
      cases r with
      | raw next => simp only [State.follow, State.takesItem_raw.1 hs1, Res.bind_ok, ih hrest hr]
      | _ => cases hr
    | sym a =>
      cases r with
      | sym next =>
        have hx := State.huffSymX_of_huffSym (State.takesItem_sym.1 hs1)
        simp only [State.follow, hx, Res.bind_ok, ih hrest hr]
      | _ => cases hr
    | cw c => cases r <;> cases hr

/-- A bit that is asked for where the next one is a pad bit (41_bit_readers R159). -/
theorem State.follow_bit_of_pad {s : State} (next : Bool → Reading) (h : s.valid = 0) :
    s.follow (.bit next) = .raise .truncatedStream := by
  rcases s.r16Bit_cases with ⟨-, hb⟩ | ⟨hv, -⟩
  · simp only [State.follow, hb, Res.bind_raise]
  · exact absurd h hv

/-- A raw byte that is asked for where the stream has none (41_bit_readers R161). -/
theorem State.follow_raw_of_exhausted {s : State} (next : Byte → Reading) (h : s.exhausted = true) :
    s.follow (.raw next) = .raise .truncatedStream := by
  simp only [State.follow, State.r16Raw, State.inReadRequired_raise ((State.exhausted_iff s).1 h), Res.bind_raise]

/-- From any state, the readers of bits and raw bytes raise no kind but `TruncatedStream`. -/
theorem State.follow_noSym_raise {r : Reading} {s : State} {k : ErrKind} (h : r.noSym) (hk : s.follow r = .raise k) :
    k = .truncatedStream := by
  induction r generalizing s with
  | done i => cases hk
  | bit next ih =>
    rcases s.r16Bit_cases with ⟨-, hb⟩ | ⟨-, s1, hb⟩
    · simp only [State.follow, hb, Res.bind_raise] at hk
      cases hk; rfl
    · simp only [State.follow, hb, Res.bind_ok] at hk
      exact ih _ (h _) hk
  | raw next ih =>
    rcases s.inReadRequired_cases with ⟨-, hv⟩ | ⟨-, hv⟩
    · simp only [State.follow, State.r16Raw, hv, Res.bind_ok] at hk
      exact ih _ (h _) hk
    · simp only [State.follow, State.r16Raw, hv, Res.bind_raise] at hk
      cases hk; rfl
  | sym next ih => exact h.elim

/-- A kind that the readers of a DIET token raise aborts the call in the state before the token. -/
theorem step_diet_of_raise {s : State} {k : ErrKind} (hrun : s.stState = .run) (hf : s.format = .diet)
    (hidx : s.idx ≠ s.payloadSize) (hk : s.follow (dietReading s.cfg) = .raise k) :
    ∃ u, step s = .next u ∧ s.Aborted k u := by
  have hfetch : s.fetch = .ended (.next (s.abort k)) := by
    rw [fetch_diet hrun hf, State.fetchDiet, if_neg hidx, hk]
    rfl
  exact ⟨s.abort k, step_of_ended hfetch, State.aborted_abort k s⟩

/-- Settles O37: after the items delivered the readers stand at the missing bit or byte (`follow_of_takes`), and a
token's reading asks for no symbol (`dietReading_noSym`), so that no other kind is raised. -/
theorem dietStreamTooShortIsTruncated : Obligations.DietStreamTooShortIsTruncated := by
  intro s hrun hf hidx
  refine ⟨fun items t ht => ⟨fun next hr hpad => ?_, fun next hr hex => ?_⟩, fun k hk => ?_⟩
  · exact step_diet_of_raise hrun hf hidx ((State.follow_of_takes ht hr).trans (State.follow_bit_of_pad next hpad))
  · exact step_diet_of_raise hrun hf hidx
      ((State.follow_of_takes ht hr).trans (State.follow_raw_of_exhausted next hex))
  · cases State.follow_noSym_raise (dietReading_noSym s.cfg) hk
    exact ⟨rfl, step_diet_of_raise hrun hf hidx hk⟩

end Sys2Proof.Machine

/-! ### R24: the codeword reader, and an LZW stream that runs out -/

namespace Sys2Proof.Machine

/-- `R24.GETCW` asks for more real bits than the window holds (41_bit_readers R153). -/
theorem State.r24GetCw_raise {s : State} {n : Nat} (h : s.navail.toNat < n) :
    s.r24GetCw n = .raise .truncatedStream := by
  simp only [State.r24GetCw, if_pos h]

/-- `R24.GETCW` with enough real bits gives the top of the window and refills it (41_bit_readers R153). -/
theorem State.r24GetCw_ok {s : State} {n : Nat} (h : n ≤ s.navail.toNat) :
    s.r24GetCw n = .ok (s.r24Top n) ((s.r24Take n).r24Refill 3) := by
  simp only [State.r24GetCw, if_neg (Nat.not_lt.2 h)]

/-- The window of a codeword reader in order holds at least 17 real bits, or the rest of the stream: so a codeword of at
most 17 bits is in the window exactly when the stream still has it (41_bit_readers R154). -/
theorem State.R24Shape.navail_lt_iff {s : State} {n : Nat} (h : s.R24Shape) (hm : s.missing.toNat ≤ 7) (hn : n ≤ 17) :
    s.navail.toNat < n ↔ 8 * s.inLen < s.bitPos + n := by
  have hback := h.window.1
  have hipos := h.ipos
  unfold State.bitPos
  rcases Nat.lt_or_ge s.ipos s.inLen with hlt | hge
  · have hfull := h.full hlt
    omega
  · omega

/-- After `R24.GETCW` the reader is in order again, `n` bits further on (41_bit_readers R153, R154). -/
theorem State.R24Shape.getCw {s t : State} {n : Nat} {cw : Code} (h : s.R24Shape) (hm : s.missing.toNat ≤ 7)
    (hn : n ≤ 12) (hcw : s.r24GetCw n = .ok cw t) :
    s.OnlyR24 t ∧ t.R24Shape ∧ t.missing.toNat ≤ 7 ∧ t.bitPos = s.bitPos + n ∧ s.ipos ≤ t.ipos := by
  obtain ⟨honly, hle, -⟩ := State.r24GetCw_only hcw
  rw [State.r24GetCw_ok hle, Res.ok.injEq] at hcw
  obtain ⟨-, rfl⟩ := hcw
  obtain ⟨htake, hpos⟩ := State.r24Take_shape h hle (by omega)
  obtain ⟨hshape, hpos', hmissing, hfwd, -⟩ := State.r24Refill_shape htake 3 (BitVec.isLt _)
  exact ⟨honly, hshape, hmissing, hpos'.trans hpos, hfwd⟩

/-- Settles O15: the window holds the codeword exactly when the stream does (`R24Shape.navail_lt_iff`); its top bits are
the next bits of `IN` by `WindowOk`, and taking them and refilling keep the window's shape (`R24Shape.getCw`). -/
theorem codewordReaderReadsTheBitString : Obligations.CodewordReaderReadsTheBitString := by
  intro s n hok hwin hipos hn9 hn12
  have hshape := State.R24Shape.of_ok hok hwin hipos
  have hhas := hshape.navail_lt_iff (n := n) hok.missing (by omega)
  refine ⟨fun hshort => State.r24GetCw_raise (hhas.2 hshort), fun hlong => ?_⟩
  have hle : n ≤ s.navail.toNat := Nat.not_lt.1 fun hlt => Nat.not_lt.2 hlong (hhas.1 hlt)
  have hcw := State.r24GetCw_ok hle
  obtain ⟨honly, hshape', hmissing, hpos, hfwd⟩ := hshape.getCw hok.missing hn12 hcw
  refine ⟨_, _, hcw, s.r24Top_lt hn12, fun j hj => ?_, hpos, hshape'.ok hmissing, hshape'.window, hfwd, hshape'.ipos, honly⟩
  rw [s.r24Top_getLsbD hn12 hj]
  exact hwin.2 j (by omega)

/-- Settles O24: the codeword reader raises in the fetch, and the step ends in that abort. -/
theorem lzwStreamWithoutEndIsTruncated : Obligations.LzwStreamWithoutEndIsTruncated := by
  intro s hrun hf hshort
  have hfetch : s.fetch = .ended (.next (s.abort .truncatedStream)) := by
    rw [fetch_lzw hrun hf, State.fetchLzw, State.r24GetCw_raise hshort]
    rfl
  exact ⟨_, step_of_ended hfetch, State.aborted_abort _ s⟩

end Sys2Proof.Machine

/-! ### A running call by its format, and the invariant from one step to the next -/

namespace Sys2Proof

theorem Ctx.isLearned_iff (x : Ctx) {c : Code} :
    x.isLearned c = true ↔ dictInit ≤ c.toNat ∧ c.toNat < x.dictsize.toNat := by
  simp [Ctx.isLearned]

theorem Ctx.isNextCode_iff (x : Ctx) {c : Code} :
    x.isNextCode c = true ↔ c.toNat = x.dictsize.toNat ∧ x.pv = true ∧ x.dictsize.toNat < dictCap := by
  simp [Ctx.isNextCode, and_assoc]

/-- Every instruction a container header can stand for is a route (40_dispatcher R132, R133). -/
theorem headerReading_yields (x : Ctx) (b0 b1 : Byte) :
    (headerReading x b0 b1).yields fun i => i.format = .none := by
  unfold headerReading
  split
  · refine skipRaw_yields ?_ _
    intro _ _ _
    rfl
  · intro _ type _ _
    by_cases htype : type = 0x10
    · simp only [if_pos htype]; rfl
    · simp only [if_neg htype]; rfl

/-- Every instruction a Huffman symbol can start is one of the Huffman set (30_encoding R101). -/
theorem huffReading_yields (a : Symbol) : (huffReading a).yields fun i => i.format = .huff := by
  unfold huffReading
  split
  · rfl
  · split
    · exact fun _ => rfl
    · split
      · exact fun _ _ => rfl
      · rfl

/-- Every instruction a DIET token can stand for is one of the DIET set (30_encoding R102). -/
theorem dietReading_yields (cfg : Cfg) : (dietReading cfg).yields fun i => i.format = .diet := by
  intro b
  cases b with
  | true => exact fun _ => rfl
  | false =>
    intro lo sel
    cases sel with
    | true =>
      refine BitTree.reading_yields _ fun hi _ => BitTree.reading_yields _ fun leaf _ => ?_
      cases leaf with
      | exact n => rfl
      | rawPlus base => exact fun _ => rfl
    | false =>
      intro c
      cases c with
      | true => exact fun _ _ _ => rfl
      | false =>
        by_cases hlo : lo = 0xFF
        · simp only [hlo, Bool.false_eq_true, if_false, if_true]; rfl
        · simp only [hlo, Bool.false_eq_true, if_false]; rfl

end Sys2Proof

namespace Sys2Proof.Machine

/-! #### What `RunOk` is in each format -/

/-- A call whose decoder has not been initialised: every register but `FORMAT`, `PAYLOAD_SIZE` and `ipos` is at reset
(40_dispatcher R130). -/
structure State.Entering (s : State) : Prop where
  ipos : s.ipos ≤ s.inLen
  r24 : s.R24AtReset
  lzw : s.LzwAtReset
  rmsb : s.RmsbAtReset
  huff : s.HuffAtReset
  r16 : s.R16AtReset
  idx : s.idx = 0
  olen : s.olen = 0
  out : s.OutBelow 0

/-- A running LZW call: what `RunOk` says where `FORMAT` is LZW. -/
structure State.LzwRunning (s : State) : Prop where
  ipos : s.ipos ≤ s.inLen
  r24 : s.R24Ok
  window : s.WindowOk
  lzw : s.LzwOk
  rmsb : s.RmsbAtReset
  huff : s.HuffAtReset
  r16 : s.R16AtReset
  idx : s.idx = 0
  out : s.OutBelow s.olen

/-- A running Huffman call: what `RunOk` says where `FORMAT` is HUFF. -/
structure State.HuffRunning (s : State) : Prop where
  ipos : s.ipos ≤ s.inLen
  r24 : s.R24AtReset
  lzw : s.LzwAtReset
  huff : s.HuffOk
  r16 : s.R16AtReset
  idx : s.idx = 0
  out : s.OutBelow s.olen

/-- A running DIET call: what `RunOk` says where `FORMAT` is DIET. -/
structure State.DietRunning (s : State) : Prop where
  ipos : s.ipos ≤ s.inLen
  r24 : s.R24AtReset
  lzw : s.LzwAtReset
  rmsb : s.RmsbAtReset
  huff : s.HuffAtReset
  diet : s.DietOk
  out : s.OutBelow s.idx.toNat
  olen : s.olen = 0

theorem State.runOk_none_iff {s : State} (hf : s.format = .none) :
    s.RunOk ↔ s.Entering ∧ s.ipos = 0 ∧ s.payloadSize = 0 := by
  cases s
  cases hf
  constructor
  · rintro ⟨hipos, h24, hlzw, hrmsb, hhuff, h16, hidx, hout, hheader⟩
    obtain ⟨hzero, hsize, rfl⟩ := hheader rfl
    exact ⟨⟨hipos, h24, hlzw, hrmsb nofun, hhuff, h16 nofun, hidx, rfl, hout⟩, hzero, hsize⟩
  · rintro ⟨⟨hipos, h24, hlzw, hrmsb, hhuff, h16, hidx, rfl, hout⟩, hzero, hsize⟩
    exact ⟨hipos, h24, hlzw, fun _ => hrmsb, hhuff, fun _ => h16, hidx, hout, fun _ => ⟨hzero, hsize, rfl⟩⟩

theorem State.runOk_lzw_iff {s : State} (hf : s.format = .lzw) : s.RunOk ↔ s.LzwRunning := by
  cases s
  cases hf
  constructor
  · rintro ⟨hipos, ⟨h24, hwin⟩, hlzw, hrmsb, hhuff, h16, hidx, hout, -⟩
    exact ⟨hipos, h24, hwin, hlzw, hrmsb nofun, hhuff, h16 nofun, hidx, hout⟩
  · rintro ⟨hipos, h24, hwin, hlzw, hrmsb, hhuff, h16, hidx, hout⟩
    exact ⟨hipos, ⟨h24, hwin⟩, hlzw, fun _ => hrmsb, hhuff, fun _ => h16, hidx, hout, nofun⟩

theorem State.runOk_huff_iff {s : State} (hf : s.format = .huff) : s.RunOk ↔ s.HuffRunning := by
  cases s
  cases hf
  constructor
  · rintro ⟨hipos, h24, hlzw, -, hhuff, h16, hidx, hout, -⟩
    exact ⟨hipos, h24, hlzw, hhuff, h16 nofun, hidx, hout⟩
  · rintro ⟨hipos, h24, hlzw, hhuff, h16, hidx, hout⟩
    exact ⟨hipos, h24, hlzw, fun hne => absurd rfl hne, hhuff, fun _ => h16, hidx, hout, nofun⟩

theorem State.runOk_diet_iff {s : State} (hf : s.format = .diet) : s.RunOk ↔ s.DietRunning := by
  cases s
  cases hf
  constructor
  · rintro ⟨hipos, h24, hlzw, hrmsb, hhuff, -, hdiet, ⟨hout, holen⟩, -⟩
    exact ⟨hipos, h24, hlzw, hrmsb nofun, hhuff, hdiet, hout, holen⟩
  · rintro ⟨hipos, h24, hlzw, hrmsb, hhuff, hdiet, hout, holen⟩
    exact ⟨hipos, h24, hlzw, fun _ => hrmsb, hhuff, fun hne => absurd rfl hne, hdiet, ⟨hout, holen⟩, nofun⟩

/-! #### The parts of a step -/

/-- A step whose fetch follows a reading executes the instruction read, or ends the call with the kind raised. -/
theorem step_of_fetched {s t : State} {r : Res Instr} (hfetch : s.fetch = r.fetched s) (ht : step s = .next t) :
    (∃ i u, r = .ok i u ∧ exec i u = .next t) ∨ ∃ k, t = s.abort k := by
  cases r with
  | ok i u => exact .inl ⟨i, u, rfl, by rw [← step_of_execute hfetch, ht]⟩
  | raise k =>
    rw [step_of_ended hfetch] at ht
    cases ht
    exact .inr ⟨k, rfl⟩
  | fault f =>
    rw [step_of_ended hfetch] at ht
    cases ht

/-- Where a call goes on, its status stays legal and `SRC` and the host's list are left alone: what is to be shown of the
invariant is the memories written and the running unit. -/
theorem State.inv_of_sameCall {s t : State} (hm : s.MemOk) (hs : s.StatusOk) (hc : s.SameCall t) (hout : t.out.wf)
    (hdict : t.dict.wf) (hrun : t.RunOk) : t.Inv where
  mem := ⟨hout, hdict, hc.src ▸ hm.src, hc.pending ▸ hm.pending⟩
  status := ⟨by rw [hc.stState, hc.stErr]; exact hs.code, by rw [hc.stErr]; exact hs.known⟩
  run _ := hrun

theorem State.inv_of_lzwRunning {s t : State} (hf : s.format = .lzw) (hm : s.MemOk) (hs : s.StatusOk)
    (hc : s.SameCall t) (hout : t.out.wf) (hdict : t.dict.wf) (hrun : t.LzwRunning) : t.Inv :=
  State.inv_of_sameCall hm hs hc hout hdict ((State.runOk_lzw_iff (hc.format.trans hf)).2 hrun)

theorem State.inv_of_huffRunning {s t : State} (hf : s.format = .huff) (hm : s.MemOk) (hs : s.StatusOk)
    (hc : s.SameCall t) (hout : t.out.wf) (hdict : t.dict.wf) (hrun : t.HuffRunning) : t.Inv :=
  State.inv_of_sameCall hm hs hc hout hdict ((State.runOk_huff_iff (hc.format.trans hf)).2 hrun)

theorem State.inv_of_dietRunning {s t : State} (hf : s.format = .diet) (hm : s.MemOk) (hs : s.StatusOk)
    (hc : s.SameCall t) (hout : t.out.wf) (hdict : t.dict.wf) (hrun : t.DietRunning) : t.Inv :=
  State.inv_of_sameCall hm hs hc hout hdict ((State.runOk_diet_iff (hc.format.trans hf)).2 hrun)

/-- An operation that ends a step keeps the invariant if it does so wherever it completes. -/
theorem State.MemOk.inv_outcome {s t : State} {r : Res Unit} (hm : s.MemOk) (h : r = .ok () t → t.Inv)
    (ht : r.outcome s = .next t) : t.Inv := by
  rcases Res.outcome_eq_next.1 ht with hok | ⟨k, -, rfl⟩
  · exact h hok
  · exact State.inv_abort k hm

/-! #### LZW -/

/-- The codeword reader keeps a running LZW call in order. -/
theorem State.Inv.getCw {s t : State} {cw : Code} (h : s.Inv) (hrun : s.stState = .run) (hf : s.format = .lzw)
    (hcw : s.r24GetCw s.nbit.toNat = .ok cw t) : t.Inv := by
  have hr := (State.runOk_lzw_iff hf).1 (h.run hrun)
  obtain ⟨honly, hshape, hmissing, -, -⟩ :=
    (State.R24Shape.of_ok hr.r24 hr.window hr.ipos).getCw hr.r24.missing hr.lzw.nbit.2 hcw
  have hcall := s.r24GetCw_keeps _ _ _ hcw
  obtain ⟨i, b, m, n, rfl⟩ : ∃ i b m n, t = s.withR24 i b m n := ⟨_, _, _, _, honly⟩
  exact State.inv_of_lzwRunning hf h.mem h.status hcall h.mem.out h.mem.dict
    { hr with ipos := hshape.ipos, r24 := hshape.ok hmissing, window := hshape.window, lzw := { hr.lzw with } }

/-- `LZW.TAIL` keeps a running LZW call in order (42_lzw R204). -/
theorem State.Inv.lzwTail {s t : State} {str : List Byte} {cw : Code} (h : s.Inv) (hrun : s.stState = .run)
    (hf : s.format = .lzw) (hstr : str ≠ []) (hsent : cw ≠ 0x100 ∧ cw ≠ 0x101)
    (hcw : cw.toNat < s.dictsize.toNat ∨ (s.appends = true ∧ cw.toNat = s.dictsize.toNat))
    (ht : s.lzwTail str cw = .ok () t) : t.Inv := by
  have hr := (State.runOk_lzw_iff hf).1 (h.run hrun)
  have hcall := s.lzwTail_keeps _ _ _ _ ht
  rcases State.lzwTail_cases hr.lzw h.mem.dict h.mem.out hstr hsent.1 hsent.2 hcw with
    hw | ⟨u, hw, hok, hdict, hout, hbelow, heq⟩
  · simp [hw] at ht
  · cases hw.symm.trans ht
    obtain ⟨d, n, w, o, l, p, v, rfl⟩ : ∃ d n w o l p v, t = { s with
        dict := d, dictsize := n, nbit := w, out := o, olen := l, prev := p, pv := v } := ⟨_, _, _, _, _, _, _, heq⟩
    exact State.inv_of_lzwRunning hf h.mem h.status hcall hout hdict
      { hr with r24 := { hr.r24 with }, lzw := hok, out := hbelow hr.out }

/-- A code below `0x100` or above `0x101` is neither of the two sentinel codes (42_lzw R192). -/
theorem ne_sentinels {c : Code} (h : c.toNat ≤ 0xFF ∨ 0x102 ≤ c.toNat) : c ≠ 0x100 ∧ c ≠ 0x101 := by
  constructor <;> (rintro rfl; simp at h)

/-- The dictionary is read at a code that names an entry (20_memory R63). -/
theorem State.LzwOk.dictRead_ok {s : State} (h : s.LzwOk) {c : Code} (hc : c.toNat < s.dictsize.toNat)
    (hsent : c ≠ 0x100 ∧ c ≠ 0x101) : ∃ str, s.dictRead c.toNat = .ok str s ∧ str ≠ [] := by
  obtain ⟨str, hstr, hne, -⟩ := h.present hc (fun he => hsent.1 (BitVec.eq_of_toNat_eq he))
    (fun he => hsent.2 (BitVec.eq_of_toNat_eq he))
  exact ⟨str, by simp only [State.dictRead, hstr], hne⟩

/-- The emission of an existing entry keeps a running LZW call in order (42_lzw R194, R195). -/
theorem State.Inv.lzwEntry {s t : State} {c : Code} (h : s.Inv) (hrun : s.stState = .run) (hf : s.format = .lzw)
    (hc : c.toNat < s.dictsize.toNat) (hsent : c ≠ 0x100 ∧ c ≠ 0x101) (ht : s.lzwEntry c = .ok () t) : t.Inv := by
  obtain ⟨str, hstr, hne⟩ := ((State.runOk_lzw_iff hf).1 (h.run hrun)).lzw.dictRead_ok hc hsent
  rw [State.lzwEntry, hstr, Res.bind_ok] at ht
  exact h.lzwTail hrun hf hne hsent (.inl hc) ht

/-- `KWKWK` keeps a running LZW call in order (42_lzw R196). -/
theorem State.Inv.kwkwk {s t : State} {c : Code} (h : s.Inv) (hrun : s.stState = .run) (hf : s.format = .lzw)
    (hnext : s.ctx.isNextCode c = true)
    (ht : ((s.dictRead s.prev.toNat).bind fun p s' => s'.lzwTail (p ++ p.take 1) c) = .ok () t) : t.Inv := by
  have hlzw := ((State.runOk_lzw_iff hf).1 (h.run hrun)).lzw
  obtain ⟨hc, hpv, hcap⟩ : c.toNat = s.dictsize.toNat ∧ s.pv = true ∧ s.dictsize.toNat < dictCap :=
    s.ctx.isNextCode_iff.1 hnext
  have happ : s.appends = true := by simp [State.appends, hpv, hcap]
  obtain ⟨hprev, hsent⟩ := hlzw.prev hpv
  obtain ⟨p, hp, hne⟩ := hlzw.dictRead_ok hprev hsent
  rw [hp, Res.bind_ok] at ht
  exact h.lzwTail hrun hf (by simp [hne]) (ne_sentinels (.inr (hc ▸ hlzw.dictsize.1))) (.inr ⟨happ, hc⟩) ht

/-- `CLEAR` keeps a running LZW call in order (42_lzw R197). -/
theorem State.Inv.lzwClear {s : State} (h : s.Inv) (hrun : s.stState = .run) (hf : s.format = .lzw) :
    s.lzwClear.Inv := by
  have hr := (State.runOk_lzw_iff hf).1 (h.run hrun)
  have hreset := State.LzwOk.of_reset (s := { s.lzwClear with prev := 0 }) ⟨rfl, rfl, rfl, rfl, rfl⟩
  exact State.inv_of_lzwRunning hf h.mem h.status ⟨rfl, rfl, rfl, rfl, rfl, rfl, rfl, rfl⟩ h.mem.out Dict.wf_nil
    { hr with r24 := { hr.r24 with }, lzw := { hreset with prev := nofun } }

/-- The instruction a codeword stands for, line by line of 30_encoding R92. -/
theorem decodeLzw_cases (x : Ctx) (c : Code) :
    (decodeLzw x c = .endLzw ∨ decodeLzw x c = .endLzwAlt) ∨
    (decodeLzw x c = .clear ∨ decodeLzw x c = .clearAlt) ∨
    (c.toNat ≤ 0xFF ∧ decodeLzw x c = .lit (c.setWidth 8)) ∨
    (x.isLearned c = true ∧ decodeLzw x c = .ref c) ∨
    (x.isNextCode c = true ∧ decodeLzw x c = .kwkwk c) ∨
    decodeLzw x c = .illegal c := by
  unfold decodeLzw
  by_cases hend : c = endCode x.cfg.altLzw
  · left
    rw [if_pos hend]
    cases x.cfg.altLzw <;> simp
  · by_cases hclear : c = clearCode x.cfg.altLzw
    · right; left
      rw [if_neg hend, if_pos hclear]
      cases x.cfg.altLzw <;> simp
    · right; right
      rw [if_neg hend, if_neg hclear]
      split
      · exact .inl ⟨‹_›, rfl⟩
      · split
        · exact .inr (.inl ⟨‹_›, rfl⟩)
        · split
          · exact .inr (.inr (.inl ⟨‹_›, rfl⟩))
          · exact .inr (.inr (.inr rfl))

/-- The meaning of every codeword keeps the invariant (42_lzw R194 to R199). -/
theorem State.Inv.execLzw {s t : State} {c : Code} (h : s.Inv) (hrun : s.stState = .run) (hf : s.format = .lzw)
    (ht : exec (decodeLzw s.ctx c) s = .next t) : t.Inv := by
  have hsize : 0x102 ≤ s.dictsize.toNat := ((State.runOk_lzw_iff hf).1 (h.run hrun)).lzw.dictsize.1
  rcases decodeLzw_cases s.ctx c with (hi | hi) | (hi | hi) | ⟨hc, hi⟩ | ⟨hc, hi⟩ | ⟨hc, hi⟩ | hi <;> rw [hi] at ht
  · cases ht; exact State.inv_finish h.mem
  · cases ht; exact State.inv_finish h.mem
  · cases ht; exact h.lzwClear hrun hf
  · cases ht; exact h.lzwClear hrun hf
  · have hcode : ((c.setWidth 8).setWidth 12).toNat ≤ 0xFF := by simp; omega
    exact h.mem.inv_outcome (h.lzwEntry hrun hf (by omega) (ne_sentinels (.inl hcode))) ht
  · have hlearned := s.ctx.isLearned_iff.1 hc
    exact h.mem.inv_outcome (h.lzwEntry hrun hf hlearned.2 (ne_sentinels (.inr hlearned.1))) ht
  · exact h.mem.inv_outcome (h.kwkwk hrun hf hc) ht
  · cases ht; exact State.inv_abort _ h.mem

/-- A step of a running LZW call keeps the invariant. -/
theorem step_lzw_inv {s t : State} (h : s.Inv) (hrun : s.stState = .run) (hf : s.format = .lzw)
    (ht : step s = .next t) : t.Inv := by
  rcases step_of_fetched (fetch_lzw hrun hf) ht with ⟨i, u, hi, hexec⟩ | ⟨k, rfl⟩
  · obtain ⟨cw, v, hcw, hv⟩ := Res.bind_eq_ok.1 hi
    cases hv
    have hcall := s.r24GetCw_keeps _ _ _ hcw
    have honly := (State.r24GetCw_only hcw).1
    have hctx : s.ctx = u.ctx := by rw [honly]; rfl
    rw [hctx] at hexec
    exact (h.getCw hrun hf hcw).execLzw (hcall.stState.trans hrun) (hcall.format.trans hf) hexec
  · exact State.inv_abort k h.mem

/-! #### Huffman -/

/-- Taking bits off `RMSB` keeps a running Huffman call in order. -/
theorem State.Inv.tookBits {s t : State} {n : Nat} (h : s.Inv) (hrun : s.stState = .run) (hf : s.format = .huff)
    (ht : s.TookBits n t) : t.Inv := by
  have hr := (State.runOk_huff_iff hf).1 (h.run hrun)
  have hcall := ht.sameCall
  have hipos := ht.ipos hr.ipos
  have hbitcnt := ht.bitcnt hr.huff.bitcnt
  obtain ⟨i, c, n, rfl⟩ : ∃ i c n, t = s.withRmsb i c n := ⟨_, _, _, ht.only⟩
  exact State.inv_of_huffRunning hf h.mem h.status hcall h.mem.out h.mem.dict
    { hr with ipos := hipos, huff := ⟨hr.huff.nodes, hbitcnt⟩ }

/-- The meaning of a Huffman symbol aborts the call, or emits bytes and sets `last` (43_huffman_rle R235 to R238). -/
theorem exec_huff_cases {i : Instr} {s t : State} (hi : i.format = .huff) (ht : exec i s = .next t) :
    (∃ k, t = s.abort k) ∨ ∃ str u b, s.emit str = .ok () u ∧ t = { u with last := b } := by
  have hcopies : ∀ n, (s.appendRun s.last n).outcome s = .next t →
      (∃ k, t = s.abort k) ∨ ∃ str u b, s.emit str = .ok () u ∧ t = { u with last := b } := by
    intro n hn
    rcases Res.outcome_eq_next.1 hn with hok | ⟨k, -, hk⟩
    · exact .inr ⟨_, t, t.last, s.appendRun_eq_emit .. ▸ hok, rfl⟩
    · exact .inl ⟨k, hk⟩
  cases i with
  | litsym b =>
    rcases Res.outcome_eq_next.1 ht with hok | ⟨k, -, hk⟩
    · obtain ⟨_, u, hu, heq⟩ := Res.bind_eq_ok.1 hok
      cases heq
      exact .inr ⟨[b], u, b, by simp [State.emit, hu], rfl⟩
    · exact .inl ⟨k, hk⟩
  | run h n => exact hcopies _ ht
  | run8 h a => exact hcopies _ ht
  | run16 h a b => exact hcopies _ ht
  | _ => cases hi

/-- The meaning of every Huffman symbol keeps the invariant. -/
theorem State.Inv.execHuff {s t : State} {i : Instr} (h : s.Inv) (hrun : s.stState = .run) (hf : s.format = .huff)
    (hi : i.format = .huff) (ht : exec i s = .next t) : t.Inv := by
  rcases exec_huff_cases hi ht with ⟨k, rfl⟩ | ⟨str, u, b, hemit, rfl⟩
  · exact State.inv_abort k h.mem
  · have hr := (State.runOk_huff_iff hf).1 (h.run hrun)
    obtain ⟨-, heq, hout, hbelow⟩ := State.emit_eq_ok h.mem.out hemit
    obtain ⟨o, l, rfl⟩ : ∃ o l, u = { s with out := o, olen := l } := ⟨_, _, heq⟩
    exact State.inv_of_huffRunning hf h.mem h.status ⟨rfl, rfl, rfl, rfl, rfl, rfl, rfl, rfl⟩ hout h.mem.dict
      { hr with huff := { hr.huff with }, out := hbelow hr.out }

/-- A step of a running Huffman call keeps the invariant. -/
theorem step_huff_inv {s t : State} (h : s.Inv) (hrun : s.stState = .run) (hf : s.format = .huff)
    (ht : step s = .next t) : t.Inv := by
  have hnodes := ((State.runOk_huff_iff hf).1 (h.run hrun)).huff.nodes
  have hfetch : s.fetch = s.fetchHuff := fetch_huff hrun hf
  unfold State.fetchHuff at hfetch
  rcases State.huffSym_answers hnodes with hsym | hsym | ⟨r, u, hsym, htook⟩ <;> rw [hsym] at hfetch
  · cases (step_of_ended hfetch).symm.trans ht
    exact State.inv_abort _ h.mem
  · cases (step_of_ended hfetch).symm.trans ht
    exact State.inv_abort _ h.mem
  · have hu := h.tookBits hrun hf htook
    cases r with
    | none =>
      cases (step_of_ended hfetch).symm.trans ht
      exact State.inv_finish hu.mem
    | some a =>
      rcases step_of_fetched hfetch ht with ⟨i, v, hi, hexec⟩ | ⟨k, rfl⟩
      · have hucall := htook.sameCall
        have hvcall := u.follow_keeps _ _ _ hi
        have hvtook : u.TookBits 0 v := by
          rcases State.follow_onlySym (huffReading_onlySym a) (by rw [htook.node, htook.nnodes]; exact hnodes) with
            hw | hw | ⟨_, _, hw, hv⟩
          · simp [hi] at hw
          · simp [hi] at hw
          · cases hi.symm.trans hw; exact hv
        have hv := hu.tookBits (hucall.stState.trans hrun) (hucall.format.trans hf) hvtook
        exact hv.execHuff (hvcall.stState.trans (hucall.stState.trans hrun))
          (hvcall.format.trans (hucall.format.trans hf)) (State.follow_yields (huffReading_yields a) hi) hexec
      · exact State.inv_abort k h.mem

/-! #### DIET -/

/-- Bytes written from the cursor on keep a running DIET call in order. -/
theorem State.Inv.dietOut {s : State} {o : Memory} {i : BitVec 21} (h : s.Inv) (hrun : s.stState = .run)
    (hf : s.format = .diet) (hi : i.toNat ≤ s.payloadSize.toNat) (hout : o.wf) (hbelow : ∀ c ∈ o, c.1 < i.toNat) :
    ({ s with out := o, idx := i } : State).Inv := by
  have hr := (State.runOk_diet_iff hf).1 (h.run hrun)
  exact State.inv_of_dietRunning hf h.mem h.status ⟨rfl, rfl, rfl, rfl, rfl, rfl, rfl, rfl⟩ hout h.mem.dict
    { hr with diet := { hr.diet with idx := hi }, out := hbelow }

/-- `LITERAL` keeps a running DIET call in order (44_diet R262). -/
theorem State.Inv.dietPut {s t : State} {v : Byte} (h : s.Inv) (hrun : s.stState = .run) (hf : s.format = .diet)
    (ht : s.dietPut v = .ok () t) : t.Inv := by
  have hr := (State.runOk_diet_iff hf).1 (h.run hrun)
  have hlt : s.idx.toNat < s.payloadSize.toNat := by
    by_contra hge
    simp [State.dietPut, State.outWrite, hge] at ht
  rw [State.dietPut_ok v hlt] at ht
  cases ht
  have hidx := State.put_idx v hlt
  refine h.dietOut hrun hf (i := s.idx + 1) (hidx.trans_le hlt) (Memory.wf_write h.mem.out _ _) fun c hc => ?_
  have hnext : (s.idx + 1).toNat = s.idx.toNat + 1 := hidx
  rcases Memory.mem_write hc with hc | hc
  · omega
  · have := hr.out c hc
    omega

/-- A back-reference keeps a running DIET call in order (44_diet R270). -/
theorem State.Inv.dietCopy {s t : State} {offset : Int} {count : Nat} (h : s.Inv) (hrun : s.stState = .run)
    (hf : s.format = .diet) (ht : s.dietCopy offset count = .ok () t) : t.Inv := by
  have hr := (State.runOk_diet_iff hf).1 (h.run hrun)
  have hidx := hr.diet.idx
  by_cases hsrc : (s.idx.toNat : Int) + offset < 0 ∨ (s.idx.toNat : Int) ≤ s.idx.toNat + offset
  · simp [State.dietCopy_raise count hsrc] at ht
  · rw [State.dietCopy_ok count hidx (by omega) (by omega), Res.ok.injEq] at ht
    obtain ⟨heq, hcursor, hout, -, -, hbelow⟩ := State.copyBytes_spec h.mem.out
      (min count (s.payloadSize.toNat - s.idx.toNat)) ((s.idx.toNat : Int) + offset).toNat (by omega) (by omega)
    rw [ht.2] at heq hcursor hout hbelow
    rw [heq]
    exact h.dietOut hrun hf (by omega) hout (hbelow hr.out)

/-- The meaning of a DIET token ends the call, writes a byte, or copies (44_diet R262 to R267). -/
theorem exec_diet_cases {i : Instr} (s : State) (hi : i.format = .diet) :
    exec i s = .next s.finish ∨ (∃ v, exec i s = (s.dietPut v).outcome s) ∨
      ∃ offset count, exec i s = (s.dietCopy offset count).outcome s := by
  cases i with
  | literal v => exact .inr (.inl ⟨v, rfl⟩)
  | short lo => exact .inr (.inr ⟨_, _, rfl⟩)
  | sentinel => exact .inl rfl
  | shortx lo t => exact .inr (.inr ⟨_, _, rfl⟩)
  | long lo hi n => exact .inr (.inr ⟨_, _, rfl⟩)
  | _ => cases hi

/-- The meaning of every DIET token keeps the invariant. -/
theorem State.Inv.execDiet {s t : State} {i : Instr} (h : s.Inv) (hrun : s.stState = .run) (hf : s.format = .diet)
    (hi : i.format = .diet) (ht : exec i s = .next t) : t.Inv := by
  rcases exec_diet_cases s hi with he | ⟨v, he⟩ | ⟨offset, count, he⟩ <;> rw [he] at ht
  · cases ht
    exact State.inv_finish h.mem
  · exact h.mem.inv_outcome (h.dietPut hrun hf) ht
  · exact h.mem.inv_outcome (h.dietCopy hrun hf) ht

/-- The readers keep a running DIET call in order while a token is read. -/
theorem State.Inv.followDiet {s t : State} {i : Instr} (h : s.Inv) (hrun : s.stState = .run) (hf : s.format = .diet)
    (ht : s.follow (dietReading s.cfg) = .ok i t) : t.Inv := by
  have hr := (State.runOk_diet_iff hf).1 (h.run hrun)
  have hcall := s.follow_keeps _ _ _ ht
  rcases State.follow_noSym (dietReading_noSym s.cfg) hr.diet hr.ipos with hw | ⟨j, u, hw, honly, hdiet, -, hipos, -⟩
  · simp [hw] at ht
  · cases hw.symm.trans ht
    obtain ⟨i, w, c, v, rfl⟩ : ∃ i w c v, t = s.withR16 i w c v := ⟨_, _, _, _, honly⟩
    exact State.inv_of_dietRunning hf h.mem h.status hcall h.mem.out h.mem.dict
      { hr with ipos := hipos, diet := hdiet }

/-- A step of a running DIET call keeps the invariant. -/
theorem step_diet_inv {s t : State} (h : s.Inv) (hrun : s.stState = .run) (hf : s.format = .diet)
    (ht : step s = .next t) : t.Inv := by
  have hfetch : s.fetch = s.fetchDiet := fetch_diet hrun hf
  unfold State.fetchDiet at hfetch
  split at hfetch
  · cases (step_of_ended hfetch).symm.trans ht
    exact State.inv_finish h.mem
  · rcases step_of_fetched hfetch ht with ⟨i, u, hi, hexec⟩ | ⟨k, rfl⟩
    · have hcall := s.follow_keeps _ _ _ hi
      exact (h.followDiet hrun hf hi).execDiet (hcall.stState.trans hrun) (hcall.format.trans hf)
        (State.follow_yields (dietReading_yields s.cfg) hi) hexec
    · exact State.inv_abort k h.mem

/-! #### The start of a call -/

/-- The registers of `LZW.INIT` before the reader is primed (42_lzw R191). -/
def State.lzwInitUnit (s : State) : State :=
  { s with
    dict := []
    dictsize := BitVec.ofNat 13 dictInit
    nbit := BitVec.ofNat 4 nbitMin
    pv := false
    prev := 0
    out := []
    olen := 0 }

theorem State.lzwInit_eq (s : State) : s.lzwInit = s.lzwInitUnit.r24Prime := rfl

/-- `LZW.INIT` leaves a running LZW call (42_lzw R191). -/
theorem State.Entering.inv_lzwInit {s : State} (h : s.Entering) (hm : s.MemOk) (hs : s.StatusOk)
    (hf : s.format = .lzw) : s.lzwInit.Inv := by
  obtain ⟨hshape, hmissing, -, -, honly⟩ := State.r24Prime_shape (s := s.lzwInitUnit) h.ipos
  obtain ⟨i, b, m, n, heq⟩ : ∃ i b m n, s.lzwInitUnit.r24Prime = s.lzwInitUnit.withR24 i b m n :=
    ⟨_, _, _, _, honly⟩
  have hok := hshape.ok (by rw [hmissing]; exact Nat.zero_le _)
  rw [heq] at hshape hok
  rw [State.lzwInit_eq, heq]
  exact State.inv_of_lzwRunning hf hm hs ⟨rfl, rfl, rfl, rfl, rfl, rfl, rfl, rfl⟩ Memory.wf_nil Dict.wf_nil
    { h with
      ipos := hshape.ipos, r24 := hok, window := hshape.window
      lzw := .of_reset ⟨rfl, rfl, rfl, rfl, rfl⟩, out := nofun }

/-- `HUFF.INIT` and the tree section leave a running Huffman call (43_huffman_rle R230, R231). -/
theorem State.Entering.inv_parseTree {s t : State} (h : s.Entering) (hm : s.MemOk) (hs : s.StatusOk)
    (hf : s.format = .huff) (ht : s.huffInit.parseTree = .ok () t) : t.Inv := by
  rcases s.huffInit.parseTree_cases with ⟨hlen, hp⟩ | ⟨-, hp⟩
  · cases hp.symm.trans ht
    have hcount : ∀ v : BitVec 16, v.toNat / 2 < 2 ^ 15 := fun v => by omega
    refine State.inv_of_huffRunning hf hm hs ⟨rfl, rfl, rfl, rfl, rfl, rfl, rfl, rfl⟩ Memory.wf_nil hm.dict
      { h with ipos := hlen, huff := ⟨?_, Nat.zero_le _⟩, out := nofun }
    rw [BitVec.toNat_ofNat, Nat.mod_eq_of_lt (hcount _), List.length_map, List.length_range]
  · simp [hp] at ht

/-- The registers of `DIET.INIT` before the reader is primed (44_diet R260). -/
def State.dietInitUnit (s : State) : State := { s with out := [], idx := 0 }

theorem State.dietInit_eq (s : State) : s.dietInit = s.dietInitUnit.r16Fill := rfl

/-- `DIET.INIT` leaves a running DIET call (44_diet R260). -/
theorem State.Entering.inv_dietInit {s : State} (h : s.Entering) (hm : s.MemOk) (hs : s.StatusOk)
    (hf : s.format = .diet) : s.dietInit.Inv := by
  obtain ⟨honly, -, hipos, hcnt, -, hvalid, hpad⟩ := State.r16Fill_spec (s := s.dietInitUnit) h.ipos
  obtain ⟨i, w, c, v, heq⟩ : ∃ i w c v, s.dietInitUnit.r16Fill = s.dietInitUnit.withR16 i w c v := ⟨_, _, _, _, honly⟩
  rw [heq] at hipos hcnt hvalid hpad
  rw [State.dietInit_eq, heq]
  have hcnt' : c.toNat = 16 := congrArg BitVec.toNat hcnt
  exact State.inv_of_dietRunning hf hm hs ⟨rfl, rfl, rfl, rfl, rfl, rfl, rfl, rfl⟩ Memory.wf_nil hm.dict
    { h with
      ipos := hipos, diet := ⟨Nat.zero_le _, ⟨by rw [hcnt]; decide, hcnt'.le⟩, hvalid.trans hcnt'.ge, hpad⟩
      out := nofun }

/-- The initialisation of the selected decoder leaves a running call of its format (40_dispatcher R134). -/
theorem State.Entering.inv_initDecoder {s t : State} (h : s.Entering) (hm : s.MemOk) (hs : s.StatusOk)
    (hf : s.format ≠ .none) (ht : s.initDecoder = .ok () t) : t.Inv := by
  unfold State.initDecoder at ht
  cases hfmt : s.format with
  | none => exact absurd hfmt hf
  | lzw => simp only [hfmt] at ht; cases ht; exact h.inv_lzwInit hm hs hfmt
  | huff => simp only [hfmt] at ht; exact h.inv_parseTree hm hs hfmt ht
  | diet => simp only [hfmt] at ht; cases ht; exact h.inv_dietInit hm hs hfmt

/-- A container route ends the call or leaves a running one (40_dispatcher R134, R135). -/
theorem State.Entering.inv_route {s t : State} {f : Format} {size : BitVec 21} (h : s.Entering) (hm : s.MemOk)
    (hs : s.StatusOk) (hf : f ≠ .none) (ht : s.route f size = .next t) : t.Inv := by
  have hm' : (s.setFormat f size).MemOk := { hm with }
  refine hm'.inv_outcome (fun hok => ?_) ht
  unfold State.dispatch at hok
  split at hok
  · cases hok
    exact State.inv_finish hm'
  · exact State.Entering.inv_initDecoder (s := s.setFormat f size) { h with } hm' { hs with } hf hok

/-- Every route sets a format and dispatches (40_dispatcher R132, R133). -/
theorem exec_route {i : Instr} (s : State) (hi : i.format = .none) :
    ∃ f size, f ≠ .none ∧ exec i s = s.route f size := by
  cases i with
  | routeDiet h l0 l1 => exact ⟨.diet, _, nofun, rfl⟩
  | routeTtfLzw b0 l0 l1 => exact ⟨.lzw, _, nofun, rfl⟩
  | routeTtfHuff b0 type l0 l1 => exact ⟨.huff, _, nofun, rfl⟩
  | _ => cases hi

/-- The prologue of a call aborts it, or reads a header that is there in full (40_dispatcher R130 to R133). -/
theorem State.fetchHeader_cases (s : State) :
    (∃ k, s.fetchHeader = .ended (.next (s.abort k))) ∨
      (s.headerLen ≤ s.inLen ∧
        s.fetchHeader = (s.follow (headerReading s.ctx (s.inByte 0) (s.inByte 1))).fetched s) := by
  unfold State.fetchHeader
  split
  · exact .inl ⟨_, rfl⟩
  · split
    · exact .inl ⟨_, rfl⟩
    · split
      · exact .inl ⟨_, rfl⟩
      · exact .inr ⟨by omega, rfl⟩

/-- The step of the container header keeps the invariant. -/
theorem step_header_inv {s t : State} (h : s.Inv) (hrun : s.stState = .run) (hf : s.format = .none)
    (ht : step s = .next t) : t.Inv := by
  obtain ⟨hr, hzero, -⟩ := (State.runOk_none_iff hf).1 (h.run hrun)
  have hfetch := fetch_none hrun hf
  rcases s.fetchHeader_cases with ⟨k, hk⟩ | ⟨hlen, hk⟩ <;> rw [hk] at hfetch
  · cases (step_of_ended hfetch).symm.trans ht
    exact State.inv_abort k h.mem
  · rcases step_of_fetched hfetch ht with ⟨i, u, hi, hexec⟩ | ⟨k, rfl⟩
    · have hall : s.ipos + s.headerLen ≤ s.inLen := by omega
      obtain ⟨j, hj⟩ := State.follow_onlyRaw (headerReading_onlyRaw s.ctx (s.inByte 0) (s.inByte 1)) hall
      cases hj.symm.trans hi
      obtain ⟨f, size, hne, hroute⟩ := exec_route { s with ipos := s.ipos + s.headerLen }
        (State.follow_yields (headerReading_yields _ _ _) hi)
      exact State.Entering.inv_route (s := { s with ipos := s.ipos + s.headerLen }) { hr with ipos := hall }
        { h.mem with } { h.status with } hne (hroute.symm.trans hexec)
    · exact State.inv_abort k h.mem

/-- After the reset of a call every decoder is at reset (10_state R41). -/
theorem State.entering_resetForCall (c : Call) (rest : List Call) (s : State) : (s.resetForCall c rest).Entering :=
  ⟨Nat.zero_le _, ⟨rfl, rfl, rfl⟩, ⟨rfl, rfl, rfl, rfl, rfl⟩, ⟨rfl, rfl⟩, ⟨rfl, rfl, rfl⟩, ⟨rfl, rfl, rfl⟩, rfl, rfl,
    nofun⟩

/-- The reset of a call keeps the invariant (70_reset R340). -/
theorem State.inv_resetForCall {c : Call} {rest : List Call} (s : State) (hc : c.src.wf = true)
    (hrest : ∀ d ∈ rest, d.src.wf = true) : (s.resetForCall c rest).Inv where
  mem := ⟨Memory.wf_nil, Dict.wf_nil, hc, hrest⟩
  status := ⟨by simp, by simp⟩
  run _ := (State.runOk_none_iff rfl).2 ⟨State.entering_resetForCall c rest s, rfl, rfl⟩

/-- A sub-operation of 00_scope R6 aborts the call or leaves a running one. -/
theorem State.Entering.inv_enterDecoder {s t : State} {f : Format} {start : Nat} {size : BitVec 21} (h : s.Entering)
    (hm : s.MemOk) (hs : s.StatusOk) (hf : f ≠ .none) (ht : s.enterDecoder f start size = .next t) : t.Inv := by
  simp only [State.enterDecoder] at ht
  split at ht
  · cases ht
    exact State.inv_abort _ hm
  · have hm' : State.MemOk { s.setFormat f size with ipos := min start s.inLen } := { hm with }
    refine hm'.inv_outcome (fun hok => ?_) ht
    exact State.Entering.inv_initDecoder (s := { s.setFormat f size with ipos := min start s.inLen })
      { h with ipos := Nat.min_le_right _ _ } hm' { hs with } hf hok

/-- Between two calls a step keeps the invariant. -/
theorem step_between_inv {s t : State} (h : s.Inv) (hrun : s.stState ≠ .run) (ht : step s = .next t) : t.Inv := by
  rw [step_between hrun, State.betweenCalls] at ht
  cases hp : s.pending with
  | nil =>
    simp only [hp] at ht
    cases ht
    exact h
  | cons c rest =>
    simp only [hp] at ht
    have hpending := h.mem.pending
    rw [hp, List.forall_mem_cons] at hpending
    have hreset := State.inv_resetForCall s hpending.1 hpending.2
    have henter := State.entering_resetForCall c rest s
    unfold State.startCall at ht
    split at ht
    · cases ht
      exact hreset
    · exact henter.inv_enterDecoder (f := .lzw) hreset.mem hreset.status nofun ht
    · exact henter.inv_enterDecoder (f := .huff) hreset.mem hreset.status nofun ht
    · exact henter.inv_enterDecoder (f := .diet) hreset.mem hreset.status nofun ht

/-- Settles O50: by where the machine stands. Between calls the reset meets the invariant; in a running call the readers
keep it while an instruction is fetched, and then the instruction's meaning keeps it, format by format. -/
theorem stepKeepsTheInvariant : Obligations.StepKeepsTheInvariant := by
  intro s t h ht
  by_cases hrun : s.stState = .run
  · cases hf : s.format with
    | none => exact step_header_inv h hrun hf ht
    | lzw => exact step_lzw_inv h hrun hf ht
    | huff => exact step_huff_inv h hrun hf ht
    | diet => exact step_diet_inv h hrun hf ht
  · exact step_between_inv h hrun ht

end Sys2Proof.Machine

/-! ### The opcode maps and the container headers, as the decoder reads them -/

namespace Sys2Proof

/-- `END_CODE` selects `END` (line 1 of 30_encoding R92). -/
theorem decodeLzw_endCode (x : Ctx) :
    decodeLzw x (endCode x.cfg.altLzw) = if x.cfg.altLzw then .endLzwAlt else .endLzw :=
  if_pos rfl

theorem clearCode_ne_endCode (altLzw : Bool) : clearCode altLzw ≠ endCode altLzw := by
  cases altLzw <;> decide

/-- `CLEAR_CODE` selects `CLEAR` (line 2 of 30_encoding R92). -/
theorem decodeLzw_clearCode (x : Ctx) :
    decodeLzw x (clearCode x.cfg.altLzw) = if x.cfg.altLzw then .clearAlt else .clear := by
  rw [decodeLzw, if_neg (clearCode_ne_endCode _), if_pos rfl]

/-- The two sentinel lines of 30_encoding R92 take the codes `0x100` and `0x101` only. -/
theorem decodeLzw_of_ne_sentinels (x : Ctx) {c : Code} (h : c ≠ 0x100 ∧ c ≠ 0x101) :
    decodeLzw x c = if c.toNat ≤ 0xFF then .lit (c.setWidth 8) else if x.isLearned c then .ref c
      else if x.isNextCode c then .kwkwk c else .illegal c := by
  obtain ⟨h0, h1⟩ := h
  have hend : c ≠ endCode x.cfg.altLzw := by cases x.cfg.altLzw <;> assumption
  have hclear : c ≠ clearCode x.cfg.altLzw := by cases x.cfg.altLzw <;> assumption
  rw [decodeLzw, if_neg hend, if_neg hclear]

/-- Line 3 of 30_encoding R92. -/
theorem decodeLzw_byte (x : Ctx) {c : Code} (h : c.toNat ≤ 0xFF) : decodeLzw x c = .lit (c.setWidth 8) := by
  rw [decodeLzw_of_ne_sentinels x (Machine.ne_sentinels (.inl h)), if_pos h]

/-- From `DICT_INIT` on, `dictsize` and `pv` decide (lines 4 to 6 of 30_encoding R92). -/
theorem decodeLzw_of_dictInit_le (x : Ctx) {c : Code} (h : dictInit ≤ c.toNat) :
    decodeLzw x c = if c.toNat < x.dictsize.toNat then .ref c
      else if c.toNat = x.dictsize.toNat ∧ x.pv = true ∧ x.dictsize.toNat < dictCap then .kwkwk c
      else .illegal c := by
  have hbyte : ¬ c.toNat ≤ 0xFF := Nat.not_le.2 (Nat.lt_of_lt_of_le (by decide) h)
  simp only [decodeLzw_of_ne_sentinels x (Machine.ne_sentinels (.inr h)), if_neg hbyte, x.isLearned_iff,
    x.isNextCode_iff, h, true_and]

/-- Settles O4: the sentinel codes by the mode of `CFG.ALT_LZW`, the bytes by `decodeLzw_byte`, and the codes from
`DICT_INIT` on by their place below, at or above `dictsize` (`decodeLzw_of_dictInit_le`). -/
theorem lzwOpcodeMap : Obligations.LzwOpcodeMap := by
  intro x c
  have hend := decodeLzw_endCode x
  have hclear := decodeLzw_clearCode x
  refine ⟨fun hc halt => ?_, fun hc halt => ?_, fun hc halt => ?_, fun hc halt => ?_, decodeLzw_byte x,
    fun hlo hlt => ?_, fun hlo heq hpv hcap => ?_, fun hlo hgt => ?_, fun hlo heq hpv => ?_⟩
  · rw [halt] at hend
    rwa [show c = endCode false from BitVec.eq_of_toNat_eq hc]
  · rw [halt] at hend
    rwa [show c = endCode true from BitVec.eq_of_toNat_eq hc]
  · rw [halt] at hclear
    rwa [show c = clearCode false from BitVec.eq_of_toNat_eq hc]
  · rw [halt] at hclear
    rwa [show c = clearCode true from BitVec.eq_of_toNat_eq hc]
  · rw [decodeLzw_of_dictInit_le x hlo, if_pos hlt]
  · rw [decodeLzw_of_dictInit_le x hlo, if_neg heq.not_lt, if_pos ⟨heq, hpv, hcap⟩]
  · rw [decodeLzw_of_dictInit_le x hlo, if_neg hgt.not_gt, if_neg fun h => hgt.ne' h.1]
  · rw [decodeLzw_of_dictInit_le x hlo, if_neg heq.not_lt, if_neg (by simp [hpv])]

@[simp] theorem symHi_append (hi : BitVec 7) (lo : Byte) : symHi (hi ++ lo) = hi :=
  BitVec.extractLsb'_append_eq_left

@[simp] theorem symLo_append (hi : BitVec 7) (lo : Byte) : symLo (hi ++ lo) = lo :=
  BitVec.extractLsb'_append_eq_right

theorem symLo_toNat (a : Symbol) : (symLo a).toNat = a.toNat % 256 := by
  simp [symLo]

/-- A Huffman symbol is decoded by the Huffman opcode map (43_huffman_rle R230). -/
theorem decode_huff {x : Ctx} (hx : x.format = .huff) (a : Symbol) (rest : List Item) :
    decode x (.sym a :: rest) = (huffReading a).parse rest := by
  simp only [decode, hx]

/-- Settles O5: the symbol `hi ++ lo` has the fields `hi` and `lo` (`symHi_append`, `symLo_append`), and each clause is one
branch of `huffReading`. -/
theorem huffmanOpcodeMap : Obligations.HuffmanOpcodeMap := by
  intro x hi lo a b rest hx
  simp only [decode_huff hx, huffReading, symHi_append, symLo_append]
  refine ⟨fun hhi => ?_, fun hhi hlo => ⟨?_, rfl⟩, fun hhi hlo => ⟨?_, symLo_toNat a⟩, fun hhi hlo => ⟨?_, ?_⟩⟩
  · rw [if_pos hhi]; rfl
  · have h0 : lo ≠ 0 := by rintro rfl; simp at hlo
    have h1 : lo ≠ 1 := by rintro rfl; simp at hlo
    rw [if_neg hhi, if_neg h0, if_neg h1]; rfl
  · rw [if_neg hhi, if_pos hlo]; rfl
  · subst hlo
    rw [if_neg hhi, if_neg (by decide), if_pos rfl]; rfl
  · rw [Machine.run16Count, symLo_toNat, symLo_toNat]

/-- The discarded bytes of a header do not matter (40_dispatcher R132). -/
theorem skipRaw_parse (skipped : List Byte) (next : Reading) (rest : List Item) :
    (skipRaw skipped.length next).parse (skipped.map .raw ++ rest) = next.parse rest := by
  induction skipped with
  | nil => rfl
  | cons v vs ih => exact ih

/-- A header is read from its first byte on, once `PEEK` has named its container (40_dispatcher R131). -/
theorem decode_none {x : Ctx} (hx : x.format = .none) (b0 b1 : Byte) (rest : List Item) :
    decode x (.raw b0 :: .raw b1 :: rest) = (headerReading x b0 b1).parse (.raw b0 :: .raw b1 :: rest) := by
  simp only [decode, hx]

theorem Ctx.isDietSig_iff (x : Ctx) (b0 b1 : Byte) : x.isDietSig b0 b1 = true ↔ b1 ++ b0 = x.cfg.dietSig :=
  beq_iff_eq

/-- Settles O7: `PEEK` compares the first two bytes with the signature; a TTF header's type byte selects the route, and a
DIET header discards the bytes before its size fields (`skipRaw_parse`). -/
theorem containerHeaders : Obligations.ContainerHeaders := by
  intro x b0 b1 h l0 l1 skipped tail rest hx
  refine ⟨fun hsig => ?_, fun hlen hbytes hsig => ?_⟩
  · have hread : headerReading x b0 b1 = ttfHeaderReading := if_neg (mt (x.isDietSig_iff b0 b1).1 hsig)
    exact (decode_none hx b0 b1 _).trans (congrArg (Reading.parse · _) hread)
  · have hread : headerReading x b0 b1 = dietHeaderReading x.cfg := if_pos ((x.isDietSig_iff b0 b1).2 hsig)
    have hskip : x.cfg.dietSkip = skipped.length := by simp only [Cfg.dietSkip]; omega
    have hpeek : decode x ((skipped ++ [h, l0, l1]).map .raw ++ rest) =
        (dietHeaderReading x.cfg).parse ((skipped ++ [h, l0, l1]).map .raw ++ rest) := by
      rw [hbytes, ← hread]
      exact decode_none hx b0 b1 _
    rw [hpeek, dietHeaderReading, hskip, List.map_append, List.append_assoc, skipRaw_parse]
    rfl

end Sys2Proof

namespace Sys2Proof.Machine

/-- The three parts of a payload size do not overlap, so the `|` of 30_encoding R96 adds them. -/
theorem sizeOf16_toNat (high : BitVec 5) (l0 l1 : Byte) :
    (sizeOf16 high l0 l1).toNat = high.toNat * 0x10000 + l1.toNat * 0x100 + l0.toNat := by
  have hhigh : (high.setWidth 21 <<< 16).toNat = 2 ^ 16 * high.toNat := by
    rw [BitVec.toNat_shiftLeft, BitVec.toNat_setWidth, Nat.shiftLeft_eq]; omega
  have hl1 : (l1.setWidth 21 <<< 8).toNat = 2 ^ 8 * l1.toNat := by
    rw [BitVec.toNat_shiftLeft, BitVec.toNat_setWidth, Nat.shiftLeft_eq]; omega
  have hl0 : (l0.setWidth 21).toNat = l0.toNat := BitVec.toNat_setWidth_of_le (by decide)
  rw [sizeOf16, BitVec.toNat_or, BitVec.toNat_or, hhigh, hl1, hl0, Nat.or_assoc,
    ← Nat.two_pow_add_eq_or_of_lt l0.isLt, ← Nat.two_pow_add_eq_or_of_lt (by omega)]
  omega

/-- Settles O10: `sizeOf16_toNat`, with the top part as a bit field of the header byte. -/
theorem payloadSizeAssembly : Obligations.PayloadSizeAssembly := by
  intro b0 h l0 l1
  constructor
  · have htop : ((b0.extractLsb' 0 4).setWidth 5).toNat = b0.toNat % 16 := by
      rw [BitVec.toNat_setWidth, BitVec.extractLsb'_toNat, Nat.shiftRight_zero]
      omega
    rw [ttfPayloadSize, sizeOf16_toNat, htop]
  · have htop : (h.extractLsb' 2 5).toNat = h.toNat / 4 % 32 := by
      rw [BitVec.extractLsb'_toNat, Nat.shiftRight_eq_div_pow]
    rw [dietPayloadSize, sizeOf16_toNat, htop]

end Sys2Proof.Machine

namespace Sys2Proof.Machine

theorem exec_routeDiet (h l0 l1 : Byte) (s : State) :
    exec (.routeDiet h l0 l1) s = s.route .diet (dietPayloadSize h l0 l1) := rfl

theorem exec_routeTtfLzw (b0 l0 l1 : Byte) (s : State) :
    exec (.routeTtfLzw b0 l0 l1) s = s.route .lzw (ttfPayloadSize b0 l0 l1) := rfl

theorem exec_routeTtfHuff (b0 type l0 l1 : Byte) (s : State) :
    exec (.routeTtfHuff b0 type l0 l1) s = s.route .huff (ttfPayloadSize b0 l0 l1) := rfl

/-- `DISPATCH` takes its first branch: no decoder is initialised (40_dispatcher R135). -/
theorem State.route_zero (f : Format) (s : State) : s.route f 0 = .next (s.setFormat f 0).finish := by
  have hdispatch : (s.setFormat f 0).dispatch = .ok () (s.setFormat f 0).finish := if_pos rfl
  rw [State.route, hdispatch, Res.outcome_ok]

/-- Both counts a result's length can come from are zero (40_dispatcher R136). -/
theorem State.resultLen_zero {s : State} (hp : s.payloadSize = 0) (ho : s.olen = 0) : s.resultLen = 0 := by
  unfold State.resultLen
  split
  · rw [hp]; rfl
  · exact ho

theorem State.result_finish (s : State) : s.finish.result = some (.ok (s.out.take 0 s.resultLen)) := rfl

/-- A route with size zero ends the call with the empty result, and changes nothing but the format, the size and the
status (40_dispatcher R135). -/
theorem State.route_zero_endsEmpty (f : Format) {s : State} (ho : s.olen = 0) :
    ∃ t, s.route f 0 = .next t ∧ t.result = some (.ok []) ∧
      t = { s with format := f, payloadSize := 0, stState := .done, stErr := 0 } := by
  refine ⟨_, s.route_zero f, ?_, rfl⟩
  have hlen : (s.setFormat f 0).resultLen = 0 := State.resultLen_zero rfl ho
  rw [State.result_finish, hlen, Memory.take]

/-- Settles O39: all three routes with size zero are `State.route_zero_endsEmpty`. -/
theorem zeroSizeEndsTheCall : Obligations.ZeroSizeEndsTheCall := by
  intro s b0 h type l0 l1 ho
  refine ⟨fun hsize => ⟨?_, ?_⟩, fun hsize => ?_⟩
  · rw [exec_routeTtfLzw, hsize]
    exact State.route_zero_endsEmpty .lzw ho
  · rw [exec_routeTtfHuff, hsize]
    exact State.route_zero_endsEmpty .huff ho
  · rw [exec_routeDiet, hsize]
    exact State.route_zero_endsEmpty .diet ho

end Sys2Proof.Machine

/-! ### RMSB and R16 deliver whole bytes and words -/

namespace Sys2Proof.Machine

theorem State.rmsbBit_take {s : State} (h : s.bitcnt ≠ 0) : s.rmsbBit = s.rmsbTake := if_neg h

/-- The lazy refill of 41_bit_readers R156: the call that finds no bit left fetches a byte and goes on
from there. -/
theorem State.rmsbBit_refill {s : State} (hb : s.bitcnt = 0) (h : s.ipos < s.inLen) :
    s.rmsbBit = (s.withRmsb (s.ipos + 1) (s.inByte s.ipos) 8).rmsbBit := by
  rw [State.rmsbBit, if_pos hb, State.inReadRequired_ok h, Res.bind_ok]
  rfl

theorem State.rmsbBit_raise {s : State} (hb : s.bitcnt = 0) (h : s.inLen ≤ s.ipos) :
    s.rmsbBit = .raise .truncatedStream := by
  rw [State.rmsbBit, if_pos hb, State.inReadRequired_raise h, Res.bind_raise]

theorem State.takesRmsb_cons {s s' : State} {b : Bool} (rest : List Bool) (h : s.rmsbBit = .ok b s') :
    s.takesRmsb (b :: rest) = s'.takesRmsb rest := by
  simp [State.takesRmsb, h]

/-- The bits delivered depend on the state through the first call only. -/
theorem State.takesRmsb_congr {s u : State} (h : s.rmsbBit = u.rmsbBit) (b : Bool) (rest : List Bool) :
    s.takesRmsb (b :: rest) = u.takesRmsb (b :: rest) := by
  simp [State.takesRmsb, h]

/-- The next `n` bits of the current byte come most significant first. -/
theorem State.takesRmsb_cur {s : State} {n : Nat} (h : n ≤ s.bitcnt.toNat) :
    s.takesRmsb ((List.range n).map s.cur.getMsbD) =
      some (s.withRmsb s.ipos (s.cur <<< n) (s.bitcnt - BitVec.ofNat 4 n)) := by
  induction n generalizing s with
  | zero => simp [State.takesRmsb, State.withRmsb]
  | succ n ih =>
    have hbit : s.rmsbBit = .ok (s.cur.getMsbD 0) (s.withRmsb s.ipos (s.cur <<< 1) (s.bitcnt - 1)) :=
      State.rmsbBit_take (by bv_omega)
    have hcount : n ≤ (s.bitcnt - 1).toNat := by bv_omega
    have hrest : (List.range n).map (s.cur.getMsbD ∘ Nat.succ) = (List.range n).map (s.cur <<< 1).getMsbD := by
      simp [Function.comp_def, BitVec.getMsbD_shiftLeft]
    have hend : s.bitcnt - 1 - BitVec.ofNat 4 n = s.bitcnt - BitVec.ofNat 4 (n + 1) := by bv_omega
    rw [List.range_succ_eq_map, List.map_cons, List.map_map, State.takesRmsb_cons _ hbit, hrest]
    refine (ih (s := s.withRmsb s.ipos (s.cur <<< 1) (s.bitcnt - 1)) hcount).trans (congrArg some ?_)
    simp only [State.withRmsb, ← BitVec.shiftLeft_add, Nat.add_comm 1 n, hend]

theorem State.takesRmsb_byte {s : State} (h : s.bitcnt = 8) :
    s.takesRmsb ((List.range 8).map s.cur.getMsbD) = some (s.withRmsb s.ipos 0 0) := by
  have hbits := State.takesRmsb_cur (s := s) (n := 8) (by rw [h]; decide)
  simpa [h] using hbits

/-- Settles O16: the three clauses are `rmsbBit_take`, `rmsbBit_raise` and `rmsbBit_refill`; after the refill the eight
bits of the byte are those of `takesRmsb_byte`. -/
theorem msbReaderDeliversAByte : Obligations.MsbReaderDeliversAByte := by
  intro s
  refine ⟨fun hb => State.rmsbBit_take hb, fun hb he => State.rmsbBit_raise hb ((State.exhausted_iff s).1 he), ?_⟩
  rintro hb he b rfl
  have hrefill := State.rmsbBit_refill hb ((State.not_exhausted_iff s).1 he)
  have hbyte := State.takesRmsb_byte (s := s.withRmsb (s.ipos + 1) (s.inByte s.ipos) 8) rfl
  refine ⟨?_, (State.takesRmsb_congr hrefill _ _).trans hbyte⟩
  rw [hrefill, State.rmsbBit_take (show (8 : BitVec 4) ≠ 0 by decide)]
  simp [State.rmsbTake, State.withRmsb]

theorem State.withR16_r16Fill (s : State) (w : BitVec 16) (c v : BitVec 5) :
    (s.withR16 s.ipos w c v).r16Fill = s.r16Fill := by
  rw [State.r16Fill_eq, State.r16Fill_eq]
  rfl

theorem State.refilled_r16Fill (s : State) : s.Refilled s.r16Fill := by
  rw [State.r16Fill_eq]
  refine ⟨fun h => if_pos h, fun h => ?_, fun h => ?_⟩
  · rw [if_neg (by omega), if_pos (by omega)]
    rfl
  · rw [if_neg (by omega), if_neg (by omega)]
    rfl

theorem State.r16Bit_pad {s : State} (h : s.valid = 0) : s.r16Bit = .raise .truncatedStream := if_pos h

theorem State.r16Bit_take {s : State} (hv : s.valid ≠ 0) (hc : s.cnt ≠ 1) :
    s.r16Bit = .ok (s.w.getLsbD 0) (s.withR16 s.ipos (s.w >>> 1) (s.cnt - 1) (s.valid - 1)) := by
  have hcnt : s.r16Take.cnt ≠ 0 := by rw [State.r16Take_cnt]; bv_omega
  rw [State.r16Bit, if_neg hv, if_neg hcnt]
  rfl

/-- The eager refill of 41_bit_readers R159: the call that takes the last bit of a word fetches the next one. -/
theorem State.r16Bit_last {s : State} (hv : s.valid ≠ 0) (hc : s.cnt = 1) :
    s.r16Bit = .ok (s.w.getLsbD 0) s.r16Fill := by
  have hcnt : s.r16Take.cnt = 0 := by rw [State.r16Take_cnt, hc]; rfl
  rw [State.r16Bit, if_neg hv, if_pos hcnt]
  exact congrArg _ (s.withR16_r16Fill _ _ _)

theorem State.takesR16_cons {s s' : State} {b : Bool} (rest : List Bool) (h : s.r16Bit = .ok b s') :
    s.takesR16 (b :: rest) = s'.takesR16 rest := by
  simp [State.takesR16, h]

/-- What is left of a word, all of it real, comes least significant bit first and ends in the fetch of the next word. -/
theorem State.takesR16_word {s : State} {n : Nat} (hc : s.cnt.toNat = n + 1) (hv : n + 1 ≤ s.valid.toNat) :
    s.takesR16 ((List.range (n + 1)).map s.w.getLsbD) = some s.r16Fill := by
  induction n generalizing s with
  | zero => exact State.takesR16_cons [] (State.r16Bit_last (by bv_omega) (BitVec.eq_of_toNat_eq hc))
  | succ n ih =>
    have hbit := State.r16Bit_take (s := s) (by bv_omega) (by bv_omega)
    have hrest : (List.range (n + 1)).map (s.w.getLsbD ∘ Nat.succ) =
        (List.range (n + 1)).map (s.w >>> 1).getLsbD := by
      simp [Function.comp_def, BitVec.getLsbD_ushiftRight, Nat.add_comm 1]
    have hc' : (s.cnt - 1).toNat = n + 1 := by bv_omega
    have hv' : n + 1 ≤ (s.valid - 1).toNat := by bv_omega
    rw [List.range_succ_eq_map, List.map_cons, List.map_map, State.takesR16_cons _ hbit, hrest,
      ← s.withR16_r16Fill (s.w >>> 1) (s.cnt - 1) (s.valid - 1)]
    exact ih (s := s.withR16 s.ipos (s.w >>> 1) (s.cnt - 1) (s.valid - 1)) hc' hv'

/-- Settles O17: a pad bit, a plain bit and the last bit are the three cases of `R16.BIT`, and a fresh word is
`takesR16_word` with 16 bits. -/
theorem lsbReaderDeliversAWord : Obligations.LsbReaderDeliversAWord := fun s =>
  ⟨State.r16Bit_pad, State.r16Bit_take, fun hv hc => ⟨_, State.r16Bit_last hv hc, s.refilled_r16Fill⟩,
    fun hv hc => ⟨_, State.takesR16_word (by rw [hc]; rfl) (by rw [hv]; decide), s.refilled_r16Fill⟩⟩

end Sys2Proof.Machine

/-! ### The DIET route -/

namespace Sys2Proof.Machine

/-- A size other than zero enters the selected decoder (40_dispatcher R134). -/
theorem State.route_of_ne_zero (f : Format) {size : BitVec 21} (s : State) (h : size ≠ 0) :
    s.route f size = (s.setFormat f size).initDecoder.outcome (s.setFormat f size) := by
  rw [State.route, State.dispatch, State.setFormat_payloadSize, if_neg h]

/-- The fetch of a word takes two bytes, or what is left (41_bit_readers R158). -/
theorem State.r16Fill_ipos {s : State} (h : s.ipos ≤ s.inLen) : s.r16Fill.ipos = min (s.ipos + 2) s.inLen := by
  rw [State.r16Fill_eq]
  split
  · exact (Nat.min_eq_left ‹_›).symm
  · split <;> simp only [State.withR16] <;> omega

/-- A fetched word, its cursor and its counts, in one state that differs in nothing else (41_bit_readers R158). -/
theorem State.r16Fill_withR16 {s : State} (h : s.ipos ≤ s.inLen) :
    ∃ i w c v, s.r16Fill = s.withR16 i w c v ∧ s.Refilled (s.withR16 i w c v) ∧ i = min (s.ipos + 2) s.inLen ∧
      c = 16 ∧ v.toNat = 8 * (i - s.ipos) := by
  obtain ⟨honly, -, -, hcnt, hvalid, -, -⟩ := State.r16Fill_spec h
  exact ⟨_, _, _, _, honly, Eq.subst (motive := s.Refilled) honly s.refilled_r16Fill, State.r16Fill_ipos h, hcnt,
    hvalid⟩

/-- Settles O42: the route clears the buffer and the cursor and fetches a word (`DIET.INIT`), and that fetch changes
nothing but `ipos` and the registers of `R16` (`r16Fill_withR16`). -/
theorem dietRouteResult : Obligations.DietRouteResult := by
  intro s h l0 l1 hi hsize
  rw [exec_routeDiet, State.route_of_ne_zero .diet s hsize]
  obtain ⟨i, w, c, v, heq, hfill, hipos, hcnt, hvalid⟩ :=
    State.r16Fill_withR16 (s := (s.setFormat .diet (dietPayloadSize h l0 l1)).dietInitUnit) hi
  exact ⟨_, congrArg Host.Outcome.next heq, rfl, rfl, rfl, Memory.read_nil, hipos, hcnt, hvalid,
    fun htwo => congrArg State.w (hfill.two htwo), fun hone => congrArg State.w (hfill.one hone),
    fun hnone => congrArg State.w (hfill.none hnone.ge), rfl, rfl, rfl, rfl, rfl, rfl, rfl, rfl, rfl,
    ⟨rfl, rfl, rfl, rfl, rfl⟩, rfl, rfl, ⟨rfl, rfl⟩, rfl⟩

end Sys2Proof.Machine

/-! ### LZW codewords and the LZW route -/

namespace Sys2Proof.Machine

/-- The byte of a `LIT` is its own singleton entry (10_state R31), so `LIT` is `LZW.TAIL` in every state. -/
theorem exec_lit (b : Byte) (s : State) : exec (.lit b) s = (s.lzwTail [b] (b.setWidth 12)).outcome s := by
  have hcode : (b.setWidth 12).toNat = b.toNat := BitVec.toNat_setWidth_of_le (by decide)
  have hread : s.dictRead (b.setWidth 12).toNat = .ok [b] s := by
    simp only [State.dictRead, hcode, Dict.read_of_lt b.isLt, BitVec.ofNat_toNat, BitVec.setWidth_eq]
  show (s.lzwEntry (b.setWidth 12)).outcome s = _
  rw [State.lzwEntry, hread, Res.bind_ok]

theorem exec_ref_of_read {s : State} {c : Code} {str : List Byte} (h : s.dict.read c.toNat = some str) :
    exec (.ref c) s = (s.lzwTail str c).outcome s := by
  have hread : s.dictRead c.toNat = .ok str s := by simp only [State.dictRead, h]
  show (s.lzwEntry c).outcome s = _
  rw [State.lzwEntry, hread, Res.bind_ok]

theorem exec_kwkwk_of_read {s : State} {c : Code} {p : List Byte} (h : s.dict.read s.prev.toNat = some p) :
    exec (.kwkwk c) s = (s.lzwTail (p ++ p.take 1) c).outcome s := by
  have hread : s.dictRead s.prev.toNat = .ok p s := by simp only [State.dictRead, h]
  show ((s.dictRead s.prev.toNat).bind fun p s' => s'.lzwTail (p ++ p.take 1) c).outcome s = _
  rw [hread, Res.bind_ok]

section Tail
variable {s : State} {str : List Byte} (h : s.Inv) (hrun : s.stState = .run) (hf : s.format = .lzw) (hstr : str ≠ [])
include h hrun hf hstr

/-- A step that ends in `LZW.TAIL` completes where `OUT` has room for the string (42_lzw R200, R201). -/
theorem State.Inv.lzwTail_done (cw : Code) (hroom : s.Room str.length) :
    ∃ t, (s.lzwTail str cw).outcome s = .next t ∧ s.TailDone str cw t := by
  have hlzw := ((State.runOk_lzw_iff hf).1 (h.run hrun)).lzw
  obtain ⟨t, ht, hdone⟩ := State.lzwTail_ok (cw := cw) hlzw h.mem.dict h.mem.out hstr hroom
  exact ⟨t, by rw [ht, Res.outcome_ok], hdone⟩

/-- A step that ends in `LZW.TAIL` aborts where `OUT` has no room for the string (60_exceptions R306). -/
theorem State.Inv.lzwTail_overflows (cw : Code) (hroom : s.NoRoom str.length) :
    ∃ t, (s.lzwTail str cw).outcome s = .next t ∧ s.Aborted .outputOverflow t := by
  have hlzw := ((State.runOk_lzw_iff hf).1 (h.run hrun)).lzw
  exact ⟨_, by rw [State.lzwTail_raise hlzw h.mem.dict hstr hroom, Res.outcome_raise], State.aborted_abort _ s⟩

end Tail

/-- Settles O18: `LIT` is `LZW.TAIL` with its one byte (`exec_lit`). -/
theorem litResult : Obligations.LitResult := by
  intro s b h hrun hf
  rw [exec_lit]
  exact ⟨h.lzwTail_done hrun hf (List.cons_ne_nil b []) _, h.lzwTail_overflows hrun hf (List.cons_ne_nil b []) _⟩

/-- Settles O19: a learned code names a present entry of two bytes or more (`LzwOk.present`), and `REF` is `LZW.TAIL`
with it. -/
theorem refResult : Obligations.RefResult := by
  intro s c h hrun hf hlo hlt
  have hlzw := ((State.runOk_lzw_iff hf).1 (h.run hrun)).lzw
  obtain ⟨str, hread, hne, hlen, -⟩ := hlzw.present hlt (by omega) (by omega)
  refine ⟨str, hread, (hlen hlo).1, ?_⟩
  rw [exec_ref_of_read hread]
  exact ⟨h.lzwTail_done hrun hf hne c, h.lzwTail_overflows hrun hf hne c⟩

/-- Where a previous context exists, its string is present (42_lzw R204). -/
theorem State.LzwOk.prev_present {s : State} (h : s.LzwOk) (hpv : s.pv = true) :
    ∃ p, s.dict.read s.prev.toNat = some p ∧ p ≠ [] := by
  obtain ⟨hlt, h0, h1⟩ := h.prev hpv
  obtain ⟨p, hp, hne, -⟩ := h.present hlt (fun he => h0 (BitVec.eq_of_toNat_eq he))
    (fun he => h1 (BitVec.eq_of_toNat_eq he))
  exact ⟨p, hp, hne⟩

/-- Settles O20: the previous string is present (`LzwOk.prev_present`), and `KWKWK` is `LZW.TAIL` with it and its first
byte. That string begins as the previous one does, so the entry learned at `dictsize` is the string itself. -/
theorem kwkwkResult : Obligations.KwkwkResult := by
  intro s c h hrun hf hc hpv hcap
  obtain ⟨p, hp, hne⟩ := ((State.runOk_lzw_iff hf).1 (h.run hrun)).lzw.prev_present hpv
  have happends : s.appends = true := by simp [State.appends, hpv, dictCap, hcap]
  obtain ⟨b, rest, rfl⟩ := List.exists_cons_of_ne_nil hne
  have hstr : b :: rest ++ (b :: rest).take 1 ≠ [] := List.cons_ne_nil _ _
  have hlen : (b :: rest ++ (b :: rest).take 1).length = (b :: rest).length + 1 := List.length_append
  refine ⟨b :: rest, hp, hne, ?_⟩
  rw [exec_kwkwk_of_read hp, ← hlen]
  refine ⟨fun hroom => ?_, h.lzwTail_overflows hrun hf hstr c⟩
  obtain ⟨t, ht, hdone⟩ := h.lzwTail_done hrun hf hstr c hroom
  exact ⟨t, ht, hdone, hc ▸ hdone.learned.entry happends _ hp⟩

/-- The window after priming and its cursor, in one state that differs in nothing else: three bytes are fetched, or what
is left, and all their bits are real (41_bit_readers R151). -/
theorem State.r24Prime_withR24 {s : State} (h : s.ipos ≤ s.inLen) :
    ∃ i b n, s.r24Prime = s.withR24 i b 0 n ∧ (s.withR24 i b 0 n).R24Shape ∧
      (s.withR24 i b 0 n).bitPos = 8 * s.ipos ∧ i = min (s.ipos + 3) s.inLen ∧ n.toNat = 8 * (i - s.ipos) := by
  obtain ⟨hshape, hmissing, hpos, hfwd, honly⟩ := State.r24Prime_shape h
  have heq : s.r24Prime = s.withR24 s.r24Prime.ipos s.r24Prime.buf 0 s.r24Prime.navail := hmissing ▸ honly
  have hcount : s.r24Prime.ipos = min (s.ipos + 3) s.inLen ∧
      s.r24Prime.navail.toNat = 8 * (s.r24Prime.ipos - s.ipos) := by
    have hmiss : s.r24Prime.missing.toNat = 0 := congrArg BitVec.toNat hmissing
    have hlen := honly.inLen
    have hback := hshape.window.1
    have hend := hshape.ipos
    have hsum := hshape.navail
    have hfull := hshape.full
    unfold State.bitPos at hpos
    omega
  exact ⟨_, _, _, heq, heq ▸ hshape, heq ▸ hpos, hcount⟩

/-- Settles O40: the route resets the LZW unit and primes its reader (`LZW.INIT`), and priming changes nothing but
`ipos` and the registers of `R24` (`r24Prime_withR24`). -/
theorem lzwRouteResult : Obligations.LzwRouteResult := by
  intro s b0 l0 l1 hi hsize
  rw [exec_routeTtfLzw, State.route_of_ne_zero .lzw s hsize]
  obtain ⟨i, b, n, heq, hshape, hpos, hipos, hnavail⟩ :=
    State.r24Prime_withR24 (s := (s.setFormat .lzw (ttfPayloadSize b0 l0 l1)).lzwInitUnit) hi
  exact ⟨_, congrArg Host.Outcome.next heq, rfl, rfl, ⟨rfl, rfl, rfl, rfl, rfl⟩, Dict.read_nil, rfl, rfl, hipos, rfl,
    hnavail, hshape.ok (Nat.zero_le 7), hshape.window, hpos, rfl, rfl, rfl, rfl, rfl, rfl, rfl, ⟨rfl, rfl⟩, rfl, rfl,
    rfl, rfl, rfl⟩

/-- Settles O21: both modes are `State.lzwClear`, and an empty list of learned entries reads as the singletons. -/
theorem clearResult : Obligations.ClearResult := fun s => ⟨s.lzwClear, rfl, rfl, rfl, Dict.read_nil⟩

/-- The result of an LZW call has the bytes appended so far (40_dispatcher R136). -/
theorem State.resultLen_lzw {s : State} (hf : s.format = .lzw) : s.resultLen = s.olen := by
  simp only [State.resultLen, hf]

/-- Settles O22: both modes are `FINISH`, and the result of an LZW call is `OUT` up to `olen`. -/
theorem endResult : Obligations.EndResult := by
  intro s
  refine ⟨s.finish, rfl, rfl, rfl, fun hf => ⟨s.out.take 0 s.olen, ?_, Memory.take_length _ _ _, fun k hk => ?_⟩⟩
  · rw [State.result_finish, State.resultLen_lzw hf]
  · rw [Memory.take_getElem, Nat.zero_add]

/-- Settles O23: the meaning of `ILLEGAL` is the raise, and an abort leaves what 60_exceptions R310 says. -/
theorem illegalRaises : Obligations.IllegalRaises := fun s _ => ⟨_, rfl, State.aborted_abort _ s⟩

end Sys2Proof.Machine

/-! ### Huffman symbols: the bytes they append -/

namespace Sys2Proof.Machine

/-- Where `OUT` has room, an emission appends its bytes and changes nothing but `OUT` and `olen`. -/
theorem State.emit_appends {s : State} {str : List Byte} (hout : s.out.wf) (hroom : s.Room str.length) :
    ∃ o l, s.emit str = .ok () { s with out := o, olen := l } ∧ s.Appended str { s with out := o, olen := l } := by
  obtain ⟨t, ht⟩ := State.emit_ok_of_room hroom
  obtain ⟨happ, heq, -, -⟩ := State.emit_eq_ok hout ht
  exact ⟨t.out, t.olen, heq ▸ ht, heq ▸ happ⟩

/-- Beside `OUT`, `olen` and `last` a Huffman symbol changes nothing (43_huffman_rle R235, R236). -/
theorem State.same_but_out_last (s : State) (o : Memory) (l : Nat) (b : Byte) :
    let t : State := { s with out := o, olen := l, last := b }
    s.SameCall t ∧ s.SameReaders t ∧ s.SameLzw t ∧ s.SameTree t ∧ t.idx = s.idx :=
  ⟨⟨rfl, rfl, rfl, rfl, rfl, rfl, rfl, rfl⟩, ⟨rfl, rfl, rfl, rfl, rfl, rfl, rfl, rfl, rfl⟩,
    ⟨rfl, rfl, rfl, rfl, rfl⟩, ⟨rfl, rfl⟩, rfl⟩

/-- `LITSYM` is the emission of its one byte, which then becomes `last` (43_huffman_rle R235). -/
theorem exec_litsym (b : Byte) (s : State) :
    exec (.litsym b) s = ((s.emit [b]).bind fun _ s' => .ok () { s' with last := b }).outcome s := by
  have hemit : s.emit [b] = s.outAppend b := by
    rw [State.emit]
    cases s.outAppend b <;> rfl
  rw [hemit]
  rfl

/-- Settles O26: `LITSYM` is the emission of its byte (`exec_litsym`), which completes or overflows as any emission
does (`emit_appends`, `emit_raise_of_noRoom`). -/
theorem litsymResult : Obligations.LitsymResult := by
  intro s b hout
  rw [exec_litsym]
  refine ⟨fun hroom => ?_, fun hroom => ?_⟩
  · obtain ⟨o, l, hemit, happ⟩ := State.emit_appends (str := [b]) hout hroom
    rw [hemit, Res.bind_ok, Res.outcome_ok]
    exact ⟨_, rfl, ⟨happ.olen, happ.bytes, happ.others⟩, rfl, s.same_but_out_last o l b⟩
  · rw [State.emit_raise_of_noRoom (str := [b]) hroom, Res.bind_raise, Res.outcome_raise]
    exact ⟨_, rfl, State.aborted_abort _ s⟩

/-- A step that ends in a run completes where `OUT` has room for its bytes, and else raises `OutputOverflow`
(43_huffman_rle R236, 60_exceptions R306). -/
theorem State.runAnswers_appendRun {s : State} (hout : s.out.wf) (count : Nat) :
    s.RunAnswers count ((s.appendRun s.last count).outcome s) := by
  have hlen : (List.replicate count s.last).length = count := List.length_replicate
  rw [State.appendRun_eq_emit]
  refine ⟨fun hroom => ?_, fun hroom => ?_⟩
  · obtain ⟨o, l, hemit, happ⟩ := State.emit_appends hout (hlen.symm ▸ hroom)
    obtain ⟨hcall, hreaders, hlzw, htree, hidx⟩ := s.same_but_out_last o l s.last
    rw [hemit, Res.outcome_ok]
    exact ⟨_, rfl, happ, rfl, hcall, hreaders, hlzw, htree, hidx⟩
  · rw [State.emit_raise_of_noRoom (hlen.symm ▸ hroom), Res.outcome_raise]
    exact ⟨_, rfl, State.aborted_abort _ s⟩

theorem exec_run (h : BitVec 7) (n : Byte) (s : State) :
    exec (.run h n) s = (s.appendRun s.last n.toNat).outcome s := rfl

theorem exec_run8 (h : BitVec 7) (a : Symbol) (s : State) :
    exec (.run8 h a) s = (s.appendRun s.last (a.toNat % 256)).outcome s := by
  rw [← symLo_toNat]
  rfl

theorem exec_run16 (h : BitVec 7) (a b : Symbol) (s : State) :
    exec (.run16 h a b) s = (s.appendRun s.last (a.toNat % 256 * 256 + b.toNat % 256)).outcome s := by
  rw [← symLo_toNat, ← symLo_toNat]
  rfl

/-- Settles O27: each of the three meanings is a run of `last` with its own count (`exec_run`, `exec_run8`,
`exec_run16`), and what a run does is `runAnswers_appendRun`. -/
theorem runResults : Obligations.RunResults := by
  rintro s h n a b i count hout (⟨rfl, rfl⟩ | ⟨rfl, rfl⟩ | ⟨rfl, rfl⟩)
  · rw [exec_run]
    exact State.runAnswers_appendRun hout _
  · rw [exec_run8]
    exact State.runAnswers_appendRun hout _
  · rw [exec_run16]
    exact State.runAnswers_appendRun hout _

end Sys2Proof.Machine

/-! ### HUFF.SYM: the traversal and the tree -/

namespace Sys2Proof.Machine

theorem State.takesRmsb_eq_some_cons {s t : State} {b : Bool} {rest : List Bool}
    (h : s.takesRmsb (b :: rest) = some t) : ∃ s1, s.rmsbBit = .ok b s1 ∧ s1.takesRmsb rest = some t := by
  cases hbit : s.rmsbBit with
  | ok b' s1 =>
    rcases eq_or_ne b' b with rfl | hne
    · exact ⟨s1, rfl, (State.takesRmsb_cons rest hbit).symm.trans h⟩
    · simp [State.takesRmsb, hbit, hne] at h
  | raise k => simp [State.takesRmsb, hbit] at h
  | fault f => simp [State.takesRmsb, hbit] at h

theorem State.rmsbBit_only {s t : State} {b : Bool} (h : s.rmsbBit = .ok b t) : s.OnlyRmsb t := (State.rmsbBit_ok h).1

theorem State.OnlyRmsb.nnodes {s t : State} (h : s.OnlyRmsb t) : t.nnodes = s.nnodes := by rw [h]; rfl

/-- Taking bits leaves the tree as it is (43_huffman_rle R233). -/
theorem State.OnlyRmsb.huffNode_ok {s t : State} {i : Nat} {n : HuffNode} (h : s.OnlyRmsb t)
    (hn : s.huffNode i = .ok n s) : t.huffNode i = .ok n t := by
  rw [h]
  unfold State.huffNode at hn ⊢
  split at hn
  · cases hn
  · next hi =>
    split at hn
    · next v hv =>
      cases hn
      exact State.huffNode_ok (s := s.withRmsb t.ipos t.cur t.bitcnt) (Nat.lt_of_not_le hi) hv
    · cases hn

/-- The first bit of a path to a leaf selects that leaf, and the path ends, or an internal node, and the path goes on
from its pair (30_encoding R100). -/
theorem State.pathSymbol_cons {s : State} {index : Nat} {b : Bool} {rest : List Bool} {a : Symbol}
    (h : s.pathSymbol index (b :: rest) = some a) :
    (s.huffNode (index + b.toNat) = .ok (.leaf a) s ∧ rest = []) ∨
      ∃ next, s.huffNode (index + b.toNat) = .ok (.internal next) s ∧ s.pathSymbol next rest = some a := by
  rw [State.pathSymbol] at h
  split at h
  · cases h
  · next hi =>
    split at h
    · cases h
    · next v hv =>
      have hnode := State.huffNode_ok (Nat.lt_of_not_le hi) hv
      split at h
      · next sym hsym =>
        split at h
        · cases h
          exact .inl ⟨hsym ▸ hnode, ‹_›⟩
        · cases h
      · next mid hmid => exact .inr ⟨mid, hmid ▸ hnode, h⟩

/-- The first bit of a path of internal nodes selects one of them (43_huffman_rle R233). -/
theorem State.pathIndex_cons {s : State} {index next : Nat} {b : Bool} {rest : List Bool}
    (h : s.pathIndex index (b :: rest) = some next) :
    ∃ mid, s.huffNode (index + b.toNat) = .ok (.internal mid) s ∧ s.pathIndex mid rest = some next := by
  rw [State.pathIndex] at h
  split at h
  · cases h
  · next hi =>
    split at h
    · cases h
    · next v hv =>
      split at h
      · cases h
      · next mid hmid => exact ⟨mid, hmid ▸ State.huffNode_ok (Nat.lt_of_not_le hi) hv, h⟩

theorem State.huffWalk_of_eos {s : State} (h : s.rmsbEos = true) (passes index : Nat) :
    s.huffWalk passes index = .ok none s := by
  cases passes with
  | zero => rfl
  | succ passes => rw [State.huffWalk, if_pos h]

/-- A pass of the traversal loop: a bit, then the node it selects. The bound on the passes stays the number of bits
left. -/
theorem State.huffWalk_of_bit {s s1 : State} {b : Bool} (h : s.rmsbBit = .ok b s1) (index : Nat) :
    s.huffWalk s.rmsbBitsLeft index = (s1.huffNode (index + b.toNat)).bind fun n s2 =>
      match n with
      | .leaf sym => .ok (some sym) s2
      | .internal next => s2.huffWalk s1.rmsbBitsLeft next := by
  obtain ⟨-, hleft, -, -, -, heos⟩ := State.rmsbBit_ok h
  rw [← hleft, State.huffWalk, if_neg (by simp [heos]), h]
  rfl

theorem State.huffWalk_of_leaf {s s1 : State} {b : Bool} {index : Nat} {a : Symbol} (h : s.rmsbBit = .ok b s1)
    (hn : s1.huffNode (index + b.toNat) = .ok (.leaf a) s1) :
    s.huffWalk s.rmsbBitsLeft index = .ok (some a) s1 := by
  simp only [State.huffWalk_of_bit h, hn, Res.bind_ok]

theorem State.huffWalk_of_internal {s s1 : State} {b : Bool} {index next : Nat} (h : s.rmsbBit = .ok b s1)
    (hn : s1.huffNode (index + b.toNat) = .ok (.internal next) s1) :
    s.huffWalk s.rmsbBitsLeft index = s1.huffWalk s1.rmsbBitsLeft next := by
  simp only [State.huffWalk_of_bit h, hn, Res.bind_ok]

theorem State.huffWalk_of_raise {s s1 : State} {b : Bool} {index : Nat} {k : ErrKind} (h : s.rmsbBit = .ok b s1)
    (hn : s1.huffNode (index + b.toNat) = .raise k) : s.huffWalk s.rmsbBitsLeft index = .raise k := by
  simp only [State.huffWalk_of_bit h, hn, Res.bind_raise]

/-- The loop along a path to a leaf: it answers the leaf's symbol once the bits of the path are taken. The path is that
of the tree in `u`, which taking bits leaves as it is. -/
theorem State.huffWalk_pathSymbol {u s t : State} {index : Nat} {bits : List Bool} {a : Symbol} (hu : u.OnlyRmsb s)
    (hp : u.pathSymbol index bits = some a) (ht : s.takesRmsb bits = some t) :
    s.huffWalk s.rmsbBitsLeft index = .ok (some a) t := by
  induction bits generalizing s index with
  | nil => cases hp
  | cons b rest ih =>
    obtain ⟨s1, hbit, hrest⟩ := State.takesRmsb_eq_some_cons ht
    have hu1 := hu.trans (State.rmsbBit_only hbit)
    rcases State.pathSymbol_cons hp with ⟨hnode, rfl⟩ | ⟨next, hnode, hp'⟩
    · cases hrest
      exact State.huffWalk_of_leaf hbit (hu1.huffNode_ok hnode)
    · exact (State.huffWalk_of_internal hbit (hu1.huffNode_ok hnode)).trans (ih hu1 hp' hrest)

/-- The loop along a path of internal nodes: it goes on from the index they lead to. -/
theorem State.huffWalk_pathIndex {u s t : State} {index next : Nat} {bits : List Bool} (hu : u.OnlyRmsb s)
    (hp : u.pathIndex index bits = some next) (ht : s.takesRmsb bits = some t) :
    s.huffWalk s.rmsbBitsLeft index = t.huffWalk t.rmsbBitsLeft next ∧ u.OnlyRmsb t := by
  induction bits generalizing s index with
  | nil =>
    cases hp
    cases ht
    exact ⟨rfl, hu⟩
  | cons b rest ih =>
    obtain ⟨s1, hbit, hrest⟩ := State.takesRmsb_eq_some_cons ht
    have hu1 := hu.trans (State.rmsbBit_only hbit)
    obtain ⟨mid, hnode, hp'⟩ := State.pathIndex_cons hp
    obtain ⟨hwalk, hut⟩ := ih hu1 hp' hrest
    exact ⟨(State.huffWalk_of_internal hbit (hu1.huffNode_ok hnode)).trans hwalk, hut⟩

theorem State.huffSym_of_eos {s : State} (h : s.rmsbEos = true) : s.huffSym = .ok none s := if_pos h

theorem State.huffSym_of_not_eos {s : State} (h : s.rmsbEos = false) :
    s.huffSym = s.huffRoot.bind fun index s' => s'.huffWalk s'.rmsbBitsLeft index := if_neg (by simp [h])

/-- From a known start a traversal is its loop, at the end of the stream too. -/
theorem State.huffSym_of_startsAt {s : State} {index : Nat} (h : s.StartsAt index) :
    s.huffSym = s.huffWalk s.rmsbBitsLeft index := by
  cases heos : s.rmsbEos with
  | true => rw [State.huffSym_of_eos heos, State.huffWalk_of_eos heos]
  | false => rw [State.huffSym_of_not_eos heos, State.huffRoot_of_startsAt h, Res.bind_ok]

/-- An explicit root that does not exist raises `MalformedTree` (43_huffman_rle R233). -/
theorem State.huffRoot_of_empty {s : State} (hr : s.cfg.rootExplicit = true) (h : s.nnodes.toNat = 0) :
    s.huffRoot = .raise .malformedTree := by
  rw [State.huffRoot, if_pos hr, State.huffNode_raise h.le, Res.bind_raise]

/-- An explicit root that is a leaf raises `MalformedTree` (43_huffman_rle R233). -/
theorem State.huffRoot_of_leaf {s : State} {a : Symbol} (hr : s.cfg.rootExplicit = true)
    (h : s.huffNode 0 = .ok (.leaf a) s) : s.huffRoot = .raise .malformedTree := by
  rw [State.huffRoot, if_pos hr, h, Res.bind_ok]

/-- Settles O29: without a bit the traversal is over before the root is read; the root is missing or a leaf
(`huffRoot_of_empty`, `huffRoot_of_leaf`); else the traversal is its loop (`huffSym_of_startsAt`), which follows a path to
its leaf (`huffWalk_pathSymbol`), or to the index where the bits or the nodes end (`huffWalk_pathIndex`). -/
theorem traversalFollowsTheTree : Obligations.TraversalFollowsTheTree := by
  intro s
  refine ⟨State.huffSym_of_eos, fun heos hr h0 => ?_, fun v a heos hr h0 hv ha => ?_,
    fun index bits a t hstart hpath ht => ?_, fun index bits next t hstart hpath ht => ?_⟩
  · rw [State.huffSym_of_not_eos heos, State.huffRoot_of_empty hr h0, Res.bind_raise]
  · have hroot := State.huffRoot_of_leaf hr (ha ▸ State.huffNode_ok h0 hv)
    rw [State.huffSym_of_not_eos heos, hroot, Res.bind_raise]
  · exact (State.huffSym_of_startsAt hstart).trans (State.huffWalk_pathSymbol (.refl s) hpath ht)
  · obtain ⟨hwalk, honly⟩ := State.huffWalk_pathIndex (.refl s) hpath ht
    rw [State.huffSym_of_startsAt hstart, hwalk]
    refine ⟨fun heos => State.huffWalk_of_eos heos _ _, fun b t' hbit hout => ?_⟩
    have hnnodes : t'.nnodes = s.nnodes := (honly.trans (State.rmsbBit_only hbit)).nnodes
    exact State.huffWalk_of_raise hbit (State.huffNode_raise (hnnodes ▸ hout))

end Sys2Proof.Machine

/-! ### RUN8 and RUN16 with their extension symbols -/

namespace Sys2Proof.Machine

section Extension
variable {s t : State} {next : Symbol → Reading}

theorem State.follow_sym_ok {a : Symbol} (h : s.huffSym = .ok (some a) t) :
    s.follow (.sym next) = t.follow (next a) := by
  rw [State.follow, State.huffSymX_of_huffSym h, Res.bind_ok]

/-- A stream that ends before an extension symbol (43_huffman_rle R234). -/
theorem State.follow_sym_eos (h : s.huffSym = .ok none t) : s.follow (.sym next) = .raise .truncatedStream := by
  rw [State.follow, State.huffSymX, h, Res.bind_ok, Res.bind_raise]

theorem State.follow_sym_raise {k : ErrKind} (h : s.huffSym = .raise k) : s.follow (.sym next) = .raise k := by
  rw [State.follow, State.huffSymX, h, Res.bind_raise, Res.bind_raise]

end Extension

section Step
variable {s s1 : State} {x : Symbol} (hrun : s.stState = .run) (hf : s.format = .huff)
  (hsym : s.huffSym = .ok (some x) s1)
include hrun hf hsym

theorem fetch_of_huffSym : s.fetch = (s1.follow (huffReading x)).fetched s := by
  rw [fetch_huff hrun hf, State.fetchHuff, hsym]

/-- A kind raised while the extension symbols are read aborts the call in the state before the run symbol. -/
theorem step_huff_of_raise {k : ErrKind} (h : s1.follow (huffReading x) = .raise k) :
    ∃ t, step s = .next t ∧ s.Aborted k t := by
  have hfetch : s.fetch = .ended (.next (s.abort k)) := by
    rw [fetch_of_huffSym hrun hf hsym, h, Res.fetched]
  exact ⟨_, step_of_ended hfetch, State.aborted_abort k s⟩

theorem step_huff_of_ok {i : Instr} {t : State} (h : s1.follow (huffReading x) = .ok i t) : step s = exec i t :=
  step_of_execute (by rw [fetch_of_huffSym hrun hf hsym, h, Res.fetched])

end Step

theorem huffReading_run8 {x : Symbol} (hhi : symHi x ≠ 0) (hlo : symLo x = 0) :
    huffReading x = .sym fun a => .done (.run8 (symHi x) a) := by
  rw [huffReading, if_neg hhi, if_pos hlo]

theorem huffReading_run16 {x : Symbol} (hhi : symHi x ≠ 0) (hlo : symLo x = 1) :
    huffReading x = .sym fun a => .sym fun b => .done (.run16 (symHi x) a b) := by
  rw [huffReading, if_neg hhi, if_neg (by rw [hlo]; decide), if_pos hlo]

/-- A traversal writes no byte of `OUT`. -/
theorem State.out_of_huffSym {s t : State} {r : Option Symbol} (h : s.huffSym = .ok r t) : t.out = s.out := by
  rw [(State.huffSym_took h).only]
  rfl

/-- Settles O31: the reading of `RUN8` and `RUN16` asks for a symbol first (`huffReading_run8`, `huffReading_run16`), so
a missing or raising one ends the call (`step_huff_of_raise`); with all of them there, the step is the instruction's run
(`step_huff_of_ok`, `runAnswers_appendRun`). -/
theorem runExtensionResults : Obligations.RunExtensionResults := by
  intro s s1 x hout hrun hf hsym hhi hlo
  have hfirst : ∃ next, huffReading x = .sym next := by
    rcases hlo with hlo | hlo
    · exact ⟨_, huffReading_run8 hhi hlo⟩
    · exact ⟨_, huffReading_run16 hhi hlo⟩
  obtain ⟨next, hnext⟩ := hfirst
  refine ⟨fun s2 heos => ?_, fun k hk => ?_, fun a s2 ha => ?_⟩
  · exact step_huff_of_raise hrun hf hsym (hnext ▸ State.follow_sym_eos heos)
  · exact step_huff_of_raise hrun hf hsym (hnext ▸ State.follow_sym_raise hk)
  have hout2 : s2.out.wf := by rwa [State.out_of_huffSym ha, State.out_of_huffSym hsym]
  refine ⟨fun h0 => ?_, fun h1 => ?_⟩
  · have hread : s1.follow (huffReading x) = .ok (.run8 (symHi x) a) s2 := by
      rw [huffReading_run8 hhi h0, State.follow_sym_ok ha, State.follow]
    rw [step_huff_of_ok hrun hf hsym hread, exec_run8]
    exact State.runAnswers_appendRun hout2 _
  · have hread : s1.follow (huffReading x) = s2.follow (.sym fun b => .done (.run16 (symHi x) a b)) := by
      rw [huffReading_run16 hhi h1, State.follow_sym_ok ha]
    refine ⟨fun s3 heos => ?_, fun k hk => ?_, fun b s3 hb => ?_⟩
    · exact step_huff_of_raise hrun hf hsym (hread.trans (State.follow_sym_eos heos))
    · exact step_huff_of_raise hrun hf hsym (hread.trans (State.follow_sym_raise hk))
    · have hout3 : s3.out.wf := by rwa [State.out_of_huffSym hb]
      rw [step_huff_of_ok hrun hf hsym (hread.trans (State.follow_sym_ok hb)), exec_run16]
      exact State.runAnswers_appendRun hout3 _

end Sys2Proof.Machine

/-! ### The Huffman route -/

namespace Sys2Proof.Machine

/-- The Huffman route with a size other than zero is `HUFF.INIT` and `HUFF.PARSE_TREE` (43_huffman_rle R230, R231). -/
theorem State.route_huff {size : BitVec 21} (s : State) (h : size ≠ 0) :
    s.route .huff size = (s.setFormat .huff size).huffInit.parseTree.outcome (s.setFormat .huff size) :=
  s.route_of_ne_zero .huff h

/-- Half of a 16-bit byte count is a node count that `nnodes` holds (43_huffman_rle R231). -/
theorem toNat_ofNat_half (v : BitVec 16) : (BitVec.ofNat 15 (v.toNat / 2)).toNat = v.toNat / 2 := by
  rw [BitVec.toNat_ofNat, Nat.mod_eq_of_lt (by omega)]

/-- Settles O41: the route is `HUFF.INIT` and `HUFF.PARSE_TREE` (`route_huff`), whose two answers, the words stored or
`TruncatedStream`, are told apart by the length of the tree section (`parseTree_cases`). -/
theorem huffmanRouteResult : Obligations.HuffmanRouteResult := by
  rintro s b0 type l0 l1 n - hsize rfl
  rw [exec_routeTtfHuff, State.route_huff s hsize]
  rcases (s.setFormat .huff (ttfPayloadSize b0 l0 l1)).huffInit.parseTree_cases with ⟨hlen, hp⟩ | ⟨hlen, hp⟩
  · refine ⟨fun _ => ?_, fun hshort => ?_⟩
    · rw [hp, Res.outcome_ok]
      refine ⟨_, rfl, rfl, rfl, rfl, toNat_ofNat_half _, ?_, fun k hk => ?_, ⟨rfl, rfl⟩, rfl, rfl, rfl, rfl, rfl, rfl,
        rfl, rfl, rfl, rfl, rfl, ⟨rfl, rfl, rfl, rfl, rfl⟩, rfl, rfl, rfl, rfl⟩
      · rw [List.length_map, List.length_range]
        rfl
      · have hnext : s.ipos + 3 + 2 * k = s.ipos + 2 + 2 * k + 1 := by omega
        rw [List.getElem_map, List.getElem_range, hnext]
        rfl
    · change s.ipos + 2 + 2 * ((word16 (s.inByte s.ipos) (s.inByte (s.ipos + 1))).toNat / 2) ≤ s.inLen at hlen
      omega
  · change s.inLen < s.ipos + 2 + 2 * ((word16 (s.inByte s.ipos) (s.inByte (s.ipos + 1))).toNat / 2) at hlen
    refine ⟨fun hfull => absurd hlen (by omega), fun _ => ?_⟩
    rw [hp, Res.outcome_raise]
    exact ⟨_, rfl, rfl, rfl, rfl, rfl, rfl, rfl, rfl⟩

end Sys2Proof.Machine

/-! ### LITERAL and SENTINEL -/

namespace Sys2Proof.Machine

/-- `LITERAL` below `PAYLOAD_SIZE` completes with its byte at `idx`, which advances (44_diet R262). -/
theorem exec_literal_done {s : State} (v : Byte) (hout : s.out.wf) (hidx : s.idx.toNat < s.payloadSize.toNat) :
    ∃ t, exec (.literal v) s = .next t ∧ s.LiteralDone v t := by
  have hexec : exec (.literal v) s = (s.dietPut v).outcome s := rfl
  rw [hexec, State.dietPut_ok v hidx, Res.outcome_ok]
  exact ⟨s.put v, rfl, State.put_idx v hidx, fun a => Memory.read_write hout s.idx.toNat a v, rfl,
    ⟨rfl, rfl, rfl, rfl, rfl, rfl, rfl, rfl⟩, ⟨rfl, rfl, rfl, rfl, rfl, rfl, rfl, rfl, rfl⟩, ⟨rfl, rfl, rfl, rfl, rfl⟩,
    ⟨rfl, rfl⟩, rfl⟩

theorem State.onlyR16_r16Fill (s : State) : s.OnlyR16 s.r16Fill := by
  rw [State.r16Fill_eq]
  split
  · rfl
  · split <;> rfl

/-- From any state, a delivered bit changes `ipos` and the registers of `R16` only (41_bit_readers R159). -/
theorem State.r16Bit_only {s t : State} {b : Bool} (h : s.r16Bit = .ok b t) : s.OnlyR16 t := by
  by_cases hv : s.valid = 0
  · cases (State.r16Bit_pad hv).symm.trans h
  · by_cases hc : s.cnt = 1
    · cases (State.r16Bit_last hv hc).symm.trans h
      exact s.onlyR16_r16Fill
    · cases (State.r16Bit_take hv hc).symm.trans h
      rfl

/-- A step of a DIET call with room in the buffer is the meaning of the token that the readers deliver. -/
theorem step_diet_of_ok {s t : State} {i : Instr} (hrun : s.stState = .run) (hf : s.format = .diet)
    (hidx : s.idx ≠ s.payloadSize) (h : s.follow (dietReading s.cfg) = .ok i t) : step s = exec i t :=
  step_of_execute (by rw [fetch_diet hrun hf, State.fetchDiet, if_neg hidx, h, Res.fetched])

/-- The raw byte that the readers deliver next (41_bit_readers R161). -/
theorem State.takesItem_raw_of_not_exhausted {s : State} (h : s.exhausted = false) :
    s.takesItem (.raw (s.inByte s.ipos)) = some { s with ipos := s.ipos + 1 } :=
  State.takesItem_raw.2 (State.inReadRequired_ok ((State.not_exhausted_iff s).1 h))

/-- Settles O32: the meaning is `exec_literal_done`. As a step, the reading stands at the raw byte once the set bit is
delivered; that bit leaves `OUT` and `idx` alone (`r16Bit_only`), and a missing byte is a token cut short
(`dietStreamTooShortIsTruncated`). -/
theorem literalResult : Obligations.LiteralResult := by
  intro s hout hidx
  refine ⟨fun v => exec_literal_done v hout hidx, fun s1 hrun hf hbit => ?_⟩
  have hne : s.idx ≠ s.payloadSize := fun heq => hidx.ne (congrArg BitVec.toNat heq)
  have htake : s.takesItem (.bit true) = some s1 := State.takesItem_bit.2 hbit
  refine ⟨fun hex => ?_, fun hex => ?_⟩
  · have htakes : s.takes [.bit true] = some s1 := State.takes_cons.2 ⟨s1, htake, rfl⟩
    exact ((dietStreamTooShortIsTruncated s hrun hf hne).1 _ s1 htakes).2 _ rfl hex
  · have htakes : s.takes [.bit true, .raw (s1.inByte s1.ipos)] = some { s1 with ipos := s1.ipos + 1 } :=
      State.takes_cons.2 ⟨s1, htake, State.takes_cons.2 ⟨_, State.takesItem_raw_of_not_exhausted hex, rfl⟩⟩
    rw [step_diet_of_ok hrun hf hne (State.follow_of_takes (r' := .done (.literal _)) htakes rfl)]
    obtain ⟨i, w, c, v, rfl⟩ : ∃ i w c v, s1 = s.withR16 i w c v := ⟨_, _, _, _, State.r16Bit_only hbit⟩
    exact exec_literal_done _ hout hidx

theorem State.resultLen_diet {s : State} (hf : s.format = .diet) : s.resultLen = s.payloadSize.toNat := by
  simp only [State.resultLen, hf]

/-- Settles O35: `SENTINEL` is `FINISH`, the result of a DIET call is the whole buffer, and under the invariant the
buffer lists nothing from `idx` on. -/
theorem sentinelResult : Obligations.SentinelResult := by
  intro s hinv hrun hf
  have hbelow : s.OutBelow s.idx.toNat := ((State.runOk_diet_iff hf).1 (hinv.run hrun)).out
  refine ⟨s.finish, rfl, rfl, s.out.take 0 s.payloadSize.toNat, ?_, Memory.take_length _ _ _, fun k hk _ => ?_,
    fun k hk hidx => ?_⟩
  · rw [State.result_finish, State.resultLen_diet hf]
  · rw [Memory.take_getElem, Nat.zero_add]
  · rw [Memory.take_getElem, Nat.zero_add]
    exact Memory.read_above hbelow hidx

end Sys2Proof.Machine

/-! ### The error kinds and the abort -/

namespace Sys2Proof.Machine

/-- The result of a call that ended in an error is the code in `STATUS.ERR` (00_scope R6). -/
theorem State.result_of_err {s : State} (h : s.stState = .err) : s.result = some (.error s.stErr) := by
  simp only [State.result, h]

/-- The result of an aborted call is the error of its kind (60_exceptions R310). -/
theorem State.Aborted.result_eq {s t : State} {k : ErrKind} (h : s.Aborted k t) : t.result = some (.error k.code) := by
  rw [State.result_of_err h.stState, h.stErr]

/-- Settles O47: each code is the entry of `ErrKind.code` for its kind. -/
theorem errorCodes : Obligations.ErrorCodes := ⟨rfl, rfl, rfl, rfl, rfl, rfl⟩

/-- Settles O48: a step that raises ends in `State.abort`, which leaves `FORMAT` and `PAYLOAD_SIZE` (`aborted_abort`), and
the result is read off the status it leaves. -/
theorem raisedKindEndsTheCall : Obligations.RaisedKindEndsTheCall := fun s k =>
  have haborted : s.Aborted k (s.abort k) := State.aborted_abort k s
  ⟨s.abort k, Res.outcome_raise s k, haborted, haborted.result_eq⟩

end Sys2Proof.Machine

/-! ### An overlapping copy -/

namespace Sys2Proof.Machine

/-- A memory that repeats itself at distance `back` from `start` on holds there the `back` bytes before `start`, again and
again: going `back` bytes down does not change the place in the pattern (20_memory R75). -/
theorem Memory.read_repeats {m : Memory} {start back count : Nat} (hpos : 1 ≤ back) (hback : back ≤ start)
    (hrec : ∀ k, k < count → m.read (start + k) = m.read (start - back + k)) {k : Nat} (hk : k < count) :
    m.read (start + k) = m.read (start - back + k % back) := by
  induction k using Nat.strongRecOn with
  | ind k ih =>
    by_cases hlt : k < back
    · rw [hrec k hk, Nat.mod_eq_of_lt hlt]
    · have hge : back ≤ k := Nat.le_of_not_lt hlt
      have hdown : start - back + k = start + (k - back) := by omega
      rw [hrec k hk, hdown, ih (k - back) (by omega) (by omega), Nat.mod_eq_sub_mod hge]

/-- Bytes copied from `back` places before the cursor are the `back` bytes that stood there before the copy, again and
again (70_reset R343). -/
theorem State.copyBytes_repeats {s : State} {back count k : Nat} (hout : s.out.wf) (hpos : 1 ≤ back)
    (hback : back ≤ s.idx.toNat) (hroom : s.idx.toNat + count ≤ s.payloadSize.toNat) (hk : k < count) :
    (s.copyBytes count (s.idx.toNat - back)).out.read (s.idx.toNat + k) =
      s.out.read (s.idx.toNat - back + k % back) := by
  obtain ⟨-, -, -, hkept, hcopied, -⟩ := State.copyBytes_spec hout count (s.idx.toNat - back) (by omega) hroom
  have hmod : k % back < back := Nat.mod_lt k hpos
  rw [Memory.read_repeats hpos hback hcopied hk, hkept _ (.inl (by omega))]

/-- Settles O34: the source index is `idx - back` and there is room for every byte, so the copy is `copyBytes`, each of
whose bytes is the byte `back` places before it (`copyBytes_repeats`). -/
theorem overlappingCopyRepeatsThePattern : Obligations.OverlappingCopyRepeatsThePattern := by
  intro s back count hout hidx hpos hback hroom
  have hsrc : ((s.idx.toNat : Int) + -(back : Int)).toNat = s.idx.toNat - back := by omega
  have hcount : min count (s.payloadSize.toNat - s.idx.toNat) = count := by omega
  have hcopy := State.dietCopy_ok (offset := -(back : Int)) count hidx (by omega) (by omega)
  rw [hsrc, hcount] at hcopy
  obtain ⟨-, hlast, -⟩ := State.copyBytes_spec hout count (s.idx.toNat - back) (by omega) hroom
  exact ⟨_, hcopy, hlast, fun k hk => State.copyBytes_repeats hout hpos hback hroom hk⟩

end Sys2Proof.Machine

/-! ### Reading a code and a DIET token along a list of items -/

namespace Sys2Proof

open Machine

/-- The bits of a leaf lead the reading of a code to that leaf (30_encoding R103, R104). -/
theorem BitTree.reading_parse {α : Type} {tree : BitTree α} {bits : List Bool} {a : α} (h : leafAt bits tree = some a)
    (next : α → Reading) (rest : List Item) :
    (tree.reading next).parse (bits.map .bit ++ rest) = (next a).parse rest := by
  induction bits generalizing tree with
  | nil =>
    cases tree with
    | leaf b => cases h; rfl
    | bit zero one => cases h
  | cons b bits ih =>
    cases tree with
    | leaf c => cases h
    | bit zero one => cases b <;> exact ih h

/-- The path of a code to the first leaf a test accepts ends in such a leaf. -/
theorem BitTree.leafAt_path {α : Type} {ok : α → Bool} {tree : BitTree α} {bits : List Bool} {a : α}
    (h : tree.path ok = some (bits, a)) : leafAt bits tree = some a ∧ ok a = true := by
  induction tree generalizing bits with
  | leaf b =>
    rw [BitTree.path] at h
    split at h
    · next hok => cases h; exact ⟨rfl, hok⟩
    · cases h
  | bit zero one hz ho =>
    rw [BitTree.path] at h
    split at h
    · next hpath => cases h; exact hz hpath
    · split at h
      · next hpath => cases h; exact ho hpath
      · cases h

/-- A code with a leaf that a test accepts has a path to one. -/
theorem BitTree.exists_path {α : Type} {ok : α → Bool} {tree : BitTree α} (h : ∃ a ∈ tree.leaves, ok a = true) :
    ∃ bits a, tree.path ok = some (bits, a) := by
  induction tree with
  | leaf b =>
    obtain ⟨a, ha, hok⟩ := h
    cases List.mem_singleton.1 ha
    exact ⟨[], b, if_pos hok⟩
  | bit zero one hz ho =>
    rw [BitTree.path]
    cases hzero : zero.path ok with
    | some p => exact ⟨_, _, rfl⟩
    | none =>
      obtain ⟨a, ha, hok⟩ := h
      rcases List.mem_append.1 ha with ha | ha
      · obtain ⟨bits, b, hp⟩ := hz ⟨a, ha, hok⟩
        cases hzero.symm.trans hp
      · obtain ⟨bits, b, hp⟩ := ho ⟨a, ha, hok⟩
        exact ⟨true :: bits, b, by simp only [hp]⟩

/-- Three bits are read most significant first (41_bit_readers R160). -/
theorem readingBits3_parse (t : BitVec 3) (next : BitVec 3 → Reading) (rest : List Item) :
    (readingBits3 next).parse (.bit (t.getLsbD 2) :: .bit (t.getLsbD 1) :: .bit (t.getLsbD 0) :: rest) =
      (next t).parse rest := by
  have hbits : BitVec.ofBool (t.getLsbD 2) ++ BitVec.ofBool (t.getLsbD 1) ++ BitVec.ofBool (t.getLsbD 0) = t := by
    revert t; decide
  exact congrArg (fun v => (next v).parse rest) hbits

theorem decode_diet {x : Ctx} (hx : x.format = .diet) (items : List Item) :
    decode x items = (dietReading x.cfg).parse items := by
  simp only [decode, hx]

/-- A back-reference with selector bit 1 is the long form (44_diet R263). -/
theorem decode_long {x : Ctx} (hx : x.format = .diet) (lo : Byte) (items : List Item) :
    decode x (.bit false :: .raw lo :: .bit true :: items) = (longReading x.cfg lo).parse items :=
  decode_diet hx _

/-- The long form: the bits of its offset high byte, then those of its count (44_diet R267). -/
theorem longReading_parse {cfg : Cfg} {lo hi : Byte} {p q : List Bool} {leaf : CountLeaf}
    (hp : leafAt p cfg.longOffsetHi = some hi) (hq : leafAt q cfg.longCount = some leaf) (items : List Item) :
    (longReading cfg lo).parse (p.map .bit ++ (q.map .bit ++ items)) =
      (countReading (fun n => .done (.long lo hi n)) leaf).parse items := by
  rw [longReading, BitTree.reading_parse hp, BitTree.reading_parse hq]

/-- Settles O6: each fixed form is one branch of `dietReading`; in the long form the two codes are read to the leaves that
their bits lead to (`longReading_parse`). -/
theorem dietTokenFormats : Obligations.DietTokenFormats := by
  intro x lo v t rest hx
  refine ⟨decode_diet hx _, fun hlo => ?_, decode_diet hx _, ?_, fun p q hi hp => ⟨fun n hq => ?_, fun base hq => ?_⟩⟩
  · rw [decode_diet hx]
    show Reading.parse (if lo = 0xFF then .done .sentinel else .done (.short lo)) rest = _
    rw [if_neg hlo]
    rfl
  · rw [decode_diet hx]
    exact readingBits3_parse t (fun t => .done (.shortx lo t)) rest
  · have hlong := longReading_parse (lo := lo) hp hq rest
    simp only [List.append_assoc]
    exact (decode_long hx lo _).trans hlong
  · have hlong := longReading_parse (lo := lo) hp hq (.raw v :: rest)
    simp only [List.append_assoc]
    exact (decode_long hx lo _).trans hlong

/-- Settles O8: the bits of each class lead to its leaf of the default count code (`dietTokenFormats`), and the offset bits
`1 1` to `0xFF`. -/
theorem longCountTable : Obligations.LongCountTable := by
  refine ⟨fun _ => rfl, ?_⟩
  intro x lo v rest hx hcfg
  obtain ⟨-, -, -, -, hlong⟩ := dietTokenFormats x lo v 0 rest hx
  have hoff : leafAt [true, true] x.cfg.longOffsetHi = some 0xFF := by rw [hcfg]; rfl
  have hexact := fun q => (hlong [true, true] q 0xFF hoff).1
  have hraw := fun q => (hlong [true, true] q 0xFF hoff).2
  rw [hcfg] at hexact hraw
  refine ⟨hexact [true] 1 rfl, hexact [false, true] 2 rfl, hexact [false, false, true] 3 rfl,
    hexact [false, false, false, true] 4 rfl, fun b => ?_, fun t2 t1 t0 => ?_,
    hraw [false, false, false, false, false, true] 15 rfl⟩
  · exact hexact [false, false, false, false, true, b] (5 + b.toNat) (by revert b; decide)
  · exact hexact [false, false, false, false, false, false, t2, t1, t0]
      (7 + (4 * t2.toNat + 2 * t1.toNat + t0.toNat)) (by revert t2 t1 t0; decide)

/-- Settles O9: the bits of each result lead to its leaf of the default offset code, for every value of the data bits. -/
theorem longOffsetTable : Obligations.LongOffsetTable := by
  intro x lo a b c d rest hx hcfg
  have hlong : ∀ p hi, leafAt p longOffsetHiDefault = some hi →
      decode x ([.bit false, .raw lo, .bit true] ++ p.map .bit ++ [.bit true] ++ rest) = .ok (.long lo hi 1, rest) := by
    intro p hi hp
    obtain ⟨-, -, -, -, hlong⟩ := dietTokenFormats x lo 0 0 rest hx
    rw [hcfg] at hlong
    exact (hlong p [true] hi hp).1 1 rfl
  refine ⟨hlong [a, true] _ ?_, hlong [a, false, true] _ ?_, hlong [a, false, false, b, true] _ ?_,
    hlong [a, false, false, b, false, c, true] _ ?_, hlong [a, false, false, b, false, c, false, d] _ ?_⟩
  · revert a; decide
  · revert a; decide
  · revert a b; decide
  · revert a b c; decide
  · revert a b c d; decide

end Sys2Proof

/-! ### Encoding and decoding are inverse -/

namespace Sys2Proof

open Machine

theorem decode_lzw {x : Ctx} (hx : x.format = .lzw) (c : Code) (rest : List Item) :
    decode x (.cw c :: rest) = .ok (decodeLzw x c, rest) := by
  simp only [decode, hx]

/-- A byte that became a code is the byte again. -/
theorem setWidth_byte_code (b : Byte) : (b.setWidth 12).setWidth 8 = b := by simp

/-- A code of a byte becomes the code again. -/
theorem setWidth_code_byte {c : Code} (h : c.toNat ≤ 0xFF) : (c.setWidth 8).setWidth 12 = c := by
  apply BitVec.eq_of_toNat_eq
  simp
  omega

/-- An LZW instruction is well formed where its operands are ones of the context. -/
theorem Instr.wellFormed_iff {x : Ctx} {i : Instr} :
    i.wellFormed x = true ↔ i.format = x.format ∧ i.operandsOk x = true := by
  simp [Instr.wellFormed]

/-- Every code is a sentinel code, a byte, or `DICT_INIT` or above (30_encoding R92). -/
theorem code_cases (altLzw : Bool) (c : Code) :
    c = endCode altLzw ∨ c = clearCode altLzw ∨ c.toNat ≤ 0xFF ∨ dictInit ≤ c.toNat := by
  have hnat : c.toNat = 0x100 ∨ c.toNat = 0x101 ∨ c.toNat ≤ 0xFF ∨ dictInit ≤ c.toNat := by
    simp only [dictInit]
    omega
  rcases hnat with h | h | h | h
  · have hc : c = 0x100 := BitVec.eq_of_toNat_eq h
    cases altLzw <;> simp [hc, endCode, clearCode]
  · have hc : c = 0x101 := BitVec.eq_of_toNat_eq h
    cases altLzw <;> simp [hc, endCode, clearCode]
  · exact .inr (.inr (.inl h))
  · exact .inr (.inr (.inr h))

/-- Settles O3: by the place of the value: the two sentinel codes, the bytes, and from `DICT_INIT` on the codes below, at
and above `dictsize`. -/
theorem everyCodewordHasOneMeaning : Obligations.EveryCodewordHasOneMeaning := by
  intro x c hx
  simp only [Instr.wellFormed_iff, hx]
  rcases code_cases x.cfg.altLzw c with rfl | rfl | hbyte | hinit
  · rw [decodeLzw_endCode]
    cases halt : x.cfg.altLzw <;> exact ⟨⟨rfl, by simp [Instr.operandsOk, halt]⟩, rfl⟩
  · rw [decodeLzw_clearCode]
    cases halt : x.cfg.altLzw <;> exact ⟨⟨rfl, by simp [Instr.operandsOk, halt]⟩, rfl⟩
  · rw [decodeLzw_byte x hbyte]
    exact ⟨⟨rfl, rfl⟩, by rw [encode, setWidth_code_byte hbyte]⟩
  · rw [decodeLzw_of_dictInit_le x hinit]
    split
    · next hlt => exact ⟨⟨rfl, x.isLearned_iff.2 ⟨hinit, hlt⟩⟩, rfl⟩
    · next hlearned =>
      have hnot : x.isLearned c = false := by simpa [Ctx.isLearned] using fun _ => Nat.not_lt.1 hlearned
      split
      · next hnext => exact ⟨⟨rfl, by simp [Instr.operandsOk, hinit, x.isNextCode_iff.2 hnext]⟩, rfl⟩
      · next hnext =>
        have hnot' : x.isNextCode c = false := Bool.eq_false_iff.2 (mt x.isNextCode_iff.1 hnext)
        exact ⟨⟨rfl, by simp [Instr.operandsOk, hinit, hnot, hnot']⟩, rfl⟩

/-- The items of a long form are decoded to it: the paths of its two codes lead to leaves that stand for its offset high
byte and its count (30_encoding R103, R104). -/
theorem decode_encode_long {x : Ctx} {lo hi : Byte} {n : Nat} (rest : List Item) (hx : x.format = .diet)
    (hhi : hi ∈ x.cfg.longOffsetHi.leaves) (hn : ∃ leaf ∈ x.cfg.longCount.leaves, leaf.covers n = true) :
    decode x (encode x (.long lo hi n) ++ rest) = .ok (.long lo hi n, rest) := by
  obtain ⟨p, hi', hp⟩ := BitTree.exists_path (ok := (· == hi)) ⟨hi, hhi, beq_self_eq_true hi⟩
  obtain ⟨hpleaf, heq⟩ := BitTree.leafAt_path hp
  obtain ⟨q, leaf, hq⟩ := BitTree.exists_path hn
  obtain ⟨hqleaf, hcover⟩ := BitTree.leafAt_path hq
  cases eq_of_beq heq
  have henc : encode x (.long lo hi n) ++ rest =
      .bit false :: .raw lo :: .bit true :: (p.map .bit ++ (q.map .bit ++ (encodeCountRaw n leaf ++ rest))) := by
    simp [encode, encodeOffsetHi, encodeCount, hp, hq]
  rw [henc, decode_long hx, longReading_parse hpleaf hqleaf]
  cases leaf with
  | exact m => cases eq_of_beq hcover; rfl
  | rawPlus base =>
    obtain ⟨hbase, hlt⟩ : base ≤ n ∧ n < base + 256 := by simpa [CountLeaf.covers] using hcover
    have hsum : base + (BitVec.ofNat 8 (n - base)).toNat = n := by
      rw [BitVec.toNat_ofNat, Nat.mod_eq_of_lt (by omega)]
      omega
    show Except.ok (Instr.long lo hi (base + (BitVec.ofNat 8 (n - base)).toNat), rest) = _
    rw [hsum]

/-- A DIET header is decoded whatever `DIET_PAYLOAD_OFFSET` is: the bytes before its size fields are discarded once
`PEEK` has found the signature (40_dispatcher R131, R132). -/
theorem decode_dietHeader {x : Ctx} {b0 b1 h l0 l1 : Byte} {skipped tail : List Byte} (hx : x.format = .none)
    (hlen : skipped.length = x.cfg.dietSkip) (hbytes : skipped ++ [h, l0, l1] = b0 :: b1 :: tail)
    (hsig : x.isDietSig b0 b1 = true) (rest : List Item) :
    decode x ((skipped ++ [h, l0, l1]).map .raw ++ rest) = .ok (.routeDiet h l0 l1, rest) := by
  have hpeek : decode x ((skipped ++ [h, l0, l1]).map .raw ++ rest) =
      (dietHeaderReading x.cfg).parse ((skipped ++ [h, l0, l1]).map .raw ++ rest) := by
    have hread : headerReading x b0 b1 = dietHeaderReading x.cfg := if_pos hsig
    rw [hbytes, ← hread]
    exact decode_none hx b0 b1 _
  rw [hpeek, dietHeaderReading, ← hlen, List.map_append, List.append_assoc, skipRaw_parse]
  rfl

/-- The two bytes of the signature, the low one first, are read as the signature (40_dispatcher R131). -/
theorem Ctx.isDietSig_bytes (x : Ctx) :
    x.isDietSig (x.cfg.dietSig.extractLsb' 0 8) (x.cfg.dietSig.extractLsb' 8 8) = true :=
  (x.isDietSig_iff _ _).2 (BitVec.extractLsb'_append_extractLsb'_eq_extractLsb' (by decide) |>.trans (by simp))

/-- The header bytes of a DIET route are decoded to it: the first two are the signature, of which the size fields are a
part where fewer than two bytes stand before them (30_encoding R95). -/
theorem decode_encode_routeDiet {x : Ctx} {h l0 l1 : Byte} (hx : x.format = .none) (hfits : x.dietSizeFits h l0 = true)
    (rest : List Item) : decode x (encode x (.routeDiet h l0 l1) ++ rest) = .ok (.routeDiet h l0 l1, rest) := by
  rw [encode]
  unfold Ctx.dietSizeFits at hfits
  rcases hskip : x.cfg.dietSkip with _ | _ | n <;> simp only [hskip] at hfits
  · exact decode_dietHeader (skipped := []) hx hskip.symm rfl hfits rest
  · exact decode_dietHeader (skipped := [x.cfg.dietSig.extractLsb' 0 8]) hx hskip.symm rfl hfits rest
  · exact decode_dietHeader hx (by simp [hskip]; omega) rfl x.isDietSig_bytes rest

/-- A TTF header is decoded by its type byte (40_dispatcher R133). -/
theorem decode_ttfHeader {x : Ctx} {b0 type : Byte} (hx : x.format = .none) (hsig : x.isDietSig b0 type = false)
    (l0 l1 : Byte) (rest : List Item) :
    decode x (.raw b0 :: .raw type :: .raw l0 :: .raw l1 :: rest) =
      .ok (if type = 0x10 then .routeTtfLzw b0 l0 l1 else .routeTtfHuff b0 type l0 l1, rest) :=
  (containerHeaders x b0 type 0 l0 l1 [] [] rest hx).1 fun heq => by simp [(x.isDietSig_iff b0 type).2 heq] at hsig

section RoundTrip
variable {x : Ctx} {i : Instr} (hi : i.format = x.format) (hok : i.operandsOk x = true) (rest : List Item)
include hi hok

/-- An LZW instruction is decoded from its codeword, line by line of 30_encoding R92. -/
theorem decode_encode_lzw (hx : x.format = .lzw) : decode x (encode x i ++ rest) = .ok (i, rest) := by
  have hword : ∀ c j, encode x i = [.cw c] → decodeLzw x c = j → decode x (encode x i ++ rest) = .ok (j, rest) := by
    intro c j henc hdec
    rw [henc, ← hdec]
    exact decode_lzw hx c rest
  have hend := decodeLzw_endCode x
  have hclear := decodeLzw_clearCode x
  cases i with
  | lit b =>
    have hbyte : (b.setWidth 12).toNat ≤ 0xFF := by simp; omega
    exact hword _ _ rfl ((decodeLzw_byte x hbyte).trans (by rw [setWidth_byte_code]))
  | clear =>
    have halt : x.cfg.altLzw = false := by simpa [Instr.operandsOk] using hok
    rw [halt] at hclear
    exact hword _ _ rfl hclear
  | endLzw =>
    have halt : x.cfg.altLzw = false := by simpa [Instr.operandsOk] using hok
    rw [halt] at hend
    exact hword _ _ rfl hend
  | clearAlt =>
    have halt : x.cfg.altLzw = true := hok
    rw [halt] at hclear
    exact hword _ _ rfl hclear
  | endLzwAlt =>
    have halt : x.cfg.altLzw = true := hok
    rw [halt] at hend
    exact hword _ _ rfl hend
  | ref c =>
    obtain ⟨hinit, hlt⟩ := x.isLearned_iff.1 hok
    exact hword _ _ rfl ((decodeLzw_of_dictInit_le x hinit).trans (if_pos hlt))
  | kwkwk c =>
    obtain ⟨hinit, hnext⟩ : dictInit ≤ c.toNat ∧ x.isNextCode c = true := by simpa [Instr.operandsOk] using hok
    have hnext := x.isNextCode_iff.1 hnext
    exact hword _ _ rfl
      ((decodeLzw_of_dictInit_le x hinit).trans ((if_neg hnext.1.not_lt).trans (if_pos hnext)))
  | illegal c =>
    obtain ⟨⟨hinit, hlearned⟩, hnext⟩ :
        (dictInit ≤ c.toNat ∧ x.isLearned c = false) ∧ x.isNextCode c = false := by
      simpa [Instr.operandsOk] using hok
    have hge : ¬ c.toNat < x.dictsize.toNat := fun hlt => by simp [x.isLearned_iff.2 ⟨hinit, hlt⟩] at hlearned
    have hne := mt x.isNextCode_iff.2 (Bool.eq_false_iff.1 hnext)
    exact hword _ _ rfl ((decodeLzw_of_dictInit_le x hinit).trans ((if_neg hge).trans (if_neg hne)))
  | _ => cases hi.trans hx

/-- A Huffman instruction is decoded from its symbols, line by line of 30_encoding R101. -/
theorem decode_encode_huff (hx : x.format = .huff) : decode x (encode x i ++ rest) = .ok (i, rest) := by
  cases i with
  | litsym b => exact (huffmanOpcodeMap x 0 b 0 0 rest hx).1 rfl
  | run h n =>
    obtain ⟨hh, hn⟩ : h ≠ 0 ∧ 2 ≤ n.toNat := by simpa [Instr.operandsOk] using hok
    exact ((huffmanOpcodeMap x h n 0 0 rest hx).2.1 hh hn).1
  | run8 h a =>
    have hh : h ≠ 0 := by simpa [Instr.operandsOk] using hok
    exact ((huffmanOpcodeMap x h 0 a 0 rest hx).2.2.1 hh rfl).1
  | run16 h a b =>
    have hh : h ≠ 0 := by simpa [Instr.operandsOk] using hok
    exact ((huffmanOpcodeMap x h 1 a b rest hx).2.2.2 hh rfl).1
  | _ => cases hi.trans hx

/-- A DIET token is decoded from its bits and raw bytes (30_encoding R102). -/
theorem decode_encode_diet (hx : x.format = .diet) : decode x (encode x i ++ rest) = .ok (i, rest) := by
  cases i with
  | literal v => exact (dietTokenFormats x 0 v 0 rest hx).1
  | short lo =>
    have hlo : lo ≠ 0xFF := by simpa [Instr.operandsOk] using hok
    exact (dietTokenFormats x lo 0 0 rest hx).2.1 hlo
  | sentinel => exact (dietTokenFormats x 0 0 0 rest hx).2.2.1
  | shortx lo t => exact (dietTokenFormats x lo 0 t rest hx).2.2.2.1
  | long lo hi n =>
    obtain ⟨hhi, hn⟩ := Bool.and_eq_true_iff.1 hok
    exact decode_encode_long rest hx (by simpa using hhi) (List.any_eq_true.1 hn)
  | _ => cases hi.trans hx

/-- A container route is decoded from its header bytes (30_encoding R94, R95). -/
theorem decode_encode_route (hx : x.format = .none) : decode x (encode x i ++ rest) = .ok (i, rest) := by
  cases i with
  | routeDiet h l0 l1 => exact decode_encode_routeDiet hx hok rest
  | routeTtfLzw b0 l0 l1 =>
    have hsig : x.isDietSig b0 0x10 = false := by simpa [Instr.operandsOk] using hok
    exact decode_ttfHeader hx hsig l0 l1 rest
  | routeTtfHuff b0 type l0 l1 =>
    obtain ⟨htype, hsig⟩ : type ≠ 0x10 ∧ x.isDietSig b0 type = false := by simpa [Instr.operandsOk] using hok
    exact (decode_ttfHeader hx hsig l0 l1 rest).trans (by rw [if_neg htype])
  | _ => cases hi.trans hx

end RoundTrip

/-- Settles O2: format by format, since a well-formed instruction belongs to the context's format. -/
theorem decodeOfEncodeIsTheInstruction : Obligations.DecodeOfEncodeIsTheInstruction := by
  intro x i rest h
  obtain ⟨hi, hok⟩ := Instr.wellFormed_iff.1 h
  cases hx : x.format with
  | none => exact decode_encode_route hi hok rest hx
  | lzw => exact decode_encode_lzw hi hok rest hx
  | huff => exact decode_encode_huff hi hok rest hx
  | diet => exact decode_encode_diet hi hok rest hx

end Sys2Proof

/-! ### Fetched instructions: they are well formed, and a step runs what the decoder reads -/

namespace Sys2Proof

open Machine

/-- Every instruction a Huffman symbol can start is well formed (30_encoding R101). -/
theorem huffReading_wellFormed {x : Ctx} (hx : x.format = .huff) (a : Symbol) :
    (huffReading a).yields fun i => i.wellFormed x = true := by
  simp only [Instr.wellFormed_iff, hx]
  by_cases hhi : symHi a = 0
  · rw [huffReading, if_pos hhi]
    exact ⟨rfl, rfl⟩
  · by_cases h0 : symLo a = 0
    · rw [huffReading_run8 hhi h0]
      exact fun b => ⟨rfl, by simpa [Instr.operandsOk] using hhi⟩
    · by_cases h1 : symLo a = 1
      · rw [huffReading_run16 hhi h1]
        exact fun b c => ⟨rfl, by simpa [Instr.operandsOk] using hhi⟩
      · rw [huffReading, if_neg hhi, if_neg h0, if_neg h1]
        have hcount : 2 ≤ (symLo a).toNat := by bv_omega
        exact ⟨rfl, by simpa [Instr.operandsOk, hcount] using hhi⟩

/-- A long form ends in leaves of its two codes, so it is well formed (30_encoding R103, R104). -/
theorem longReading_wellFormed {x : Ctx} (hx : x.format = .diet) (lo : Byte) :
    (longReading x.cfg lo).yields fun i => i.wellFormed x = true := by
  simp only [Instr.wellFormed_iff, hx]
  refine BitTree.reading_yields _ fun hi hhi => BitTree.reading_yields _ fun leaf hleaf => ?_
  have hcovers : ∀ n, leaf.covers n = true → (Instr.long lo hi n).operandsOk x = true := fun n hn =>
    Bool.and_eq_true_iff.2 ⟨by simpa using hhi, List.any_eq_true.2 ⟨leaf, hleaf, hn⟩⟩
  cases leaf with
  | exact n => exact ⟨rfl, hcovers n (beq_self_eq_true n)⟩
  | rawPlus base => exact fun v => ⟨rfl, hcovers _ (by simp [CountLeaf.covers]; omega)⟩

/-- Every instruction a DIET token can stand for is well formed (30_encoding R102). -/
theorem dietReading_wellFormed {x : Ctx} (hx : x.format = .diet) :
    (dietReading x.cfg).yields fun i => i.wellFormed x = true := by
  have hfixed : ∀ i : Instr, i.format = .diet → i.operandsOk x = true → i.wellFormed x = true := fun i hi hok =>
    Instr.wellFormed_iff.2 ⟨hi.trans hx.symm, hok⟩
  intro b
  cases b with
  | true => exact fun v => hfixed _ rfl rfl
  | false =>
    intro lo sel
    cases sel with
    | true => exact longReading_wellFormed hx lo
    | false =>
      intro c
      cases c with
      | true => exact fun _ _ _ => hfixed _ rfl rfl
      | false =>
        show Reading.yields _ (if lo = 0xFF then _ else _)
        split
        · exact hfixed _ rfl rfl
        · next hlo => exact hfixed _ rfl (by simpa [Instr.operandsOk] using hlo)

end Sys2Proof

namespace Sys2Proof.Machine

/-- A raw byte that the readers have delivered was the next one of `IN` (41_bit_readers R161). -/
theorem State.follow_raw_eq_ok {next : Byte → Reading} {s t : State} {i : Instr} (h : s.follow (.raw next) = .ok i t) :
    ({ s with ipos := s.ipos + 1 } : State).follow (next (s.inByte s.ipos)) = .ok i t := by
  obtain ⟨v, u, hraw, hrest⟩ := Res.bind_eq_ok.1 h
  obtain ⟨rfl, rfl, -⟩ := State.r16Raw_ok hraw
  exact hrest

/-- The bytes before the size fields of a DIET header are fetched and discarded (40_dispatcher R132). -/
theorem State.follow_skipRaw_eq_ok {n : Nat} {next : Reading} {s t : State} {i : Instr}
    (h : s.follow (skipRaw n next) = .ok i t) :
    ({ s with ipos := s.ipos + n } : State).follow next = .ok i t := by
  induction n generalizing s with
  | zero => exact h
  | succ n ih =>
    have hrest := ih (State.follow_raw_eq_ok h)
    rwa [show ({ s with ipos := s.ipos + 1 } : State).ipos + n = s.ipos + (n + 1) from Nat.add_right_comm ..] at hrest

/-- The route that a DIET header gives carries the three bytes behind the discarded ones (30_encoding R95). -/
theorem State.follow_dietHeader {s t : State} {i : Instr} (h : s.follow (dietHeaderReading s.cfg) = .ok i t) :
    i = .routeDiet (s.inByte (s.ipos + s.cfg.dietSkip)) (s.inByte (s.ipos + s.cfg.dietSkip + 1))
      (s.inByte (s.ipos + s.cfg.dietSkip + 2)) := by
  have hsize := State.follow_raw_eq_ok (State.follow_raw_eq_ok (State.follow_raw_eq_ok (State.follow_skipRaw_eq_ok h)))
  cases hsize
  rfl

/-- The route that a TTF header gives carries its four bytes (30_encoding R94). -/
theorem State.follow_ttfHeader {s t : State} {i : Instr} (h : s.follow ttfHeaderReading = .ok i t) :
    i = if s.inByte (s.ipos + 1) = 0x10 then
        .routeTtfLzw (s.inByte s.ipos) (s.inByte (s.ipos + 2)) (s.inByte (s.ipos + 3))
      else .routeTtfHuff (s.inByte s.ipos) (s.inByte (s.ipos + 1)) (s.inByte (s.ipos + 2)) (s.inByte (s.ipos + 3)) := by
  have hbytes := State.follow_raw_eq_ok (State.follow_raw_eq_ok (State.follow_raw_eq_ok (State.follow_raw_eq_ok h)))
  cases hbytes
  rfl

/-- What a header parse from the front of `IN` gives is well formed: `PEEK` has compared the same first two bytes
(40_dispatcher R131). -/
theorem State.follow_header_wellFormed {s t : State} {i : Instr} (hf : s.format = .none) (hi : s.ipos = 0)
    (h : s.follow (headerReading s.ctx (s.inByte 0) (s.inByte 1)) = .ok i t) : i.wellFormed s.ctx = true := by
  have hctx : s.ctx.format = .none := hf
  rw [Instr.wellFormed_iff, hctx]
  unfold headerReading at h
  split at h
  · next hsig =>
    rw [State.follow_dietHeader h, hi]
    refine ⟨rfl, ?_⟩
    have hlow : s.ctx.cfg.dietSig.extractLsb' 0 8 = s.inByte 0 := by
      rw [← (s.ctx.isDietSig_iff _ _).1 hsig]
      exact BitVec.extractLsb'_append_eq_right
    rcases hskip : s.cfg.dietSkip with _ | _ | n <;>
      simp only [Instr.operandsOk, Ctx.dietSizeFits, show s.ctx.cfg.dietSkip = _ from hskip]
    · exact hsig
    · simpa only [hlow] using hsig
  · next hsig =>
    rw [State.follow_ttfHeader h, hi]
    split
    · next htype => exact ⟨rfl, by simpa [Instr.operandsOk, htype] using hsig⟩
    · next htype => exact ⟨rfl, by simpa [Instr.operandsOk] using And.intro htype hsig⟩

/-- What a fetch gives is what the reading has given. -/
theorem Res.fetched_eq_execute {s t : State} {r : Res Instr} {i : Instr} (h : r.fetched s = .execute i t) :
    r = .ok i t := by
  cases r with
  | ok j u => cases h; rfl
  | raise k => cases h
  | fault f => cases h

/-- Settles O13: a codeword's instruction is well formed (`everyCodewordHasOneMeaning`), and so is every instruction that
the reading of a symbol, a token or a header can end in. -/
theorem fetchedInstructionsAreWellFormed : Obligations.FetchedInstructionsAreWellFormed := by
  intro s t i hinv hrun hfetch
  cases hf : s.format with
  | none =>
    have hzero := ((State.runOk_none_iff hf).1 (hinv.run hrun)).2.1
    rw [fetch_none hrun hf] at hfetch
    rcases s.fetchHeader_cases with ⟨k, hk⟩ | ⟨-, hk⟩ <;> rw [hk] at hfetch
    · cases hfetch
    · exact State.follow_header_wellFormed hf hzero (Res.fetched_eq_execute hfetch)
  | lzw =>
    rw [fetch_lzw hrun hf] at hfetch
    obtain ⟨cw, u, -, hdec⟩ := Res.bind_eq_ok.1 (Res.fetched_eq_execute hfetch)
    cases hdec
    exact (everyCodewordHasOneMeaning s.ctx cw hf).1
  | huff =>
    rw [fetch_huff hrun hf, State.fetchHuff] at hfetch
    split at hfetch
    · cases hfetch
    · exact State.follow_yields (huffReading_wellFormed hf _) (Res.fetched_eq_execute hfetch)
    · cases hfetch
    · cases hfetch
  | diet =>
    rw [fetch_diet hrun hf, State.fetchDiet] at hfetch
    split at hfetch
    · cases hfetch
    · exact State.follow_yields (dietReading_wellFormed (x := s.ctx) hf) (Res.fetched_eq_execute hfetch)

/-- Items that parse as one instruction lead its reading to the end. -/
theorem readingAfter_of_parse {r : Reading} {items : List Item} {i : Instr} (h : r.parse items = .ok (i, [])) :
    readingAfter items r = some (.done i) := by
  induction r, items using Reading.parse.induct with
  | case1 j items => cases h; rfl
  | case2 next b items ih => exact ih h
  | case3 next v items ih => exact ih h
  | case4 next a items ih => exact ih h
  | case5 => cases h
  | case6 => cases h
  | case7 => cases h
  | case8 next item items hne => rw [Reading.parse] at h; cases h; exact hne
  | case9 next item items hne => rw [Reading.parse] at h; cases h; exact hne
  | case10 next item items hne => rw [Reading.parse] at h; cases h; exact hne

/-- Once the readers have delivered items that parse as one instruction, following its reading gives that instruction. -/
theorem State.follow_of_parse {r : Reading} {items : List Item} {s t : State} {i : Instr}
    (h : r.parse items = .ok (i, [])) (ht : s.takes items = some t) : s.follow r = .ok i t :=
  State.follow_of_takes ht (readingAfter_of_parse h)

/-- A header reading that has been followed to its end has found all its bytes in `IN`. -/
theorem State.inLen_of_follow_onlyRaw {r : Reading} {n : Nat} {s t : State} {i : Instr} (hr : r.onlyRaw n)
    (h : s.follow r = .ok i t) (hi : s.ipos ≤ s.inLen) : s.ipos + n ≤ s.inLen := by
  induction n generalizing r s with
  | zero => exact hi
  | succ n ih =>
    cases r with
    | done j => exact absurd hr (by simp [Reading.onlyRaw])
    | bit next => exact hr.elim
    | raw next =>
      obtain ⟨v, u, hraw, hrest⟩ := Res.bind_eq_ok.1 h
      obtain ⟨rfl, rfl, hlt⟩ := State.r16Raw_ok hraw
      have hlen : s.ipos + 1 + n ≤ s.inLen := ih (hr _) hrest hlt
      omega
    | sym next => exact hr.elim

theorem State.takesItem_cw {s t : State} {c : Code} :
    s.takesItem (.cw c) = some t ↔ s.r24GetCw s.nbit.toNat = .ok c t := by
  cases h : s.r24GetCw s.nbit.toNat <;> simp [State.takesItem, h]

/-- The first two bytes that the readers deliver are those that `PEEK` sees (40_dispatcher R131). -/
theorem State.peek_of_takes {s t : State} {b0 b1 : Byte} {rest : List Item} (hi : s.ipos = 0)
    (h : s.takes (.raw b0 :: .raw b1 :: rest) = some t) : b0 = s.inByte 0 ∧ b1 = s.inByte 1 ∧ 2 ≤ s.inLen := by
  obtain ⟨u, hu, hrest⟩ := State.takes_cons.1 h
  obtain ⟨v, hv, -⟩ := State.takes_cons.1 hrest
  obtain ⟨rfl, rfl, hlt⟩ := State.r16Raw_ok (State.takesItem_raw.1 hu)
  obtain ⟨-, rfl, hlt'⟩ := State.r16Raw_ok (State.takesItem_raw.1 hv)
  have hlen : s.ipos + 1 < s.inLen := hlt'
  rw [hi] at hlen ⊢
  exact ⟨rfl, rfl, hlen⟩

/-- A source with a byte is there. -/
theorem State.src_ne_absent {s : State} (h : 0 < s.inLen) : s.src ≠ .absent := by
  intro habs
  simp [State.inLen, habs, Source.len] at h

/-- A prologue with a header that is there in full reads it (40_dispatcher R130 to R133). -/
theorem State.fetchHeader_of_len {s : State} (h2 : 2 ≤ s.inLen) (h : s.headerLen ≤ s.inLen) :
    s.fetchHeader = (s.follow (headerReading s.ctx (s.inByte 0) (s.inByte 1))).fetched s := by
  rw [State.fetchHeader, if_neg (State.src_ne_absent (by omega)), if_neg (by omega), if_neg (by omega)]

/-- What decodes in a context of format LZW begins with a codeword. -/
theorem decode_lzw_eq_ok {x : Ctx} {items : List Item} {i : Instr} (hx : x.format = .lzw)
    (h : decode x items = .ok (i, [])) : ∃ c, items = [.cw c] ∧ i = decodeLzw x c := by
  rcases items with _ | ⟨_ | _ | _ | c, rest⟩ <;> simp only [decode, hx] at h <;> cases h
  exact ⟨c, rfl, rfl⟩

/-- What decodes in a context of format HUFF begins with a symbol. -/
theorem decode_huff_eq_ok {x : Ctx} {items : List Item} {i : Instr} (hx : x.format = .huff)
    (h : decode x items = .ok (i, [])) :
    ∃ a rest, items = .sym a :: rest ∧ (huffReading a).parse rest = .ok (i, []) := by
  rcases items with _ | ⟨_ | _ | a | _, rest⟩ <;> simp only [decode, hx] at h
  case cons.sym => exact ⟨a, rest, rfl, h⟩
  all_goals cases h

/-- What decodes before the header is parsed begins with the two bytes of `PEEK`. -/
theorem decode_none_eq_ok {x : Ctx} {items : List Item} {i : Instr} (hx : x.format = .none)
    (h : decode x items = .ok (i, [])) :
    ∃ b0 b1 rest, items = .raw b0 :: .raw b1 :: rest ∧ (headerReading x b0 b1).parse items = .ok (i, []) := by
  rcases items with _ | ⟨_ | b0 | _ | _, _ | ⟨_ | b1 | _ | _, rest⟩⟩ <;> simp only [decode, hx] at h
  case cons.raw.cons.raw => exact ⟨b0, b1, rest, rfl, h⟩
  all_goals cases h

/-- Settles O12: the readers' items lead the fetch of each format to the instruction (`follow_of_parse`), and a step is its
meaning then. -/
theorem stepRunsTheDecodedInstruction : Obligations.StepRunsTheDecodedInstruction := by
  intro s t items i hinv hrun hidx hdec ht
  cases hf : s.format with
  | none =>
    obtain ⟨b0, b1, rest, rfl, hparse⟩ := decode_none_eq_ok (x := s.ctx) hf hdec
    have hzero := ((State.runOk_none_iff hf).1 (hinv.run hrun)).2.1
    obtain ⟨rfl, rfl, h2⟩ := State.peek_of_takes hzero ht
    have hfollow := State.follow_of_parse hparse ht
    have hlen := State.inLen_of_follow_onlyRaw (headerReading_onlyRaw s.ctx _ _) hfollow (by omega)
    rw [hzero, Nat.zero_add] at hlen
    exact step_of_execute (by rw [fetch_none hrun hf, State.fetchHeader_of_len h2 hlen, hfollow, Res.fetched])
  | lzw =>
    obtain ⟨c, rfl, rfl⟩ := decode_lzw_eq_ok (x := s.ctx) hf hdec
    obtain ⟨u, hu, hend⟩ := State.takes_cons.1 ht
    cases hend
    exact step_of_execute (by rw [fetch_lzw hrun hf, State.fetchLzw, State.takesItem_cw.1 hu, Res.bind_ok, Res.fetched])
  | huff =>
    obtain ⟨a, rest, rfl, hparse⟩ := decode_huff_eq_ok (x := s.ctx) hf hdec
    obtain ⟨u, hu, hrest⟩ := State.takes_cons.1 ht
    exact step_huff_of_ok hrun hf (State.takesItem_sym.1 hu) (State.follow_of_parse hparse hrest)
  | diet =>
    rw [decode_diet (x := s.ctx) hf] at hdec
    exact step_diet_of_ok hrun hf (hidx hf) (State.follow_of_parse hdec ht)

end Sys2Proof.Machine

/-! ### Memories in canonical form -/

namespace Sys2Proof.Machine

/-- With rising keys a listed pair is found at its key. -/
theorem Cells.find_of_mem {β : Type} {m : List (Nat × β)} (hm : Cells.rising m) {k : Nat} {v : β} (h : (k, v) ∈ m) :
    Cells.find k m = some v := by
  induction m with
  | nil => cases h
  | cons e m ih =>
    obtain ⟨a, x⟩ := e
    obtain ⟨hlt, hrest⟩ := List.pairwise_cons.1 hm
    rcases List.mem_cons.1 h with heq | hmem
    · cases heq
      exact if_pos rfl
    · have hne : a ≠ k := (hlt _ hmem).ne
      rw [Cells.find, if_neg hne]
      exact ih hrest hmem

/-- A memory in canonical form lists exactly the addresses that do not read blank, with the bytes they read (log 7). -/
theorem Memory.wf.mem_iff {m : Memory} (hm : m.wf) (a : Nat) (b : Byte) :
    (a, b) ∈ m ↔ b ≠ Memory.blank ∧ m.read a = b := by
  constructor
  · intro h
    exact ⟨hm.2 _ h, by rw [Memory.read, Cells.find_of_mem hm.1 h, Option.getD_some]⟩
  · rintro ⟨hne, hread⟩
    rw [Memory.read] at hread
    cases hf : Cells.find a m with
    | none => rw [hf] at hread; exact absurd hread.symm hne
    | some v =>
      rw [hf, Option.getD_some] at hread
      exact hread ▸ Cells.find_mem hf

/-- Settles O14: two memories in canonical form that read alike list the same pairs (`Memory.wf.mem_iff`), and rising
addresses leave one order for them. -/
theorem equalReadsMeanEqualMemories : Obligations.EqualReadsMeanEqualMemories := by
  intro m m' hm hm' hread
  have hirrefl : Std.Irrefl fun c d : Host.Cell => c.1 < d.1 := ⟨fun c => Nat.lt_irrefl c.1⟩
  have hanti : Std.Antisymm fun c d : Host.Cell => c.1 < d.1 := ⟨fun c d h h' => absurd h' h.asymm⟩
  refine hm.1.eq_of_mem_iff hm'.1 fun c => ?_
  obtain ⟨a, b⟩ := c
  rw [hm.mem_iff, hm'.mem_iff, hread]

end Sys2Proof.Machine

/-! ### DIET offsets and the back-references -/

namespace Sys2Proof.Machine

/-- The two bytes of an offset do not overlap, so the `|` of 30_encoding R103 puts them one behind the other. -/
theorem offsetWord_eq_append (hi lo : Byte) : (hi.setWidth 16 <<< 8) ||| lo.setWidth 16 = hi ++ lo := by
  apply BitVec.eq_of_toNat_eq
  rw [BitVec.toNat_or, BitVec.toNat_shiftLeft, BitVec.toNat_setWidth_of_le (by decide),
    BitVec.toNat_setWidth_of_le (by decide), BitVec.toNat_append, Nat.shiftLeft_eq, Nat.mod_eq_of_lt (by omega)]

/-- `sext_16` is the two's complement reading of 16 bits (00_scope R10). -/
theorem sext16_eq_toInt (v : BitVec 16) : sext16 v = v.toInt := by
  rw [sext16, BitVec.toInt_eq_toNat_cond]
  split <;> split <;> omega

/-- The offset is the two's complement reading of its two bytes (30_encoding R103). -/
theorem dietOffset_eq_toInt (hi lo : Byte) : dietOffset hi lo = (hi ++ lo).toInt := by
  rw [dietOffset, offsetWord_eq_append, sext16_eq_toInt]

/-- A high byte with its top bit set makes the offset negative (30_encoding R103). -/
theorem dietOffset_of_top {hi : Byte} (lo : Byte) (h : 0x80 ≤ hi.toNat) :
    dietOffset hi lo = ((hi.toNat * 256 + lo.toNat : Nat) : Int) - 65536 := by
  have hnat : (hi ++ lo).toNat = hi.toNat * 256 + lo.toNat := by
    rw [BitVec.toNat_append, ← Nat.shiftLeft_add_eq_or_of_lt lo.isLt, Nat.shiftLeft_eq]
  rw [dietOffset, offsetWord_eq_append, sext16, hnat, if_neg (by omega)]

/-- The addition of 44_diet R266 puts the three bits of `SHORTX` above `0xF7`. -/
theorem shortxHi_toNat (t : BitVec 3) : (shortxHi t).toNat = 0xF7 + t.toNat := by
  revert t
  decide

/-- Settles O11: the high bytes of both short forms have their top bit set (`dietOffset_of_top`). -/
theorem shortFormOffsets : Obligations.ShortFormOffsets := by
  intro lo t
  refine ⟨?_, shortxHi_toNat t, ?_⟩
  · rw [dietOffset_of_top lo (by decide)]
    simp
    omega
  · rw [dietOffset_of_top lo (by rw [shortxHi_toNat]; omega), shortxHi_toNat]

/-- A back-reference whose source index lies in `[0, idx)` copies its bytes, cut at `PAYLOAD_SIZE` (44_diet R270). -/
theorem State.dietCopy_copied {s : State} {offset : Int} (count : Nat) (hout : s.out.wf)
    (hidx : s.idx.toNat ≤ s.payloadSize.toNat) (h0 : 0 ≤ (s.idx.toNat : Int) + offset)
    (h1 : (s.idx.toNat : Int) + offset < s.idx.toNat) :
    ∃ t, s.dietCopy offset count = .ok () t ∧ s.Copied (-offset).toNat count t := by
  obtain ⟨heq, hcursor, -, hkept, hcopied, -⟩ := State.copyBytes_spec hout
    (min count (s.payloadSize.toNat - s.idx.toNat)) ((s.idx.toNat : Int) + offset).toNat (by omega) (by omega)
  refine ⟨_, State.dietCopy_ok count hidx h0 h1, ?_⟩
  generalize s.copyBytes (min count (s.payloadSize.toNat - s.idx.toNat)) ((s.idx.toNat : Int) + offset).toNat = t at *
  obtain ⟨o, i, rfl⟩ : ∃ o i, t = { s with out := o, idx := i } := ⟨_, _, heq⟩
  refine ⟨by omega, fun a ha => hkept a (.inl ha), fun a hlo hhi => ?_, fun a ha => hkept a (.inr (by omega)),
    ⟨rfl, rfl, rfl, rfl, rfl, rfl, rfl, rfl⟩, ⟨rfl, rfl, rfl, rfl, rfl, rfl, rfl, rfl, rfl⟩, ⟨rfl, rfl, rfl, rfl, rfl⟩,
    ⟨rfl, rfl⟩, rfl, rfl⟩
  have hbyte := hcopied (a - s.idx.toNat) (by omega)
  have hplace : s.idx.toNat + (a - s.idx.toNat) = a := by omega
  have hsource : ((s.idx.toNat : Int) + offset).toNat + (a - s.idx.toNat) = a - (-offset).toNat := by omega
  rwa [hplace, hsource] at hbyte

/-- The three back-references are `DIET.COPY` with their offset and count (44_diet R264, R266, R267). -/
theorem exec_backReference {s : State} {lo hi : Byte} {b : BitVec 3} {n : Nat} {i : Instr} {offset : Int} {count : Nat}
    (h : i = .short lo ∧ offset = (lo.toNat : Int) - 256 ∧ count = 2 ∨
      i = .shortx lo b ∧ offset = (0xF7 + b.toNat) * 256 + lo.toNat - 65536 ∧ count = 2 ∨
      i = .long lo hi n ∧ offset = (hi ++ lo).toInt ∧ count = 2 + n) :
    exec i s = (s.dietCopy offset count).outcome s := by
  obtain ⟨hshort, -, hshortx⟩ := shortFormOffsets lo b
  rcases h with ⟨rfl, rfl, rfl⟩ | ⟨rfl, rfl, rfl⟩ | ⟨rfl, rfl, rfl⟩
  · rw [← hshort]
    rfl
  · have hoff : ((0xF7 + b.toNat) * 256 + lo.toNat - 65536 : Int) = dietOffset (shortxHi b) lo := by
      rw [hshortx]
      push_cast
      rfl
    rw [hoff]
    rfl
  · rw [← dietOffset_eq_toInt]
    rfl

/-- Settles O33: each back-reference is `DIET.COPY` (`exec_backReference`), which raises for a source index outside
`[0, idx)` and copies for one inside (`dietCopy_copied`). -/
theorem backReferencesCopy : Obligations.BackReferencesCopy := by
  intro s lo hi b n i offset count hout hidx hi
  rw [exec_backReference hi]
  refine ⟨fun hsrc => ?_, fun h0 h1 => ?_⟩
  · rw [State.dietCopy_raise count hsrc, Res.outcome_raise]
    exact ⟨_, rfl, State.aborted_abort _ s⟩
  · obtain ⟨t, ht, hcopied⟩ := State.dietCopy_copied count hout hidx h0 h1
    rw [ht, Res.outcome_ok]
    exact ⟨t, rfl, hcopied⟩

end Sys2Proof.Machine

/-! ### HUFF.NODE, and the steps that end a call without an instruction -/

namespace Sys2Proof.Machine

/-- Settles O28: the two answers of `HUFF.NODE`, and the two sides of the tag of `decodeNodeLowBit`. -/
theorem treeNodes : Obligations.TreeNodes := by
  have hpayload : ∀ v : BitVec 16, (v.extractLsb' 1 15).toNat = v.toNat / 2 := fun v => by
    rw [BitVec.extractLsb'_toNat, Nat.shiftRight_eq_div_pow, Nat.mod_eq_of_lt (by omega)]
  refine ⟨fun s i => State.huffNode_raise, fun s i v => State.huffNode_ok, fun v htag => ?_, fun v htag => ?_⟩
  · rw [NodeDecode.apply, decodeNodeLowBit, if_neg (Bool.eq_false_iff.1 htag), hpayload]
  · rw [NodeDecode.apply, decodeNodeLowBit, if_pos htag, ← hpayload, BitVec.ofNat_toNat, BitVec.setWidth_eq]

/-- Settles O30: the fetch of a Huffman step is over when the traversal ends without a symbol. -/
theorem endOfTheBitStreamEndsTheCall : Obligations.EndOfTheBitStreamEndsTheCall := by
  intro s hrun hf
  refine ⟨fun t ht => ?_, fun k hk => ⟨s.abort k, ?_, State.aborted_abort k s⟩⟩
  · exact step_of_ended (by rw [fetch_huff hrun hf, State.fetchHuff, ht]; rfl)
  · exact step_of_ended (by rw [fetch_huff hrun hf, State.fetchHuff, hk])

/-- Settles O36: the fetch of a DIET step looks at the cursor before it reads a bit. -/
theorem fullBufferEndsTheDietCall : Obligations.FullBufferEndsTheDietCall := fun s hrun hf hidx =>
  step_of_ended (by rw [fetch_diet hrun hf, State.fetchDiet, if_pos hidx]; rfl)

/-- The prologue of a call aborts it without a source, and where the source is shorter than two bytes or than the header
that `PEEK` finds (40_dispatcher R130 to R133). -/
theorem step_header_aborts {s : State} {k : ErrKind} (hrun : s.stState = .run) (hf : s.format = .none)
    (h : s.src = .absent ∧ k = .cannotOpenSource ∨
      s.src ≠ .absent ∧ k = .truncatedStream ∧ (s.inLen < 2 ∨ s.inLen < s.headerLen)) :
    ∃ t, step s = .next t ∧ s.Aborted k t := by
  refine ⟨s.abort k, step_of_ended ?_, State.aborted_abort k s⟩
  rw [fetch_none hrun hf, State.fetchHeader]
  rcases h with ⟨habs, rfl⟩ | ⟨hsrc, rfl, hshort⟩
  · rw [if_pos habs]
  · rw [if_neg hsrc]
    split
    · rfl
    · rw [if_pos (hshort.resolve_left ‹_›)]

/-- Settles O38: the four cases of `step_header_aborts`, with the header length of the container that `PEEK` finds. -/
theorem headerErrors : Obligations.HeaderErrors := by
  intro s hrun hf
  have hsig := s.ctx.isDietSig_iff (s.inByte 0) (s.inByte 1)
  refine ⟨fun habs => ?_, fun hsrc hlen => ?_, fun hsrc _ heq hlen => ?_, fun hsrc _ hne hlen => ?_⟩
  · exact step_header_aborts hrun hf (.inl ⟨habs, rfl⟩)
  · exact step_header_aborts hrun hf (.inr ⟨hsrc, rfl, .inl hlen⟩)
  · refine step_header_aborts hrun hf (.inr ⟨hsrc, rfl, .inr ?_⟩)
    rw [State.headerLen, if_pos (hsig.2 heq)]
    simp only [Cfg.dietHeaderLen, Cfg.dietSkip]
    omega
  · refine step_header_aborts hrun hf (.inr ⟨hsrc, rfl, .inr ?_⟩)
    rw [State.headerLen, if_neg (mt hsig.1 hne)]
    exact hlen

end Sys2Proof.Machine

/-! ### Between two calls, and the start of one -/

namespace Sys2Proof.Machine

theorem State.betweenCalls_nil {s : State} (h : s.pending = []) : s.betweenCalls = .next s := by
  simp only [State.betweenCalls, h]

theorem State.betweenCalls_cons {s : State} {c : Call} {rest : List Call} (h : s.pending = c :: rest) :
    s.betweenCalls = s.startCall c rest := by
  simp only [State.betweenCalls, h]

/-- Settles O46: the two cases of the host's list. -/
theorem betweenCallsTheBlockWaits : Obligations.BetweenCallsTheBlockWaits := fun _ hrun =>
  ⟨fun hp => (step_between hrun).trans (State.betweenCalls_nil hp),
    fun _ _ hp => (step_between hrun).trans (State.betweenCalls_cons hp)⟩

/-- `START` of a `decode` call is the reset of the call (40_dispatcher R130). -/
theorem State.startCall_decode {c : Call} (rest : List Call) (s : State) (h : c.entry = .decode) :
    s.startCall c rest = .next (s.resetForCall c rest) := by
  simp only [State.startCall, h]

/-- Settles O43: the reset of a call is the table of 10_state R41 (`State.startCall_decode`). -/
theorem startResetsEveryRegister : Obligations.StartResetsEveryRegister := fun s c rest h =>
  ⟨s.resetForCall c rest, s.startCall_decode rest h, rfl, rfl, rfl, rfl, rfl, ⟨rfl, rfl, rfl⟩,
    ⟨rfl, rfl, rfl, rfl, rfl⟩, Dict.read_nil, rfl, rfl, ⟨rfl, rfl⟩, ⟨rfl, rfl, rfl⟩, ⟨rfl, rfl, rfl⟩, rfl, rfl, rfl, rfl⟩

/-- Settles O49: the state after reset is a call that has not read its header, with every register at reset. -/
theorem resetMeetsTheInvariant : Obligations.ResetMeetsTheInvariant :=
  State.inv_resetForCall (c := ⟨Cfg.initial, .absent, .decode⟩) (rest := []) State.reset rfl nofun

/-- Of the state before it the start of a call keeps the counter of free values only (70_reset R340, log 6). -/
theorem State.startCall_congr {s s' : State} (c : Call) (rest : List Call) (h : s.draws = s'.draws) :
    s.startCall c rest = s'.startCall c rest := by
  have hreset : s.resetForCall c rest = s'.resetForCall c rest := by rw [State.resetForCall, h]; rfl
  simp only [State.startCall, hreset]

/-- Runs that agree in their first step agree. -/
theorem run_congr {s s' : State} (n : Nat) (h : step s = step s') : core.run (n + 1) s = core.run (n + 1) s' := by
  have h' : core.step s = core.step s' := h
  simp only [Host.Core.run, h']

/-- Settles O45: the first step starts the same call in both blocks, and its start drops what the last call left
(`State.startCall_congr`). -/
theorem callsAreIndependent : Obligations.CallsAreIndependent := by
  intro s s' n hrun hrun' hne hpending hdraws
  obtain ⟨c, rest, hp⟩ := List.exists_cons_of_ne_nil hne
  apply run_congr
  rw [step_between hrun, step_between hrun', State.betweenCalls_cons hp, State.betweenCalls_cons (hpending ▸ hp),
    State.startCall_congr c rest hdraws]

/-- A call of a sub-operation as its decoder finds it: the reset state with `FORMAT`, `PAYLOAD_SIZE` and `ipos` set
(00_scope R6). -/
def State.entered (c : Call) (rest : List Call) (f : Format) (start : Nat) (size : BitVec 21) (s : State) : State :=
  { (s.resetForCall c rest).setFormat f size with ipos := min start c.src.len }

/-- A sub-operation with a source initialises its decoder at once (00_scope R6, log 17). -/
theorem State.enterDecoder_of_src {c : Call} (hsrc : c.src ≠ .absent) (rest : List Call) (f : Format) (start : Nat)
    (size : BitVec 21) (s : State) :
    (s.resetForCall c rest).enterDecoder f start size =
      (s.entered c rest f start size).initDecoder.outcome (s.entered c rest f start size) :=
  if_neg hsrc

/-- A sub-operation without a source aborts (log 17). -/
theorem State.enterDecoder_of_absent {c : Call} (hsrc : c.src = .absent) (rest : List Call) (f : Format) (start : Nat)
    (size : BitVec 21) (s : State) :
    (s.resetForCall c rest).enterDecoder f start size = .next ((s.resetForCall c rest).abort .cannotOpenSource) :=
  if_pos hsrc

/-- `huff_decode` stores the tree section at its start byte, or raises `TruncatedStream` (43_huffman_rle R230, R231). -/
theorem State.entered_huff (c : Call) (rest : List Call) (start : Nat) (size : BitVec 21) (s : State) :
    let p := min start c.src.len
    let n := (word16 (c.src.read p) (c.src.read (p + 1))).toNat / 2
    (p + 2 + 2 * n ≤ c.src.len ∧ (s.entered c rest .huff start size).initDecoder =
      .ok () { (s.entered c rest .huff start size).huffInit with
        ipos := p + 2 + 2 * n
        nnodes := BitVec.ofNat 15 n
        node := (List.range n).map fun k =>
          word16 (c.src.read (p + 2 + 2 * k)) (c.src.read (p + 2 + 2 * k + 1)) }) ∨
    (c.src.len < p + 2 + 2 * n ∧ (s.entered c rest .huff start size).initDecoder = .raise .truncatedStream) :=
  (s.entered c rest .huff start size).huffInit.parseTree_cases

section SubOperation
variable {s : State} {c : Call} {rest : List Call} {start : Nat} {size : BitVec 21} (hrun : s.stState ≠ .run)
  (hp : s.pending = c :: rest)
include hrun hp

theorem step_lzwDecode (h : c.entry = .lzwDecode start size) :
    step s = (s.resetForCall c rest).enterDecoder .lzw start size := by
  rw [step_between hrun, State.betweenCalls_cons hp]
  simp only [State.startCall, h]

theorem step_huffDecode (h : c.entry = .huffDecode start size) :
    step s = (s.resetForCall c rest).enterDecoder .huff start size := by
  rw [step_between hrun, State.betweenCalls_cons hp]
  simp only [State.startCall, h]

theorem step_dietDecode (h : c.entry = .dietDecode start size) :
    step s = (s.resetForCall c rest).enterDecoder .diet start size := by
  rw [step_between hrun, State.betweenCalls_cons hp]
  simp only [State.startCall, h]

end SubOperation

/-- Settles O44: a sub-operation is `START` and its decoder's initialisation in one step (`enterDecoder_of_src`), with the
primed window of `r24Prime_withR24`, the tree of `parseTree_cases` or the first word of `r16Fill_withR16`. -/
theorem subOperationsStart : Obligations.SubOperationsStart := by
  rintro s c rest start p size hrun hp rfl
  refine ⟨fun habs hentry => ?_, fun hsrc hentry => ?_, ?_, ?_⟩
  · refine ⟨(s.resetForCall c rest).abort .cannotOpenSource, ?_, rfl, rfl, rfl, rfl, rfl⟩
    rcases hentry with h | h | h
    · rw [step_lzwDecode hrun hp h, State.enterDecoder_of_absent habs]
    · rw [step_huffDecode hrun hp h, State.enterDecoder_of_absent habs]
    · rw [step_dietDecode hrun hp h, State.enterDecoder_of_absent habs]
  · rw [step_lzwDecode hrun hp hentry, State.enterDecoder_of_src hsrc]
    obtain ⟨i, b, n, heq, hshape, hpos, hipos, -⟩ :=
      State.r24Prime_withR24 (s := (s.entered c rest .lzw start size).lzwInitUnit) (Nat.min_le_right _ _)
    exact ⟨_, congrArg Host.Outcome.next heq, ⟨rfl, rfl, rfl, rfl, rfl, rfl, rfl⟩, ⟨rfl, rfl, rfl, rfl, rfl⟩,
      hshape.ok (Nat.zero_le 7), hshape.window, rfl, hpos, hipos, rfl, rfl, ⟨rfl, rfl⟩, ⟨rfl, rfl, rfl⟩,
      ⟨rfl, rfl, rfl⟩, rfl⟩
  · rintro hsrc hentry n rfl
    rw [step_huffDecode hrun hp hentry, State.enterDecoder_of_src hsrc]
    rcases s.entered_huff c rest start size with ⟨hlen, hparse⟩ | ⟨hlen, hparse⟩
    · rw [hparse, Res.outcome_ok]
      refine ⟨fun _ => ⟨_, rfl, ⟨rfl, rfl, rfl, rfl, rfl, rfl, rfl⟩, rfl, toNat_ofNat_half _, ?_, rfl, ⟨rfl, rfl⟩, rfl,
        rfl, ⟨rfl, rfl, rfl⟩, ⟨rfl, rfl, rfl, rfl, rfl⟩, ⟨rfl, rfl, rfl⟩, rfl⟩, fun hshort => absurd hshort (by omega)⟩
      refine List.map_congr_left fun k _ => ?_
      rw [show min start c.src.len + 3 + 2 * k = min start c.src.len + 2 + 2 * k + 1 by omega]
    · rw [hparse, Res.outcome_raise]
      exact ⟨fun hfull => absurd hfull (by omega), fun _ => ⟨_, rfl, rfl, rfl, rfl, rfl, rfl, rfl, rfl⟩⟩
  · intro hsrc hentry
    rw [step_dietDecode hrun hp hentry, State.enterDecoder_of_src hsrc]
    obtain ⟨i, w, cn, v, heq, hfill, hipos, hcnt, hvalid⟩ :=
      State.r16Fill_withR16 (s := (s.entered c rest .diet start size).dietInitUnit) (Nat.min_le_right _ _)
    exact ⟨_, congrArg Host.Outcome.next heq, ⟨rfl, rfl, rfl, rfl, rfl, rfl, rfl⟩, rfl, Memory.read_nil, hipos, hcnt,
      hvalid, fun htwo => congrArg State.w (hfill.two htwo), fun hone => congrArg State.w (hfill.one hone),
      fun hnone => congrArg State.w (hfill.none hnone.ge), rfl, ⟨rfl, rfl, rfl⟩, ⟨rfl, rfl, rfl, rfl, rfl⟩,
      ⟨rfl, rfl⟩, ⟨rfl, rfl, rfl⟩⟩

end Sys2Proof.Machine

/-! ### What every step of a running call leaves alone -/

namespace Sys2Proof.Machine

/-- How the fetch of a running call can come out: an abort, a fault, the normal end, or an instruction of the call's
format, with nothing of the call changed by the readers. -/
inductive State.FetchOutcome (s : State) : Fetched → Prop where
  | aborted (k : ErrKind) : s.FetchOutcome (.ended (.next (s.abort k)))
  | stopped (f : Fault) : s.FetchOutcome (.ended (.fault f))
  | finished {u : State} (hcall : s.SameCall u) : s.FetchOutcome (.ended (.next u.finish))
  | instruction {i : Instr} {u : State} (hcall : s.SameCall u) (hi : i.format = s.format) :
    s.FetchOutcome (.execute i u)

/-- A fetch that ends in a reading of the call's format. -/
theorem State.FetchOutcome.of_fetched {s : State} {r : Res Instr} (hkeeps : Res.KeepsCall s r)
    (hformat : ∀ i u, r = .ok i u → i.format = s.format) : s.FetchOutcome (r.fetched s) := by
  cases r with
  | ok i u => exact .instruction (hkeeps i u rfl) (hformat i u rfl)
  | raise k => exact .aborted k
  | fault f => exact .stopped f

theorem decodeLzw_format {x : Ctx} (hx : x.format = .lzw) (c : Code) : (decodeLzw x c).format = .lzw :=
  (Instr.wellFormed_iff.1 (everyCodewordHasOneMeaning x c hx).1).1.trans hx

/-- Reading an instruction changes nothing of the call, in every format and from every state. -/
theorem fetch_outcome {s : State} (hrun : s.stState = .run) : s.FetchOutcome s.fetch := by
  cases hf : s.format with
  | none =>
    rw [fetch_none hrun hf]
    rcases s.fetchHeader_cases with ⟨k, hk⟩ | ⟨-, hk⟩ <;> rw [hk]
    · exact .aborted k
    · exact .of_fetched (s.follow_keeps _ ·)
        fun i u h => (State.follow_yields (headerReading_yields _ _ _) h).trans hf.symm
  | lzw =>
    rw [fetch_lzw hrun hf]
    refine .of_fetched ((s.r24GetCw_keeps _).bind fun cw u _ => .of_ok (.refl u)) fun i u h => ?_
    obtain ⟨cw, v, -, hdec⟩ := Res.bind_eq_ok.1 h
    cases hdec
    exact (decodeLzw_format (x := s.ctx) hf cw).trans hf.symm
  | huff =>
    rw [fetch_huff hrun hf, State.fetchHuff]
    cases hsym : s.huffSym with
    | ok r u =>
      have hcall := s.huffSym_keeps r u hsym
      cases r with
      | none => exact .finished hcall
      | some a =>
        exact .of_fetched (fun i v h => hcall.trans (u.follow_keeps _ i v h))
          fun i v h => (State.follow_yields (huffReading_yields a) h).trans hf.symm
    | raise k => exact .aborted k
    | fault f => exact .stopped f
  | diet =>
    rw [fetch_diet hrun hf, State.fetchDiet]
    split
    · exact .finished (.refl s)
    · exact .of_fetched (s.follow_keeps _ ·) fun i u h => (State.follow_yields (dietReading_yields _) h).trans hf.symm

/-- A step of a running call aborts it, ends it, or executes an instruction of its format. -/
theorem step_run_cases {s t : State} (hrun : s.stState = .run) (ht : step s = .next t) :
    (∃ k, t = s.abort k) ∨ (∃ u, s.SameCall u ∧ t = u.finish) ∨
      ∃ i u, s.fetch = .execute i u ∧ s.SameCall u ∧ i.format = s.format ∧ exec i u = .next t := by
  have hout := fetch_outcome hrun
  generalize hfetch : s.fetch = o at hout
  cases hout with
  | aborted k => cases (step_of_ended hfetch).symm.trans ht; exact .inl ⟨k, rfl⟩
  | stopped f => cases (step_of_ended hfetch).symm.trans ht
  | finished hcall => cases (step_of_ended hfetch).symm.trans ht; exact .inr (.inl ⟨_, hcall, rfl⟩)
  | instruction hcall hi => exact .inr (.inr ⟨_, _, rfl, hcall, hi, (step_of_execute hfetch).symm.trans ht⟩)

/-- The meaning of a codeword leaves the input alone. -/
theorem exec_lzw_sameInput {i : Instr} {s t : State} (hi : i.format = .lzw) (ht : exec i s = .next t) :
    s.SameInput t := by
  cases i with
  | lit b => exact (s.lzwEntry_keeps _).outcome ht
  | clear => cases ht; exact ⟨rfl, rfl, rfl, rfl, rfl⟩
  | endLzw => cases ht; exact s.sameInput_finish
  | clearAlt => cases ht; exact ⟨rfl, rfl, rfl, rfl, rfl⟩
  | endLzwAlt => cases ht; exact s.sameInput_finish
  | ref c => exact (s.lzwEntry_keeps _).outcome ht
  | kwkwk c => exact ((s.dictRead_keeps _).bind fun p u _ => u.lzwTail_keeps _ c).outcome ht
  | illegal c => cases ht; exact s.sameInput_abort _
  | _ => cases hi

/-- The meaning of every instruction but the routes leaves the input alone (10_state R22, R23). -/
theorem exec_sameInput {i : Instr} {s t : State} (hi : i.format ≠ .none) (ht : exec i s = .next t) :
    s.SameInput t := by
  cases hf : i.format with
  | none => exact absurd hf hi
  | lzw => exact exec_lzw_sameInput hf ht
  | huff =>
    rcases exec_huff_cases hf ht with ⟨k, rfl⟩ | ⟨str, u, b, hemit, rfl⟩
    · exact s.sameInput_abort k
    · have hinput := (s.emit_keeps str _ _ hemit).sameInput
      exact ⟨hinput.format, hinput.payloadSize, hinput.cfg, hinput.src, hinput.pending⟩
  | diet =>
    rcases exec_diet_cases s hf with he | ⟨v, he⟩ | ⟨offset, count, he⟩ <;> rw [he] at ht
    · cases ht
      exact s.sameInput_finish
    · exact (s.dietPut_keeps v).outcome ht
    · exact (s.dietCopy_keeps offset count).outcome ht

theorem State.r24Prime_sameCall (s : State) : s.SameCall s.r24Prime := by
  rw [State.r24Prime_eq_refill]
  have honly := (s.r24Empty.r24RefillOne_only.trans (State.r24RefillOne_only _)).trans (State.r24RefillOne_only _)
  rw [honly]
  exact ⟨rfl, rfl, rfl, rfl, rfl, rfl, rfl, rfl⟩

theorem State.r16Fill_sameCall (s : State) : s.SameCall s.r16Fill := by
  rw [s.onlyR16_r16Fill]
  exact ⟨rfl, rfl, rfl, rfl, rfl, rfl, rfl, rfl⟩

/-- The initialisation of a decoder leaves the call alone (40_dispatcher R134). -/
theorem State.initDecoder_keeps (s : State) : Res.KeepsCall s s.initDecoder := by
  unfold State.initDecoder
  split
  · refine .of_ok (State.SameCall.trans (t := s.lzwInitUnit) ⟨rfl, rfl, rfl, rfl, rfl, rfl, rfl, rfl⟩ ?_)
    exact s.lzwInitUnit.r24Prime_sameCall
  · rcases s.huffInit.parseTree_cases with ⟨-, hp⟩ | ⟨-, hp⟩ <;> rw [hp]
    · exact .of_ok ⟨rfl, rfl, rfl, rfl, rfl, rfl, rfl, rfl⟩
    · exact .of_raise _ _
  · refine .of_ok (State.SameCall.trans (t := s.dietInitUnit) ⟨rfl, rfl, rfl, rfl, rfl, rfl, rfl, rfl⟩ ?_)
    exact s.dietInitUnit.r16Fill_sameCall
  · exact .of_ok (.refl s)

/-- A route writes `FORMAT` and `PAYLOAD_SIZE`, and leaves the rest of the input alone (40_dispatcher R132, R133). -/
theorem State.sameInput_route {f : Format} {size : BitVec 21} {s t : State} (ht : s.route f size = .next t) :
    (s.setFormat f size).SameInput t := by
  by_cases h : size = 0
  · rw [h, State.route_zero] at ht
    cases ht
    exact h ▸ ⟨rfl, rfl, rfl, rfl, rfl⟩
  · rw [State.route_of_ne_zero f s h] at ht
    exact (State.initDecoder_keeps _).outcome ht

/-- Settles O55: the readers, the meanings that are no routes, and both ends of a call leave the input alone. -/
theorem formatIsWrittenOnce : Obligations.FormatIsWrittenOnce := by
  intro s t hrun hf ht
  rcases step_run_cases hrun ht with ⟨k, rfl⟩ | ⟨u, hcall, rfl⟩ | ⟨i, u, -, hcall, hi, hexec⟩
  · exact ⟨rfl, rfl⟩
  · exact ⟨hcall.format, hcall.payloadSize⟩
  · have hinput := hcall.sameInput.trans (exec_sameInput (hi ▸ hf) hexec)
    exact ⟨hinput.format, hinput.payloadSize⟩

/-- Settles O54: as `formatIsWrittenOnce`, and a route writes `FORMAT` and `PAYLOAD_SIZE` only
(`State.sameInput_route`). -/
theorem runningCallKeepsInputAndConfiguration : Obligations.RunningCallKeepsInputAndConfiguration := by
  intro s t hrun ht
  rcases step_run_cases hrun ht with ⟨k, rfl⟩ | ⟨u, hcall, rfl⟩ | ⟨i, u, -, hcall, -, hexec⟩
  · exact ⟨rfl, rfl, rfl⟩
  · exact ⟨hcall.cfg, hcall.src, hcall.pending⟩
  · by_cases hi : i.format = .none
    · obtain ⟨f, size, -, hroute⟩ := exec_route u hi
      have hinput := State.sameInput_route (hroute.symm.trans hexec)
      exact ⟨hinput.cfg.trans hcall.cfg, hinput.src.trans hcall.src, hinput.pending.trans hcall.pending⟩
    · have hinput := hcall.sameInput.trans (exec_sameInput hi hexec)
      exact ⟨hinput.cfg, hinput.src, hinput.pending⟩

end Sys2Proof.Machine

/-! ### What a codeword leaves where the call goes on -/

namespace Sys2Proof.Machine

/-- An emission keeps `olen` within the capacity (20_memory R62). -/
theorem State.emit_capped {str : List Byte} {s t : State} {cap : Nat} (h : s.emit str = .ok () t)
    (hcap : s.cfg.outCap = some cap) (hlen : s.olen ≤ cap) : t.olen ≤ cap := by
  induction str generalizing s with
  | nil => cases h; exact hlen
  | cons b rest ih =>
    rw [State.emit] at h
    cases hfull : s.outFull with
    | true => rw [State.outAppend_raise b hfull] at h; cases h
    | false =>
      rw [State.outAppend_ok b hfull, Res.bind_ok] at h
      have hne : s.olen ≠ cap := by
        rintro rfl
        simp [State.outFull, hcap] at hfull
      have hnext : s.olen + 1 ≤ cap := by omega
      exact ih h hcap hnext

/-- `LZW.TAIL` that completes has done all its work within the capacity, and without `APPEND` it has left the dictionary
unit as it was (42_lzw R200, R201). -/
theorem State.lzwTail_eq_ok {s t : State} {str : List Byte} {cw : Code} (h : s.LzwOk) (hd : s.dict.wf) (ho : s.out.wf)
    (hstr : str ≠ []) (ht : s.lzwTail str cw = .ok () t) :
    s.TailDone str cw t ∧ (∀ cap, s.cfg.outCap = some cap → s.olen ≤ cap → t.olen ≤ cap) ∧
      (s.appends = false → t.dict = s.dict ∧ t.dictsize = s.dictsize ∧ t.nbit = s.nbit) := by
  obtain ⟨_, u, happend, htail⟩ := Res.bind_eq_ok.1 ht
  obtain ⟨_, v, hemit, hend⟩ := Res.bind_eq_ok.1 htail
  cases hend
  obtain ⟨u', happend', heq, hlearned, -, -, -, hnone⟩ := State.lzwAppend_spec h hd hstr
  cases happend'.symm.trans happend
  obtain ⟨d, n, w, rfl⟩ : ∃ d n w, u = { s with dict := d, dictsize := n, nbit := w } := ⟨_, _, _, heq⟩
  obtain ⟨happended, heq', -, -⟩ := State.emit_eq_ok (s := { s with dict := d, dictsize := n, nbit := w }) ho hemit
  have hcapped := fun cap => State.emit_capped (cap := cap) hemit
  obtain ⟨o, l, rfl⟩ : ∃ o l, v = { s with dict := d, dictsize := n, nbit := w, out := o, olen := l } := ⟨_, _, heq'⟩
  refine ⟨⟨⟨hlearned.size, hlearned.entry, hlearned.others, hlearned.width⟩,
    ⟨happended.olen, happended.bytes, happended.others⟩, rfl, rfl, ⟨rfl, rfl, rfl, rfl, rfl, rfl, rfl, rfl⟩,
    ⟨rfl, rfl, rfl, rfl, rfl, rfl, rfl, rfl, rfl⟩, ⟨rfl, rfl⟩, rfl, rfl⟩, hcapped, fun hno => ?_⟩
  have hsame := hnone hno
  exact ⟨(congrArg State.dict hsame :), (congrArg State.dictsize hsame :), (congrArg State.nbit hsame :)⟩

/-- A codeword that decodes as `CLEAR` is the clear code. -/
theorem eq_clearCode_of_decodeLzw {x : Ctx} {c : Code} (hx : x.format = .lzw)
    (h : decodeLzw x c = .clear ∨ decodeLzw x c = .clearAlt) : c = clearCode x.cfg.altLzw := by
  obtain ⟨hwf, henc⟩ := everyCodewordHasOneMeaning x c hx
  have hok := (Instr.wellFormed_iff.1 hwf).2
  rcases h with h | h <;> rw [h] at hok henc <;> cases henc
  · have halt : x.cfg.altLzw = false := by simpa [Instr.operandsOk] using hok
    rw [halt]
    rfl
  · have halt : x.cfg.altLzw = true := hok
    rw [halt]
    rfl

section Codeword
variable {s t : State} (h : s.Inv) (hrun : s.stState = .run) (hf : s.format = .lzw)
include h hrun hf

/-- Every codeword of a call in order ends it, clears the dictionary, raises, or is `LZW.TAIL` with some string
(42_lzw R194 to R199). -/
theorem State.Inv.execLzw_eq (c : Code) :
    exec (decodeLzw s.ctx c) s = .next s.finish ∨
    (c = clearCode s.cfg.altLzw ∧ exec (decodeLzw s.ctx c) s = .next s.lzwClear) ∨
    (∃ k, exec (decodeLzw s.ctx c) s = .next (s.abort k)) ∨
    ∃ str cw, str ≠ [] ∧ exec (decodeLzw s.ctx c) s = (s.lzwTail str cw).outcome s := by
  have hlzw := ((State.runOk_lzw_iff hf).1 (h.run hrun)).lzw
  have hclear := eq_clearCode_of_decodeLzw (x := s.ctx) (c := c) hf
  rcases decodeLzw_cases s.ctx c with (hi | hi) | (hi | hi) | ⟨-, hi⟩ | ⟨hc, hi⟩ | ⟨hc, hi⟩ | hi <;> rw [hi] at hclear ⊢
  · exact .inl rfl
  · exact .inl rfl
  · exact .inr (.inl ⟨hclear (.inl rfl), rfl⟩)
  · exact .inr (.inl ⟨hclear (.inr rfl), rfl⟩)
  · exact .inr (.inr (.inr ⟨_, _, List.cons_ne_nil _ _, exec_lit _ s⟩))
  · obtain ⟨hinit, hlt⟩ : dictInit ≤ c.toNat ∧ c.toNat < s.dictsize.toNat := s.ctx.isLearned_iff.1 hc
    simp only [dictInit] at hinit
    obtain ⟨str, hstr, hne, -⟩ := hlzw.present hlt (by omega) (by omega)
    exact .inr (.inr (.inr ⟨str, c, hne, exec_ref_of_read hstr⟩))
  · obtain ⟨p, hp, hne⟩ := hlzw.prev_present (s.ctx.isNextCode_iff.1 hc).2.1
    exact .inr (.inr (.inr ⟨_, c, by simp [hne], exec_kwkwk_of_read hp⟩))
  · exact .inr (.inr (.inl ⟨_, rfl⟩))

/-- Where a codeword does not abort the call, it ends it, clears the dictionary, or has completed `LZW.TAIL`. -/
theorem State.Inv.execLzw_cases {c : Code} (ht : exec (decodeLzw s.ctx c) s = .next t) :
    t.stState = .err ∨ t = s.finish ∨ (c = clearCode s.cfg.altLzw ∧ t = s.lzwClear) ∨
      ∃ str cw, s.TailDone str cw t ∧ (∀ cap, s.cfg.outCap = some cap → s.olen ≤ cap → t.olen ≤ cap) ∧
        (s.appends = false → t.dict = s.dict ∧ t.dictsize = s.dictsize ∧ t.nbit = s.nbit) := by
  have hlzw := ((State.runOk_lzw_iff hf).1 (h.run hrun)).lzw
  rcases h.execLzw_eq hrun hf c with he | ⟨hc, he⟩ | ⟨k, he⟩ | ⟨str, cw, hstr, he⟩ <;> rw [he] at ht
  · cases ht; exact .inr (.inl rfl)
  · cases ht; exact .inr (.inr (.inl ⟨hc, rfl⟩))
  · cases ht; exact .inl rfl
  · rcases Res.outcome_eq_next.1 ht with hok | ⟨k, -, rfl⟩
    · exact .inr (.inr (.inr ⟨str, cw, State.lzwTail_eq_ok hlzw h.mem.dict h.mem.out hstr hok⟩))
    · exact .inl rfl

end Codeword

/-- Settles O25: at the cap no code is `dictsize` or above, and `LZW.TAIL` appends nothing (`State.lzwTail_eq_ok`). -/
theorem dictionaryIsFrozenAtTheCap : Obligations.DictionaryIsFrozenAtTheCap := by
  intro s t c h hrun hf hcap
  have hnext : s.ctx.isNextCode c = false := Bool.eq_false_iff.2 fun hc => by
    have hlt : s.dictsize.toNat < dictCap := (s.ctx.isNextCode_iff.1 hc).2.2
    simp only [dictCap] at hlt
    omega
  have hok := (Instr.wellFormed_iff.1 (everyCodewordHasOneMeaning s.ctx c hf).1).2
  refine ⟨fun hi => ?_, fun hi => ?_, fun ht htrun hclear => ?_⟩
  · rw [hi] at hok
    simp [Instr.operandsOk, hnext] at hok
  · rw [hi] at hok
    obtain ⟨⟨hinit, hlearned⟩, -⟩ :
        (dictInit ≤ c.toNat ∧ s.ctx.isLearned c = false) ∧ s.ctx.isNextCode c = false := by
      simpa [Instr.operandsOk] using hok
    have hlt : c.toNat < s.ctx.dictsize.toNat := hcap ▸ c.isLt
    simp [s.ctx.isLearned_iff.2 ⟨hinit, hlt⟩] at hlearned
  · have happends : s.appends = false := by simp [State.appends, dictCap, hcap]
    rcases h.execLzw_cases hrun hf ht with herr | rfl | ⟨hc, -⟩ | ⟨str, cw, -, -, hfrozen⟩
    · rw [htrun] at herr; cases herr
    · cases htrun
    · exact absurd hc hclear
    · exact hfrozen happends

/-- No entry stands at `dictsize` yet (42_lzw R204). -/
theorem State.LzwOk.read_dictsize {s : State} (h : s.LzwOk) : s.dict.read s.dictsize.toNat = none := by
  have hsize := h.dictsize.1
  simp only [dictInit] at hsize
  rw [Dict.read, if_neg (by omega)]
  by_contra hne
  obtain ⟨str, hstr⟩ := Option.ne_none_iff_exists'.1 hne
  exact Nat.lt_irrefl _ (h.below _ (Cells.find_mem hstr))

/-- `APPEND` keeps every entry: the new one stands where none was (42_lzw R200). -/
theorem State.LzwOk.learned_keeps {s t : State} {str : List Byte} (h : s.LzwOk) (hl : s.Learned str t) {c : Nat}
    {e : List Byte} (hc : s.dict.read c = some e) : t.dict.read c = some e := by
  rw [hl.others c (.inr ?_), hc]
  rintro rfl
  rw [h.read_dictsize] at hc
  cases hc

/-- A step of a running LZW call aborts it, or takes a codeword and is its meaning;
the call is in order in between. -/
theorem step_lzw_cases {s t : State} (h : s.Inv) (hrun : s.stState = .run) (hf : s.format = .lzw)
    (ht : step s = .next t) :
    t.stState = .err ∨ ∃ c u, s.r24GetCw s.nbit.toNat = .ok c u ∧ u.Inv ∧ u.stState = .run ∧ u.format = .lzw ∧
      exec (decodeLzw u.ctx c) u = .next t := by
  rcases step_of_fetched (fetch_lzw hrun hf) ht with ⟨i, u, hi, hexec⟩ | ⟨k, rfl⟩
  · obtain ⟨c, v, hcw, hv⟩ := Res.bind_eq_ok.1 hi
    cases hv
    have hcall := s.r24GetCw_keeps _ _ _ hcw
    have hctx : s.ctx = u.ctx := by rw [(State.r24GetCw_only hcw).1]; rfl
    exact .inr ⟨c, u, hcw, h.getCw hrun hf hcw, hcall.stState.trans hrun, hcall.format.trans hf, hctx ▸ hexec⟩
  · exact .inl rfl

/-- Settles O58: a codeword that goes on keeps every entry (`LzwOk.learned_keeps`) or clears the dictionary, whose empty
list of learned entries reads as the singletons. -/
theorem dictionaryEntriesAreNeverModified : Obligations.DictionaryEntriesAreNeverModified := by
  intro s t h hrun hf ht herr
  rcases step_lzw_cases h hrun hf ht with he | ⟨c, u, hcw, hu, hurun, huf, hexec⟩
  · exact absurd he herr
  have hdict : u.dict = s.dict := by rw [(State.r24GetCw_only hcw).1]
  rcases hu.execLzw_cases hurun huf hexec with he | rfl | ⟨-, rfl⟩ | ⟨str, cw, hdone, -, -⟩
  · exact absurd he herr
  · exact .inl fun c str hc => by rwa [State.finish_dict, hdict]
  · exact .inr Dict.read_nil
  · have hlzw := ((State.runOk_lzw_iff huf).1 (hu.run hurun)).lzw
    exact .inl fun c str hc => hlzw.learned_keeps hdone.learned (hdict ▸ hc)

end Sys2Proof.Machine

/-! ### A step of a call in order: the fetch takes bits, the meaning writes -/

namespace Sys2Proof.Machine

/-- What the readers have done when they took `n` bits or more: the call, `OUT` and the decoding context are as they were,
and the stream cursor has not gone back or past `IN_LEN`. -/
structure State.TookInput (n : Nat) (s u : State) : Prop where
  call : s.SameCall u
  ctx : u.ctx = s.ctx
  fwd : s.ipos ≤ u.ipos
  bound : u.ipos ≤ u.inLen
  work : u.workLeft + n ≤ s.workLeft
  out : u.out = s.out
  olen : u.olen = s.olen
  idx : u.idx = s.idx

/-- The fetch of a call in order has given the instruction `i`, and the state `u` to execute it in. -/
structure State.Gives (s : State) (i : Instr) (u : State) : Prop where
  took : s.TookInput 1 u
  inv : u.Inv
  run : u.stState = .run
  wellFormed : i.wellFormed u.ctx = true
  room : u.format = .diet → u.idx ≠ u.payloadSize

/-- How the fetch of a running decoder in order can come out: no fault is among it. -/
inductive State.FetchInOrder (s : State) : Fetched → Prop where
  | aborted (k : ErrKind) : s.FetchInOrder (.ended (.next (s.abort k)))
  | finished {u : State} (h : s.TookInput 0 u) : s.FetchInOrder (.ended (.next u.finish))
  | instruction {i : Instr} {u : State} (h : s.Gives i u) : s.FetchInOrder (.execute i u)

theorem State.workLeft_lzw {s : State} (hf : s.format = .lzw) : s.workLeft = s.r24BitsLeft + 1 := by
  simp only [State.workLeft, hf]

theorem State.workLeft_huff {s : State} (hf : s.format = .huff) : s.workLeft = s.rmsbBitsLeft + 1 := by
  simp only [State.workLeft, hf]

theorem State.workLeft_diet {s : State} (hf : s.format = .diet) : s.workLeft = s.r16BitsLeft + 1 := by
  simp only [State.workLeft, hf]

/-- A codeword's bits come off what is left of the stream (41_bit_readers R154). -/
theorem State.Inv.tookInput_getCw {s u : State} {c : Code} (h : s.Inv) (hrun : s.stState = .run)
    (hf : s.format = .lzw) (hcw : s.r24GetCw s.nbit.toNat = .ok c u) : s.TookInput 1 u := by
  have hr := (State.runOk_lzw_iff hf).1 (h.run hrun)
  have hshape := State.R24Shape.of_ok hr.r24 hr.window hr.ipos
  obtain ⟨honly, hshape', -, hpos, hfwd⟩ := hshape.getCw hr.r24.missing hr.lzw.nbit.2 hcw
  have hcall := s.r24GetCw_keeps _ _ _ hcw
  have hwork : u.workLeft + 1 ≤ s.workLeft := by
    rw [State.workLeft_lzw (hcall.format.trans hf), State.workLeft_lzw hf]
    have hback := hshape.window.1
    have hback' := hshape'.window.1
    have hend := hshape.ipos
    have hend' := hshape'.ipos
    have hlen := honly.inLen
    have hbits := hr.lzw.nbit.1
    simp only [State.r24BitsLeft, State.bitPos, nbitMin] at hpos hbits ⊢
    omega
  have hbound := hshape'.ipos
  obtain ⟨i, b, m, n, rfl⟩ : ∃ i b m n, u = s.withR24 i b m n := ⟨_, _, _, _, honly⟩
  exact ⟨hcall, rfl, hfwd, hbound, hwork, rfl, rfl, rfl⟩

/-- Bits taken off `RMSB` come off what is left of a Huffman stream. -/
theorem State.TookBits.tookInput {s u : State} {n : Nat} (hf : s.format = .huff) (hi : s.ipos ≤ s.inLen)
    (h : s.TookBits n u) : s.TookInput n u := by
  have hwork : u.workLeft + n ≤ s.workLeft := by
    rw [State.workLeft_huff (h.sameCall.format.trans hf), State.workLeft_huff hf]
    have hbits := h.bits
    omega
  obtain ⟨honly, -, hfwd, hbound, -⟩ := id h
  have hcall := h.sameCall
  obtain ⟨i, c, m, rfl⟩ : ∃ i c m, u = s.withRmsb i c m := ⟨_, _, _, honly⟩
  exact ⟨hcall, rfl, hfwd, hbound hi, hwork, rfl, rfl, rfl⟩

/-- A DIET token takes one bit at least (30_encoding R102), or the stream is too short for it. -/
theorem State.Inv.follow_diet {s : State} (h : s.Inv) (hrun : s.stState = .run) (hf : s.format = .diet) :
    s.follow (dietReading s.cfg) = .raise .truncatedStream ∨
      ∃ i u, s.follow (dietReading s.cfg) = .ok i u ∧ s.TookInput 1 u := by
  have hr := (State.runOk_diet_iff hf).1 (h.run hrun)
  obtain ⟨next, hnext⟩ : ∃ next, dietReading s.cfg = .bit next := ⟨_, rfl⟩
  have hnoSym : (Reading.bit next).noSym := hnext ▸ dietReading_noSym s.cfg
  rw [hnext]
  rcases s.r16Bit_cases with ⟨hpad, -⟩ | ⟨-, v, hbit⟩
  · exact .inl (State.follow_bit_of_pad next hpad)
  · obtain ⟨honly, hdiet, hfwd, hbound, hleft⟩ := State.r16Bit_ok hr.diet hr.ipos hbit
    have hfollow : s.follow (.bit next) = v.follow (next (s.w.getLsbD 0)) := by rw [State.follow, hbit, Res.bind_ok]
    rw [hfollow]
    rcases State.follow_noSym (hnoSym _) hdiet hbound with hr' | ⟨i, u, hr', honly', -, hfwd', hbound', hleft'⟩
    · exact .inl hr'
    · have hcall := (s.r16Bit_keeps _ _ hbit).trans (v.follow_keeps _ _ _ hr')
      have hwork : u.workLeft + 1 ≤ s.workLeft := by
        rw [State.workLeft_diet (hcall.format.trans hf), State.workLeft_diet hf]
        omega
      refine .inr ⟨i, u, hr', ?_⟩
      have hfwd'' := hfwd.trans hfwd'
      obtain ⟨j, w, c, m, rfl⟩ : ∃ j w c m, u = s.withR16 j w c m := ⟨_, _, _, _, honly.trans honly'⟩
      exact ⟨hcall, rfl, hfwd'', hbound', hwork, rfl, rfl, rfl⟩

section Fetch
variable {s : State} (h : s.Inv) (hrun : s.stState = .run)
include h hrun

/-- An instruction fetched with the call still in order behind it is well formed there
(`fetchedInstructionsAreWellFormed`). -/
theorem State.Inv.fetchInOrder_of_execute {i : Instr} {u : State} (hfetch : s.fetch = .execute i u)
    (htook : s.TookInput 1 u) (hinv : u.Inv) (hroom : s.format = .diet → s.idx ≠ s.payloadSize) :
    s.FetchInOrder s.fetch := by
  rw [hfetch]
  refine .instruction ⟨htook, hinv, htook.call.stState.trans hrun, ?_, ?_⟩
  · rw [htook.ctx]
    exact fetchedInstructionsAreWellFormed s u i h hrun hfetch
  · rw [htook.call.format, htook.idx, htook.call.payloadSize]
    exact hroom

theorem State.Inv.fetchInOrder_lzw (hf : s.format = .lzw) : s.FetchInOrder s.fetch := by
  have hfetch : s.fetch = s.fetchLzw := fetch_lzw hrun hf
  rw [State.fetchLzw] at hfetch
  rcases Nat.lt_or_ge s.navail.toNat s.nbit.toNat with hshort | hlong
  · rw [State.r24GetCw_raise hshort] at hfetch
    exact hfetch ▸ .aborted .truncatedStream
  · have hcw := State.r24GetCw_ok hlong
    rw [hcw] at hfetch
    exact h.fetchInOrder_of_execute hrun hfetch (h.tookInput_getCw hrun hf hcw) (h.getCw hrun hf hcw) (by simp [hf])

theorem State.Inv.fetchInOrder_huff (hf : s.format = .huff) : s.FetchInOrder s.fetch := by
  have hr := (State.runOk_huff_iff hf).1 (h.run hrun)
  have hfetch : s.fetch = s.fetchHuff := fetch_huff hrun hf
  rw [State.fetchHuff] at hfetch
  rcases State.huffSym_answers hr.huff.nodes with hsym | hsym | ⟨r, u, hsym, htook⟩ <;> rw [hsym] at hfetch
  · exact hfetch ▸ .aborted .malformedTree
  · exact hfetch ▸ .aborted .truncatedStream
  · cases r with
    | none => exact hfetch ▸ .finished (htook.tookInput hf hr.ipos)
    | some a =>
      have hnodes : u.node.length = u.nnodes.toNat := by rw [htook.node, htook.nnodes]; exact hr.huff.nodes
      replace hfetch : s.fetch = (u.follow (huffReading a)).fetched s := hfetch
      rcases State.follow_onlySym (huffReading_onlySym a) hnodes with hx | hx | ⟨i, v, hx, htook'⟩ <;>
        rw [hx] at hfetch
      · exact hfetch ▸ .aborted .malformedTree
      · exact hfetch ▸ .aborted .truncatedStream
      · have hall := htook.trans htook'
        exact h.fetchInOrder_of_execute hrun hfetch (hall.tookInput hf hr.ipos) (h.tookBits hrun hf hall)
          (by simp [hf])

theorem State.Inv.fetchInOrder_diet (hf : s.format = .diet) : s.FetchInOrder s.fetch := by
  have hfetch : s.fetch = s.fetchDiet := fetch_diet hrun hf
  rw [State.fetchDiet] at hfetch
  split at hfetch
  · have hipos := ((State.runOk_diet_iff hf).1 (h.run hrun)).ipos
    exact hfetch ▸ .finished ⟨.refl s, rfl, Nat.le_refl _, hipos, Nat.le_refl _, rfl, rfl, rfl⟩
  · next hroom =>
    rcases h.follow_diet hrun hf with hr | ⟨i, u, hr, htook⟩ <;> rw [hr] at hfetch
    · exact hfetch ▸ .aborted .truncatedStream
    · exact h.fetchInOrder_of_execute hrun hfetch htook (h.followDiet hrun hf hr) fun _ => hroom

/-- The fetch of a running decoder in order never stops; where it gives an instruction, the call is still in order
(42_lzw R190, 43_huffman_rle R230, 44_diet R260). -/
theorem State.Inv.fetchInOrder (hf : s.format ≠ .none) : s.FetchInOrder s.fetch := by
  cases hfmt : s.format with
  | none => exact absurd hfmt hf
  | lzw => exact h.fetchInOrder_lzw hrun hfmt
  | huff => exact h.fetchInOrder_huff hrun hfmt
  | diet => exact h.fetchInOrder_diet hrun hfmt

end Fetch

end Sys2Proof.Machine

/-! ### Every step answers -/

namespace Sys2Proof.Machine

/-- A well-formed LZW instruction is the one some codeword stands for. -/
theorem exists_codeword {x : Ctx} {i : Instr} (hx : x.format = .lzw) (h : i.wellFormed x = true) :
    ∃ c, i = decodeLzw x c := by
  obtain ⟨c, -, hc⟩ := decode_lzw_eq_ok hx (decodeOfEncodeIsTheInstruction x i [] h)
  exact ⟨c, hc⟩

/-- A micro-operation that does not stop makes a meaning that answers. -/
theorem Res.outcome_answers {s : State} {r : Res Unit} (h : (∃ t, r = .ok () t) ∨ ∃ k, r = .raise k) :
    ∃ t, r.outcome s = .next t := by
  rcases h with ⟨t, rfl⟩ | ⟨k, rfl⟩
  · exact ⟨t, rfl⟩
  · exact ⟨_, rfl⟩

/-- `LZW.TAIL` does not stop: the previous entry is present, and an emission never stops (42_lzw R204). -/
theorem State.LzwOk.lzwTail_answers {s : State} {str : List Byte} (h : s.LzwOk) (hd : s.dict.wf) (hstr : str ≠ [])
    (cw : Code) : ∃ t, (s.lzwTail str cw).outcome s = .next t := by
  obtain ⟨u, hu, -⟩ := State.lzwAppend_spec h hd hstr
  apply Res.outcome_answers
  rw [State.lzwTail, hu, Res.bind_ok]
  rcases u.emit_cases str with ⟨v, hv⟩ | hv <;> rw [hv]
  · exact .inl ⟨_, rfl⟩
  · exact .inr ⟨_, rfl⟩

/-- The meaning of a Huffman symbol does not stop, from any state. -/
theorem exec_huff_answers {i : Instr} (s : State) (hi : i.format = .huff) : ∃ t, exec i s = .next t := by
  have hcopies : ∀ n, ∃ t, (s.appendRun s.last n).outcome s = .next t := fun n => by
    apply Res.outcome_answers
    rw [State.appendRun_eq_emit]
    exact (s.emit_cases _).imp_right fun h => ⟨_, h⟩
  cases i with
  | litsym b =>
    rw [exec_litsym]
    apply Res.outcome_answers
    rcases s.emit_cases [b] with ⟨u, hu⟩ | hu <;> rw [hu]
    · exact .inl ⟨_, rfl⟩
    · exact .inr ⟨_, rfl⟩
  | run h n => exact hcopies _
  | run8 h a => exact hcopies _
  | run16 h a b => exact hcopies _
  | _ => cases hi

/-- The meaning of a DIET token does not stop while the buffer has room (20_memory R62). -/
theorem exec_diet_answers {i : Instr} {s : State} (hi : i.format = .diet) (hidx : s.idx.toNat < s.payloadSize.toNat) :
    ∃ t, exec i s = .next t := by
  rcases exec_diet_cases s hi with he | ⟨v, he⟩ | ⟨offset, count, he⟩ <;> rw [he]
  · exact ⟨_, rfl⟩
  · exact Res.outcome_answers (.inl ⟨_, State.dietPut_ok v hidx⟩)
  · apply Res.outcome_answers
    by_cases hsrc : (s.idx.toNat : Int) + offset < 0 ∨ (s.idx.toNat : Int) ≤ s.idx.toNat + offset
    · exact .inr ⟨_, State.dietCopy_raise count hsrc⟩
    · exact .inl ⟨_, State.dietCopy_ok count hidx.le (by omega) (by omega)⟩

/-- The initialisation of a decoder does not stop. -/
theorem State.initDecoder_answers (s : State) : (∃ t, s.initDecoder = .ok () t) ∨ ∃ k, s.initDecoder = .raise k := by
  unfold State.initDecoder
  split
  · exact .inl ⟨_, rfl⟩
  · rcases s.huffInit.parseTree_cases with ⟨-, hp⟩ | ⟨-, hp⟩
    · exact .inl ⟨_, hp⟩
    · exact .inr ⟨_, hp⟩
  · exact .inl ⟨_, rfl⟩
  · exact .inl ⟨_, rfl⟩

theorem State.route_answers (f : Format) (size : BitVec 21) (s : State) : ∃ t, s.route f size = .next t := by
  by_cases h : size = 0
  · exact ⟨_, h ▸ s.route_zero f⟩
  · rw [State.route_of_ne_zero f s h]
    exact Res.outcome_answers (State.initDecoder_answers _)

/-- A call in order executes a well-formed instruction of its decoder without a stop. -/
theorem State.Gives.exec_answers {s u : State} {i : Instr} (h : s.Gives i u) (hf : u.format ≠ .none) :
    ∃ t, exec i u = .next t := by
  obtain ⟨hi, -⟩ := Instr.wellFormed_iff.1 h.wellFormed
  cases hfmt : u.format with
  | none => exact absurd hfmt hf
  | lzw =>
    have hlzw := ((State.runOk_lzw_iff hfmt).1 (h.inv.run h.run)).lzw
    obtain ⟨c, rfl⟩ := exists_codeword (x := u.ctx) hfmt h.wellFormed
    rcases h.inv.execLzw_eq h.run hfmt c with he | ⟨-, he⟩ | ⟨k, he⟩ | ⟨str, cw, hstr, he⟩
    · exact ⟨_, he⟩
    · exact ⟨_, he⟩
    · exact ⟨_, he⟩
    · rw [he]
      exact hlzw.lzwTail_answers h.inv.mem.dict hstr cw
  | huff => exact exec_huff_answers u (hi.trans hfmt)
  | diet =>
    have hidx := ((State.runOk_diet_iff hfmt).1 (h.inv.run h.run)).diet.idx
    have hne : u.idx.toNat ≠ u.payloadSize.toNat := fun heq => h.room hfmt (BitVec.eq_of_toNat_eq heq)
    exact exec_diet_answers (hi.trans hfmt) (by omega)

/-- The prologue of a call answers: the header is there in full, or the call is aborted. -/
theorem step_header_answers {s : State} (h : s.Inv) (hrun : s.stState = .run) (hf : s.format = .none) :
    ∃ t, step s = .next t := by
  have hzero := ((State.runOk_none_iff hf).1 (h.run hrun)).2.1
  have hfetch := fetch_none hrun hf
  rcases s.fetchHeader_cases with ⟨k, hk⟩ | ⟨hlen, hk⟩ <;> rw [hk] at hfetch
  · exact ⟨_, step_of_ended hfetch⟩
  · obtain ⟨i, hi⟩ := State.follow_onlyRaw (s := s) (headerReading_onlyRaw s.ctx (s.inByte 0) (s.inByte 1))
      (by rw [hzero, Nat.zero_add]; exact hlen)
    rw [hi] at hfetch
    obtain ⟨f, size, -, hroute⟩ := exec_route _ (State.follow_yields (headerReading_yields _ _ _) hi)
    rw [step_of_execute hfetch, hroute]
    exact State.route_answers f size _

/-- Starting a call answers. -/
theorem State.startCall_answers (c : Call) (rest : List Call) (s : State) : ∃ t, s.startCall c rest = .next t := by
  have henter : ∀ f start size, ∃ t, (s.resetForCall c rest).enterDecoder f start size = .next t := by
    intro f start size
    by_cases hsrc : c.src = .absent
    · exact ⟨_, State.enterDecoder_of_absent hsrc rest f start size s⟩
    · rw [State.enterDecoder_of_src hsrc]
      exact Res.outcome_answers (State.initDecoder_answers _)
  unfold State.startCall
  split
  · exact ⟨_, rfl⟩
  · exact henter _ _ _
  · exact henter _ _ _
  · exact henter _ _ _

/-- Settles O51: by where the machine stands. The fetch of a decoder in order has no fault among its outcomes
(`State.Inv.fetchInOrder`), and the instruction it gives answers (`State.Gives.exec_answers`). -/
theorem stepAlwaysAnswers : Obligations.StepAlwaysAnswers := by
  intro s h
  by_cases hrun : s.stState = .run
  · by_cases hf : s.format = .none
    · exact step_header_answers h hrun hf
    · have hout := h.fetchInOrder hrun hf
      generalize hfetch : s.fetch = o at hout
      cases hout with
      | aborted k => exact ⟨_, step_of_ended hfetch⟩
      | finished hu => exact ⟨_, step_of_ended hfetch⟩
      | instruction hu =>
        rw [step_of_execute hfetch]
        exact hu.exec_answers (hu.took.call.format ▸ hf)
  · rw [step_between hrun]
    cases hp : s.pending with
    | nil => exact ⟨s, State.betweenCalls_nil hp⟩
    | cons c rest =>
      rw [State.betweenCalls_cons hp]
      exact s.startCall_answers c rest

end Sys2Proof.Machine

/-! ### A step that does not abort: the cursor, the output and what is left of the stream -/

namespace Sys2Proof.Machine

/-- The number of output bytes written: `idx` in a DIET call, else `olen` (10_state R32, R37). -/
def State.written (s : State) : Nat := if s.format = .diet then s.idx.toNat else s.olen

/-- What the meaning of a decoder's instruction leaves alone where it does not abort: the input, the readers, the status but
for the normal end, and the bytes written; and it stays within the capacity of `OUT`. -/
structure State.Executed (s t : State) : Prop where
  input : s.SameInput t
  readers : s.SameReaders t
  status : t.stState = .done ∨ t.stState = s.stState
  kept : ∀ a, a < s.written → t.out.read a = s.out.read a
  capped : ∀ cap, s.cfg.outCap = some cap → s.olen ≤ cap → t.olen ≤ cap

/-- The normal end of a call writes the status only. -/
theorem State.executed_finish (s : State) : s.Executed s.finish :=
  ⟨s.sameInput_finish, ⟨rfl, rfl, rfl, rfl, rfl, rfl, rfl, rfl, rfl⟩, .inl rfl, fun _ _ => rfl, fun _ _ h => h⟩

/-- A completed codeword appends above `olen`. -/
theorem State.Inv.executed_lzw {s t : State} {c : Code} (h : s.Inv) (hrun : s.stState = .run) (hf : s.format = .lzw)
    (ht : exec (decodeLzw s.ctx c) s = .next t) (herr : t.stState ≠ .err) : s.Executed t := by
  have hwritten : s.written = s.olen := if_neg (by simp [hf])
  rcases h.execLzw_cases hrun hf ht with he | rfl | ⟨-, rfl⟩ | ⟨str, cw, hdone, hcapped, -⟩
  · exact absurd he herr
  · exact s.executed_finish
  · exact ⟨⟨rfl, rfl, rfl, rfl, rfl⟩, ⟨rfl, rfl, rfl, rfl, rfl, rfl, rfl, rfl, rfl⟩, .inr rfl, fun _ _ => rfl,
      fun _ _ h => h⟩
  · exact ⟨hdone.call.sameInput, hdone.readers, .inr hdone.call.stState,
      fun a ha => hdone.appended.others a (.inl (hwritten ▸ ha)), hcapped⟩

/-- A completed Huffman symbol appends above `olen`. -/
theorem State.Inv.executed_huff {s t : State} {i : Instr} (h : s.Inv) (hf : s.format = .huff) (hi : i.format = .huff)
    (ht : exec i s = .next t) (herr : t.stState ≠ .err) : s.Executed t := by
  have hwritten : s.written = s.olen := if_neg (by simp [hf])
  rcases exec_huff_cases hi ht with ⟨k, rfl⟩ | ⟨str, u, b, hemit, rfl⟩
  · exact absurd rfl herr
  · obtain ⟨happ, heq, -, -⟩ := State.emit_eq_ok h.mem.out hemit
    have hcapped := fun cap => State.emit_capped (cap := cap) hemit
    obtain ⟨o, l, rfl⟩ : ∃ o l, u = { s with out := o, olen := l } := ⟨_, _, heq⟩
    exact ⟨⟨rfl, rfl, rfl, rfl, rfl⟩, ⟨rfl, rfl, rfl, rfl, rfl, rfl, rfl, rfl, rfl⟩, .inr rfl,
      fun a ha => happ.others a (.inl (hwritten ▸ ha)), hcapped⟩

/-- A completed DIET token writes at `idx` and above. -/
theorem State.Inv.executed_diet {s t : State} {i : Instr} (h : s.Inv) (hrun : s.stState = .run) (hf : s.format = .diet)
    (hi : i.format = .diet) (ht : exec i s = .next t) (herr : t.stState ≠ .err) : s.Executed t := by
  have hwritten : s.written = s.idx.toNat := if_pos hf
  have hidx := ((State.runOk_diet_iff hf).1 (h.run hrun)).diet.idx
  have hinput := exec_sameInput (by simp [hi]) ht
  rcases exec_diet_cases s hi with he | ⟨v, he⟩ | ⟨offset, count, he⟩ <;> rw [he] at ht
  · cases ht
    exact s.executed_finish
  · rcases Res.outcome_eq_next.1 ht with hok | ⟨k, -, rfl⟩
    · obtain ⟨_, u, hwrite, hend⟩ := Res.bind_eq_ok.1 hok
      cases hend
      rw [State.outWrite] at hwrite
      split at hwrite <;> cases hwrite
      refine ⟨hinput, ⟨rfl, rfl, rfl, rfl, rfl, rfl, rfl, rfl, rfl⟩, .inr rfl, fun a ha => ?_, fun _ _ h => h⟩
      exact (Memory.read_write h.mem.out _ _ _).trans (if_neg (by omega))
    · exact absurd rfl herr
  · by_cases hsrc : (s.idx.toNat : Int) + offset < 0 ∨ (s.idx.toNat : Int) ≤ s.idx.toNat + offset
    · rw [State.dietCopy_raise count hsrc] at ht
      cases ht
      exact absurd rfl herr
    · obtain ⟨u, hu, hcopied⟩ := State.dietCopy_copied (offset := offset) count h.mem.out hidx (by omega) (by omega)
      rw [hu] at ht
      cases ht
      exact ⟨hinput, hcopied.readers, .inr hcopied.call.stState, fun a ha => hcopied.below a (hwritten ▸ ha),
        fun cap _ hlen => hcopied.olen ▸ hlen⟩

/-- The instruction that a fetch in order has given leaves the input, the readers and the bytes written alone where it
does not abort. -/
theorem State.Gives.executed {s u t : State} {i : Instr} (h : s.Gives i u) (hf : u.format ≠ .none)
    (ht : exec i u = .next t) (herr : t.stState ≠ .err) : u.Executed t := by
  obtain ⟨hi, -⟩ := Instr.wellFormed_iff.1 h.wellFormed
  cases hfmt : u.format with
  | none => exact absurd hfmt hf
  | lzw =>
    obtain ⟨c, rfl⟩ := exists_codeword (x := u.ctx) hfmt h.wellFormed
    exact h.inv.executed_lzw h.run hfmt ht herr
  | huff => exact h.inv.executed_huff hfmt (hi.trans hfmt) ht herr
  | diet => exact h.inv.executed_diet h.run hfmt (hi.trans hfmt) ht herr

/-- What is left of the stream is read off the readers and the input. -/
theorem State.Executed.workLeft_eq {s t : State} (h : s.Executed t) : t.workLeft = s.workLeft := by
  obtain ⟨⟨hformat, -, -, hsrc, -⟩, ⟨hipos, -, -, hnavail, -, hbitcnt, -, -, hvalid⟩, -, -, -⟩ := h
  simp only [State.workLeft, State.r24BitsLeft, State.rmsbBitsLeft, State.r16BitsLeft, State.inLen, hformat, hsrc, hipos,
    hnavail, hbitcnt, hvalid]

/-- A step of a running call that does not abort it: the stream cursor has not gone back or past `IN_LEN`, the call has
ended or goes on with less of the stream left, the bytes written are as they were, and `OUT` is within its capacity. -/
structure State.Advanced (s t : State) : Prop where
  fwd : s.ipos ≤ t.ipos
  bound : t.ipos ≤ t.inLen
  less : t.stState = .done ∨ (t.stState = s.stState ∧ t.workLeft < s.workLeft)
  kept : ∀ a, a < s.written → t.out.read a = s.out.read a
  capped : ∀ cap, s.cfg.outCap = some cap → s.olen ≤ cap → t.olen ≤ cap

theorem State.TookInput.written {s u : State} {n : Nat} (h : s.TookInput n u) : u.written = s.written := by
  rw [State.written, State.written, h.call.format, h.idx, h.olen]

/-- Bits taken and an instruction executed advance the call. -/
theorem State.TookInput.advanced {s u t : State} (h : s.TookInput 1 u) (h' : u.Executed t) : s.Advanced t where
  fwd := h'.readers.ipos ▸ h.fwd
  bound := by
    rw [State.inLen, h'.readers.ipos, h'.input.src]
    exact h.bound
  less := h'.status.imp_right fun hst => ⟨hst.trans h.call.stState, by rw [h'.workLeft_eq]; exact h.work⟩
  kept a ha := (h'.kept a (h.written ▸ ha)).trans (by rw [h.out])
  capped cap hcap hlen := h'.capped cap (h.call.cfg ▸ hcap) (h.olen ▸ hlen)

theorem State.TookInput.advanced_finish {s u : State} (h : s.TookInput 0 u) : s.Advanced u.finish where
  fwd := h.fwd
  bound := h.bound
  less := .inl rfl
  kept a _ := by rw [State.finish_out, h.out]
  capped cap _ hlen := by rwa [State.finish_olen, h.olen]

/-- A step of a running decoder in order advances the call or aborts it. -/
theorem step_decoder_advanced {s t : State} (h : s.Inv) (hrun : s.stState = .run) (hf : s.format ≠ .none)
    (ht : step s = .next t) (herr : t.stState ≠ .err) : s.Advanced t := by
  have hout := h.fetchInOrder hrun hf
  generalize hfetch : s.fetch = o at hout
  cases hout with
  | aborted k => cases (step_of_ended hfetch).symm.trans ht; exact absurd rfl herr
  | finished hu => cases (step_of_ended hfetch).symm.trans ht; exact hu.advanced_finish
  | instruction hu =>
    exact hu.took.advanced (hu.executed (hu.took.call.format ▸ hf) ((step_of_execute hfetch).symm.trans ht) herr)

/-- What an initialised decoder has left of the stream from its payload byte on: no more than the bits of it
(40_dispatcher R134). -/
structure State.PayloadLeft (s t : State) : Prop where
  fwd : s.ipos ≤ t.ipos
  bound : t.ipos ≤ t.inLen
  work : t.workLeft ≤ 8 * (s.inLen - s.ipos) + 1
  olen : t.olen = 0

/-- The bit stream of a Huffman call is what the tree section leaves (43_huffman_rle R231). -/
theorem State.parseTree_left {s t : State} (hf : s.format = .huff) (ht : s.huffInit.parseTree = .ok () t) :
    s.PayloadLeft t := by
  rcases s.huffInit.parseTree_cases with ⟨hlen, hp⟩ | ⟨-, hp⟩ <;> cases hp.symm.trans ht
  generalize (word16 _ _).toNat / 2 = n at hlen ⊢
  change s.ipos + 2 + 2 * n ≤ s.inLen at hlen
  have hwork : 0 + 8 * (s.inLen - (s.ipos + 2 + 2 * n)) + 1 ≤ 8 * (s.inLen - s.ipos) + 1 := by omega
  exact ⟨show s.ipos ≤ s.ipos + 2 + 2 * n by omega, hlen, (State.workLeft_huff (by exact hf)).trans_le hwork, rfl⟩

section Init
variable {s : State} (h : s.Entering)
include h

/-- The primed window and the bytes behind it are the whole payload (42_lzw R191). -/
theorem State.Entering.lzwInit_left (hf : s.format = .lzw) : s.PayloadLeft s.lzwInit := by
  have hi := h.ipos
  obtain ⟨i, b, n, heq, -, -, hipos, hnavail⟩ := State.r24Prime_withR24 (s := s.lzwInitUnit) hi
  change i = min (s.ipos + 3) s.inLen at hipos
  change n.toNat = 8 * (i - s.ipos) at hnavail
  rw [State.lzwInit_eq, heq]
  have hwork : n.toNat + 8 * (s.inLen - i) + 1 ≤ 8 * (s.inLen - s.ipos) + 1 := by omega
  exact ⟨show s.ipos ≤ i by omega, show i ≤ s.inLen by omega, (State.workLeft_lzw (by exact hf)).trans_le hwork, rfl⟩

/-- The first word and the bytes behind it are the whole payload (44_diet R260). -/
theorem State.Entering.dietInit_left (hf : s.format = .diet) : s.PayloadLeft s.dietInit := by
  have hi := h.ipos
  obtain ⟨i, w, c, v, heq, -, hipos, -, hvalid⟩ := State.r16Fill_withR16 (s := s.dietInitUnit) hi
  change i = min (s.ipos + 2) s.inLen at hipos
  change v.toNat = 8 * (i - s.ipos) at hvalid
  rw [State.dietInit_eq, heq]
  have hwork : v.toNat + 8 * (s.inLen - i) + 1 ≤ 8 * (s.inLen - s.ipos) + 1 := by omega
  exact ⟨show s.ipos ≤ i by omega, show i ≤ s.inLen by omega, (State.workLeft_diet (by exact hf)).trans_le hwork, h.olen⟩

theorem State.Entering.initDecoder_left {t : State} (hf : s.format ≠ .none) (ht : s.initDecoder = .ok () t) :
    s.PayloadLeft t := by
  unfold State.initDecoder at ht
  cases hfmt : s.format with
  | none => exact absurd hfmt hf
  | lzw => simp only [hfmt] at ht; cases ht; exact h.lzwInit_left hfmt
  | huff => simp only [hfmt] at ht; exact State.parseTree_left hfmt ht
  | diet => simp only [hfmt] at ht; cases ht; exact h.dietInit_left hfmt

end Init

/-- A container route that does not abort ends the call, or leaves no more than the payload bits (40_dispatcher R134,
R135). -/
theorem State.Entering.route_left {s t : State} {f : Format} {size : BitVec 21} (h : s.Entering) (hf : f ≠ .none)
    (ht : s.route f size = .next t) (herr : t.stState ≠ .err) :
    s.ipos ≤ t.ipos ∧ t.ipos ≤ t.inLen ∧
      (t.stState = .done ∨ (t.stState = s.stState ∧ t.workLeft ≤ 8 * (s.inLen - s.ipos) + 1)) ∧ t.olen = 0 := by
  by_cases hsize : size = 0
  · rw [hsize, State.route_zero] at ht
    cases ht
    exact ⟨Nat.le_refl _, h.ipos, .inl rfl, h.olen⟩
  · rw [State.route_of_ne_zero f s hsize] at ht
    rcases Res.outcome_eq_next.1 ht with hok | ⟨k, -, rfl⟩
    · have hleft := State.Entering.initDecoder_left (s := s.setFormat f size) { h with } hf hok
      exact ⟨hleft.fwd, hleft.bound, .inr ⟨(State.initDecoder_keeps _ _ _ hok).stState, hleft.work⟩, hleft.olen⟩
    · exact absurd rfl herr

/-- The step of the container header advances the call or aborts it. -/
theorem step_header_advanced {s t : State} (h : s.Inv) (hrun : s.stState = .run) (hf : s.format = .none)
    (ht : step s = .next t) (herr : t.stState ≠ .err) : s.Advanced t := by
  obtain ⟨hr, hzero, -⟩ := (State.runOk_none_iff hf).1 (h.run hrun)
  have hfetch := fetch_none hrun hf
  rcases s.fetchHeader_cases with ⟨k, hk⟩ | ⟨hlen, hk⟩ <;> rw [hk] at hfetch
  · cases (step_of_ended hfetch).symm.trans ht
    exact absurd rfl herr
  · rcases step_of_fetched hfetch ht with ⟨i, u, hi, hexec⟩ | ⟨k, rfl⟩
    · have hall : s.ipos + s.headerLen ≤ s.inLen := by omega
      obtain ⟨j, hj⟩ := State.follow_onlyRaw (headerReading_onlyRaw s.ctx (s.inByte 0) (s.inByte 1)) hall
      cases hj.symm.trans hi
      obtain ⟨f, size, hne, hroute⟩ := exec_route { s with ipos := s.ipos + s.headerLen }
        (State.follow_yields (headerReading_yields _ _ _) hi)
      obtain ⟨hfwd, hbound, hleft, holen⟩ := State.Entering.route_left
        (s := { s with ipos := s.ipos + s.headerLen }) { hr with ipos := hall } hne (hroute.symm.trans hexec) herr
      change s.ipos + s.headerLen ≤ t.ipos at hfwd
      change t.stState = .done ∨
        (t.stState = s.stState ∧ t.workLeft ≤ 8 * (s.inLen - (s.ipos + s.headerLen)) + 1) at hleft
      have hwork : s.workLeft = 8 * s.inLen + 2 := by simp only [State.workLeft, hf]
      have hwritten : s.written = 0 := (if_neg (by simp [hf])).trans hr.olen
      refine ⟨by omega, hbound, hleft.imp_right fun hle => ⟨hle.1, by omega⟩, fun a ha => absurd ha (by omega), ?_⟩
      exact fun cap _ _ => holen ▸ Nat.zero_le cap
    · exact absurd rfl herr

/-- A step of a running call in order advances it or aborts it. -/
theorem step_advanced {s t : State} (h : s.Inv) (hrun : s.stState = .run) (ht : step s = .next t)
    (herr : t.stState ≠ .err) : s.Advanced t := by
  by_cases hf : s.format = .none
  · exact step_header_advanced h hrun hf ht herr
  · exact step_decoder_advanced h hrun hf ht herr

/-- A step of a running call in order ends it, or leaves it running with less of the stream left (70_reset R348). -/
theorem step_ends_or_goes_on {s t : State} (h : s.Inv) (hrun : s.stState = .run) (ht : step s = .next t) :
    (t.stState = .done ∨ t.stState = .err) ∨ (t.stState = .run ∧ t.workLeft < s.workLeft) := by
  by_cases herr : t.stState = .err
  · exact .inl (.inr herr)
  · exact (step_advanced h hrun ht herr).less.imp .inl fun hgo => ⟨hgo.1.trans hrun, hgo.2⟩

/-- Settles O52: `step_ends_or_goes_on`. -/
theorem everyRunningStepMakesProgress : Obligations.EveryRunningStepMakesProgress := fun _ _ h hrun ht =>
  (step_ends_or_goes_on h hrun ht).imp (by rintro (hend | hend) <;> simp [hend]) And.right

/-- Settles O56: the cursor of a step that has advanced the call. -/
theorem streamCursorOnlyAdvances : Obligations.StreamCursorOnlyAdvances := fun _ _ h hrun ht herr =>
  have hadv := step_advanced h hrun ht herr
  ⟨hadv.fwd, hadv.bound⟩

/-- Settles O57: the bytes written, after a step that has advanced the call. -/
theorem writtenOutputIsNeverChanged : Obligations.WrittenOutputIsNeverChanged := fun _ _ h hrun _ ht herr =>
  (step_advanced h hrun ht herr).kept

/-- Settles O59: the length of the output, after a step that has advanced the call. -/
theorem outputStaysWithinItsCapacity : Obligations.OutputStaysWithinItsCapacity :=
  fun _ _ cap h hrun hcap hlen ht herr => (step_advanced h hrun ht herr).capped cap hcap hlen

theorem State.workLeft_pos (s : State) : 1 ≤ s.workLeft := by
  unfold State.workLeft
  split <;> omega

/-- A running call in order ends within any number of steps that is no less than its work left. -/
theorem run_ends {n : Nat} {s : State} (h : s.Inv) (hrun : s.stState = .run) (hn : s.workLeft ≤ n) :
    ∃ k t, k ≤ s.workLeft ∧ core.run k s = .next t ∧ (t.stState = .done ∨ t.stState = .err) := by
  induction n generalizing s with
  | zero =>
    have hpos := s.workLeft_pos
    omega
  | succ n ih =>
    obtain ⟨u, hu⟩ := stepAlwaysAnswers s h
    rcases step_ends_or_goes_on h hrun hu with hend | ⟨hgo, hless⟩
    · exact ⟨1, u, s.workLeft_pos, (run_succ 0 hu).trans (run_zero u), hend⟩
    · obtain ⟨k, t, hk, ht, hend⟩ := ih (stepKeepsTheInvariant s u h hu) hgo (by omega)
      exact ⟨k + 1, t, by omega, (run_succ k hu).trans ht, hend⟩

/-- Settles O53: by induction on a bound of the work left (`run_ends`). -/
theorem everyCallEnds : Obligations.EveryCallEnds := fun _ h hrun => run_ends h hrun le_rfl

end Sys2Proof.Machine

/-! ### PAYLOAD_SIZE in an LZW or Huffman call -/

namespace Sys2Proof.Machine

/-- A state with another `PAYLOAD_SIZE`. -/
def State.withSize (size : BitVec 21) (s : State) : State := { s with payloadSize := size }

/-- An answer with another `PAYLOAD_SIZE` in its state. -/
def Res.withSize {α : Type} (size : BitVec 21) : Res α → Res α
  | .ok a s => .ok a (s.withSize size)
  | .raise k => .raise k
  | .fault f => .fault f

/-- A micro-operation that neither reads nor writes `PAYLOAD_SIZE`. -/
def IgnoresSize {α : Type} (op : State → Res α) : Prop :=
  ∀ (size : BitVec 21) (s : State), op (s.withSize size) = (op s).withSize size

theorem IgnoresSize.bind {α β : Type} {op : State → Res α} {next : α → State → Res β} (h : IgnoresSize op)
    (h' : ∀ a, IgnoresSize (next a)) : IgnoresSize fun s => (op s).bind next := by
  intro size s
  simp only [h size s]
  cases op s with
  | ok a u => exact h' a size u
  | raise k => rfl
  | fault f => rfl

theorem ignoresSize_ok {α : Type} (a : α) : IgnoresSize fun s => .ok a s := fun _ _ => rfl

theorem ignoresSize_raise {α : Type} (k : ErrKind) : IgnoresSize fun _ => (.raise k : Res α) := fun _ _ => rfl

/-- A meaning that ends in such a micro-operation goes on alike with another `PAYLOAD_SIZE`. -/
theorem IgnoresSize.outcome {op : State → Res Unit} (h : IgnoresSize op) {s t : State} (ht : (op s).outcome s = .next t)
    (size : BitVec 21) : (op (s.withSize size)).outcome (s.withSize size) = .next (t.withSize size) := by
  rw [h]
  rcases Res.outcome_eq_next.1 ht with hok | ⟨k, hk, rfl⟩
  · rw [hok]; rfl
  · rw [hk]; rfl

/-! #### The readers -/

theorem inReadRequired_ignoresSize : IgnoresSize State.inReadRequired := by
  intro size s
  rcases s.inReadRequired_cases with ⟨hlt, h⟩ | ⟨hge, h⟩ <;> rw [h]
  · exact State.inReadRequired_ok (s := s.withSize size) hlt
  · exact State.inReadRequired_raise (s := s.withSize size) hge

theorem rmsbBit_ignoresSize : IgnoresSize State.rmsbBit := by
  intro size s
  by_cases hb : s.bitcnt = 0
  · have hread : IgnoresSize fun s => s.inReadRequired.bind fun b s' =>
        ({ s' with cur := b, bitcnt := 8 } : State).rmsbTake :=
      inReadRequired_ignoresSize.bind fun b _ _ => rfl
    exact (if_pos hb).trans ((hread size s).trans (congrArg _ (if_pos hb).symm))
  · rw [State.rmsbBit_take hb]
    exact State.rmsbBit_take (s := s.withSize size) hb

theorem huffNode_ignoresSize (i : Nat) : IgnoresSize (State.huffNode i) := by
  intro size s
  show (if s.nnodes.toNat ≤ i then _ else _) = Res.withSize size (if s.nnodes.toNat ≤ i then _ else _)
  split
  · rfl
  · show (match s.node[i]? with | some v => _ | none => _) = _
    cases s.node[i]? <;> rfl

theorem huffWalk_ignoresSize (passes index : Nat) : IgnoresSize (State.huffWalk passes index) := by
  induction passes generalizing index with
  | zero => exact ignoresSize_ok none
  | succ passes ih =>
    intro size s
    show (if s.rmsbEos then _ else _) = Res.withSize size (if s.rmsbEos then _ else _)
    split
    · rfl
    · refine (rmsbBit_ignoresSize.bind fun b => (huffNode_ignoresSize _).bind fun n => ?_) size s
      cases n with
      | leaf sym => exact ignoresSize_ok _
      | internal next => exact ih next

theorem huffRoot_ignoresSize : IgnoresSize State.huffRoot := by
  intro size s
  show (if s.cfg.rootExplicit then _ else _) = Res.withSize size (if s.cfg.rootExplicit then _ else _)
  split
  · refine (huffNode_ignoresSize 0).bind (fun r => ?_) size s
    cases r with
    | leaf a => exact ignoresSize_raise _
    | internal index => exact ignoresSize_ok index
  · rfl

theorem huffSym_ignoresSize : IgnoresSize State.huffSym := by
  intro size s
  show (if s.rmsbEos then _ else _) = Res.withSize size (if s.rmsbEos then _ else _)
  split
  · rfl
  · exact huffRoot_ignoresSize.bind (fun index size u => huffWalk_ignoresSize u.rmsbBitsLeft index size u) size s

theorem huffSymX_ignoresSize : IgnoresSize State.huffSymX := by
  refine huffSym_ignoresSize.bind fun r => ?_
  cases r with
  | none => exact ignoresSize_raise _
  | some a => exact ignoresSize_ok a

/-- The extension symbols of a run are read alike. -/
theorem follow_ignoresSize {r : Reading} (h : r.onlySym) : IgnoresSize (State.follow r) := by
  induction r with
  | done i => exact ignoresSize_ok i
  | bit next => exact h.elim
  | raw next => exact h.elim
  | sym next ih => exact huffSymX_ignoresSize.bind fun a => ih a (h a)

theorem State.withSize_r24Refill (size : BitVec 21) (passes : Nat) (s : State) :
    (s.withSize size).r24Refill passes = (s.r24Refill passes).withSize size := by
  induction passes generalizing s with
  | zero => rfl
  | succ passes ih =>
    have hone : (s.withSize size).r24RefillOne = s.r24RefillOne.withSize size := by
      rcases Nat.lt_or_ge s.ipos s.inLen with hlt | hge
      · rw [State.r24RefillOne_real hlt]
        exact State.r24RefillOne_real (s := s.withSize size) hlt
      · rw [State.r24RefillOne_pad hge]
        exact State.r24RefillOne_pad (s := s.withSize size) hge
    show (if s.missing.toNat < 8 then _ else _) = State.withSize size (if s.missing.toNat < 8 then _ else _)
    split
    · rfl
    · rw [hone, ih]

theorem r24GetCw_ignoresSize (n : Nat) : IgnoresSize (State.r24GetCw n) := by
  intro size s
  rcases Nat.lt_or_ge s.navail.toNat n with hshort | hlong
  · rw [State.r24GetCw_raise hshort]
    exact State.r24GetCw_raise (s := s.withSize size) hshort
  · rw [State.r24GetCw_ok hlong]
    refine (State.r24GetCw_ok (s := s.withSize size) hlong).trans (congrArg (Res.ok (s.r24Top n)) ?_)
    exact (s.r24Take n).withSize_r24Refill size 3

/-! #### The meanings -/

theorem outAppend_ignoresSize (b : Byte) : IgnoresSize (State.outAppend b) := by
  intro size s
  show (if s.outFull then _ else _) = Res.withSize size (if s.outFull then _ else _)
  split <;> rfl

theorem emit_ignoresSize (str : List Byte) : IgnoresSize (State.emit str) := by
  induction str with
  | nil => exact ignoresSize_ok ()
  | cons b rest ih => exact (outAppend_ignoresSize b).bind fun _ => ih

theorem dictRead_ignoresSize (c : Nat) : IgnoresSize (State.dictRead c) := by
  intro size s
  cases h : s.dict.read c with
  | none => simp only [State.dictRead, State.withSize, h, Res.withSize]
  | some str => simp only [State.dictRead, State.withSize, h, Res.withSize]

theorem State.withSize_lzwWiden (size : BitVec 21) (s : State) :
    (s.withSize size).lzwWiden = s.lzwWiden.withSize size := by
  show (if s.dictsize.toNat = 2 ^ s.nbit.toNat ∧ s.nbit.toNat < nbitMax then _ else _) =
    State.withSize size (if s.dictsize.toNat = 2 ^ s.nbit.toNat ∧ s.nbit.toNat < nbitMax then _ else _)
  split <;> rfl

theorem lzwAppend_ignoresSize (str : List Byte) : IgnoresSize (State.lzwAppend str) := by
  intro size s
  show (if s.appends then _ else _) = Res.withSize size (if s.appends then _ else _)
  split
  · refine (dictRead_ignoresSize s.prev.toNat).bind (fun p size u => ?_) size s
    exact congrArg (Res.ok ()) ((u.lzwLearn (p ++ str.take 1)).withSize_lzwWiden size)
  · rfl

theorem lzwTail_ignoresSize (str : List Byte) (cw : Code) : IgnoresSize (State.lzwTail str cw) :=
  (lzwAppend_ignoresSize str).bind fun _ => (emit_ignoresSize str).bind fun _ _ _ => rfl

theorem lzwEntry_ignoresSize (c : Code) : IgnoresSize (State.lzwEntry c) :=
  (dictRead_ignoresSize _).bind fun str => lzwTail_ignoresSize str c

/-- An LZW or Huffman instruction goes on alike with another `PAYLOAD_SIZE`. -/
theorem exec_withSize {i : Instr} {s t : State} (hi : i.format = .lzw ∨ i.format = .huff) (ht : exec i s = .next t)
    (size : BitVec 21) : exec i (s.withSize size) = .next (t.withSize size) := by
  have hcopies : ∀ n, (s.appendRun s.last n).outcome s = .next t →
      ((s.withSize size).appendRun s.last n).outcome (s.withSize size) = .next (t.withSize size) := by
    intro n hn
    rw [State.appendRun_eq_emit] at hn ⊢
    exact (emit_ignoresSize _).outcome hn size
  cases i with
  | lit b => exact (lzwEntry_ignoresSize _).outcome ht size
  | clear => cases ht; rfl
  | endLzw => cases ht; rfl
  | clearAlt => cases ht; rfl
  | endLzwAlt => cases ht; rfl
  | ref c => exact (lzwEntry_ignoresSize _).outcome ht size
  | kwkwk c =>
    have hop : IgnoresSize fun u => (u.dictRead s.prev.toNat).bind fun p v => v.lzwTail (p ++ p.take 1) c :=
      (dictRead_ignoresSize _).bind fun p => lzwTail_ignoresSize _ c
    exact hop.outcome ht size
  | illegal c => cases ht; rfl
  | litsym b =>
    rw [exec_litsym] at ht ⊢
    have hop : IgnoresSize fun u => (u.emit [b]).bind fun _ v => .ok () { v with last := b } :=
      (emit_ignoresSize [b]).bind fun _ _ _ => rfl
    exact hop.outcome ht size
  | run h n => exact hcopies _ ht
  | run8 h a => exact hcopies _ ht
  | run16 h a b => exact hcopies _ ht
  | _ => simp [Instr.format] at hi

/-! #### The step -/

/-- What a fetch gives, with another `PAYLOAD_SIZE`. -/
def Fetched.withSize (size : BitVec 21) : Fetched → Fetched
  | .execute i s => .execute i (s.withSize size)
  | .ended (.next s) => .ended (.next (s.withSize size))
  | .ended (.fault f) => .ended (.fault f)
  | .ended (.refused r) => .ended (.refused r)

theorem Res.fetched_withSize (size : BitVec 21) (s : State) (r : Res Instr) :
    (r.withSize size).fetched (s.withSize size) = (r.fetched s).withSize size := by
  cases r <;> rfl

/-- The fetch of a running LZW or Huffman call gives the same with another `PAYLOAD_SIZE`. -/
theorem fetch_withSize {s : State} (hrun : s.stState = .run) (hf : s.format = .lzw ∨ s.format = .huff)
    (size : BitVec 21) : (s.withSize size).fetch = s.fetch.withSize size := by
  rcases hf with hf | hf
  · have hop : IgnoresSize fun u => (u.r24GetCw s.nbit.toNat).bind fun cw v => .ok (decodeLzw s.ctx cw) v :=
      (r24GetCw_ignoresSize _).bind fun cw => ignoresSize_ok _
    rw [fetch_lzw hrun hf, fetch_lzw (s := s.withSize size) hrun hf]
    exact (congrArg (Res.fetched (s.withSize size)) (hop size s)).trans (Res.fetched_withSize size s _)
  · rw [fetch_huff hrun hf, fetch_huff (s := s.withSize size) hrun hf, State.fetchHuff, State.fetchHuff,
      huffSym_ignoresSize]
    rcases s.huffSym with ⟨_ | a, u⟩ | k | f
    · rfl
    · rw [← Res.fetched_withSize, ← follow_ignoresSize (huffReading_onlySym a)]
      rfl
    · rfl
    · rfl

/-- Settles O60: the fetch gives the same instruction (`fetch_withSize`), whose meaning goes on alike
(`exec_withSize`). -/
theorem payloadSizeIsAdvisory : Obligations.PayloadSizeIsAdvisory := by
  intro s t size hrun hf ht
  have hfetch := fetch_withSize hrun hf size
  have hout := fetch_outcome hrun
  generalize ho : s.fetch = o at hout hfetch
  cases hout with
  | aborted k => cases (step_of_ended ho).symm.trans ht; exact step_of_ended hfetch
  | stopped f => cases (step_of_ended ho).symm.trans ht
  | finished hcall => cases (step_of_ended ho).symm.trans ht; exact step_of_ended hfetch
  | instruction hcall hi =>
    exact (step_of_execute hfetch).trans (exec_withSize (hi ▸ hf) ((step_of_execute ho).symm.trans ht) size)

end Sys2Proof.Machine

/-! ### A word of every row of the opcode table -/

namespace Sys2Proof

/-- Settles O1: each word is decoded by evaluating the decoder on it. -/
theorem specWordsDecode : Obligations.SpecWordsDecode :=
  ⟨rfl, rfl, rfl, rfl, rfl, rfl, rfl, rfl, rfl, rfl, rfl, rfl, rfl, rfl, rfl, rfl, rfl, rfl, rfl, rfl⟩

end Sys2Proof
